-- ==== Sys2Proof/Word.lean ====
section
/-! DEFINITION. The word types of the block (00_scope.md R10, R11): unsigned bit vectors of a stated width. -/

namespace Sys2Proof

/-- One byte: the unit every region is addressed in. -/
abbrev Byte := BitVec 8

/-- A 16-bit bus value. -/
abbrev Half := BitVec 16

/-- A 32-bit bus value; its arithmetic wraps modulo 2^32 (R10). -/
abbrev Long := BitVec 32

/-- A 32-bit bus address (R70). -/
abbrev Addr := BitVec 32

/-- The three access widths (R11, R87). -/
inductive Width where
  | byte
  | word
  | long
deriving DecidableEq, Repr

/-- The bytes in one unit of a width: `step` of R11 and R125. -/
def Width.step : Width → Nat
  | .byte => 1
  | .word => 2
  | .long => 4

end Sys2Proof
end

