-- ==== Sys2Proof/Config.lean ====
section
/-! DEFINITION. What an implementation fixes: the parameter record `Cfg` of 00_scope.md R7 with the defaults of the
spec, and the values the spec leaves open, each an opaque constant. -/

namespace Sys2Proof

/-- The two treatments of width code 3 (R127, decision D19). -/
inductive Width3 where
  | reject
  | long
deriving DecidableEq, Repr, Inhabited

/-- The register offsets `OFF_<name>` of 30_encoding.md R130. -/
structure Offsets where
  screenMode : Nat
  tilemapSet : Nat
  tilemapBlend : Nat
  scroll : Nat
  keyscan : Nat
  joypad0 : Nat
  joypad1 : Nat
  msgOut : Nat
  ticks : Nat
  intFlags : Nat
  dmaSrc : Nat
  dmaDst : Nat
  dmaLen : Nat
  dmaCtrl : Nat
  hdmaCtrl : Nat
  hdmaSrc : Nat
  hdmaDst : Nat
  blitFunc : Nat
  blitA : Nat
  blitB : Nat
  blitLen : Nat
  blitKey : Nat
deriving DecidableEq, Repr

/-- The parameter record of R7. `ADDR_BITS`, `OFF_BITS`, `DEV_SLOTS` and `HDMA_CHANNELS` are fixed there and
stand in the types. The ROM images are arguments of `State.provision`. -/
structure Cfg where
  /-- `BANK_LSB`: lowest address bit of the bank field (R70). -/
  bankLsb : Nat
  bootSize : Nat
  cartBase : Nat
  cartSize : Nat
  wramSize : Nat
  vramWinMask : Nat
  vramSize : Nat
  devBlock : Nat
  regBase : Nat
  regSize : Nat
  off : Offsets
  width3 : Width3
  /-- `Dev[s]`: whether slot `s` holds a device (R50). -/
  dev : Vector Bool 16
deriving DecidableEq, Repr

/-- `WIDTH3` of a block whose implementer's choice is not known (R127 leaves it OPEN). [DESIGN CHOICE: log 5] -/
opaque Config.width3 : Width3

/-- The scan code a poll returns when the state lists no answer: a free value of the draw's number (R63, I8).
[DESIGN CHOICE: log 7] -/
opaque Config.freePoll : Nat → Byte

/-- What a device answers to a read of (slot, offset) when the state lists no answer: a free value that may depend
on the draw's number (R62, I7). The contract gives the value no width. [DESIGN CHOICE: log 7] -/
opaque Config.freeDevValue : Nat → Nat → Nat → Nat

/-- The status of a failed provisioning is `Config.provisionFailure + 1`: non-zero and otherwise open (R371, I10).
[DESIGN CHOICE: log 17] -/
opaque Config.provisionFailure : Nat

/-- How many micro-steps one model step runs before it hands back; a run that is still going is continued by the
next step, so this bounds no run. [DESIGN CHOICE: log 1] -/
def Config.burst : Nat := 1099511627776

/-- The default offsets of R130 (decision D4). -/
def Offsets.default : Offsets where
  screenMode := 0x00000
  tilemapSet := 0x00008
  tilemapBlend := 0x00009
  scroll := 0x00010
  keyscan := 0x00040
  joypad0 := 0x00042
  joypad1 := 0x00043
  msgOut := 0x00044
  ticks := 0x00060
  intFlags := 0x00080
  dmaSrc := 0x00100
  dmaDst := 0x00104
  dmaLen := 0x00108
  dmaCtrl := 0x0010A
  hdmaCtrl := 0x00180
  hdmaSrc := 0x001A0
  hdmaDst := 0x001C0
  blitFunc := 0x00200
  blitA := 0x00204
  blitB := 0x00208
  blitLen := 0x0020C
  blitKey := 0x00210

/-- The default parameters of R7, every device slot absent. [PRESUMED, the spec's own defaults: log 4] -/
def Cfg.default : Cfg where
  bankLsb := 28
  bootSize := 0x020000
  cartBase := 0x020000
  cartSize := 0x1000000
  wramSize := 0x400000
  vramWinMask := 0x07FFFF
  vramSize := 0x060000
  devBlock := 0x8000
  regBase := 0x0D000000
  regSize := 0x100000
  off := Offsets.default
  width3 := Config.width3
  dev := Vector.replicate 16 false

end Sys2Proof
end

