-- ==== Sys2Proof/Machine/AddressMap.lean ====
section
/-! DEFINITION. The address decoder's arithmetic (20_memory.md R70 to R73), the register map (30_encoding.md R130),
the constraints on a configuration (00_scope.md R7), and the byte order (R85). -/

namespace Sys2Proof

/-! ## Splitting an address -/

/-- `bank(a) = a[BANK_LSB+3 : BANK_LSB]` (R70). -/
def bankOf (c : Cfg) (a : Addr) : BitVec 4 := BitVec.ofNat 4 (a.toNat >>> c.bankLsb)

/-- `off(a) = a[23:0]` (R70). -/
def offOf (a : Addr) : Nat := a.toNat % 2 ^ 24

/-- `BankAddr(b, o) = (b << BANK_LSB) | o` (R70). -/
def bankAddr (c : Cfg) (b : BitVec 4) (o : Nat) : Addr := BitVec.ofNat 32 (b.toNat <<< c.bankLsb ||| o)

/-- `a` is in the register window: an absolute range of the full address (R72). -/
def inWindow (c : Cfg) (a : Addr) : Bool := decide (c.regBase ≤ a.toNat) && decide (a.toNat < c.regBase + c.regSize)

/-- `roff(a) = a - REG_BASE` (R72). -/
def roffOf (c : Cfg) (a : Addr) : Nat := a.toNat - c.regBase

/-! ## The register map -/

/-- The registers of the window (R130). -/
inductive Reg where
  | screenMode
  | tilemapSet
  | tilemapBlend
  | scrollX (i : Fin 4)
  | scrollY (i : Fin 4)
  | keyscan
  | joypad0
  | joypad1
  | msgOut
  | ticks
  | intFlags
  | dmaSrc
  | dmaDst
  | dmaLen
  | dmaCtrl
  | hdmaCtrl (ch : Fin 8)
  | hdmaSrc (ch : Fin 8)
  | hdmaDst (ch : Fin 8)
  | blitFunc
  | blitA
  | blitB
  | blitLen
  | blitKey
deriving DecidableEq, Repr

/-- The one width at which a register is selected (R130). -/
def regWidth : Reg → Width
  | .screenMode => .byte
  | .tilemapSet => .byte
  | .tilemapBlend => .byte
  | .scrollX _ => .word
  | .scrollY _ => .word
  | .keyscan => .byte
  | .joypad0 => .byte
  | .joypad1 => .byte
  | .msgOut => .long
  | .ticks => .long
  | .intFlags => .byte
  | .dmaSrc => .long
  | .dmaDst => .long
  | .dmaLen => .long
  | .dmaCtrl => .byte
  | .hdmaCtrl _ => .long
  | .hdmaSrc _ => .long
  | .hdmaDst _ => .long
  | .blitFunc => .long
  | .blitA => .long
  | .blitB => .long
  | .blitLen => .long
  | .blitKey => .long

/-- The window offset of a register (R130). -/
def regOffset (c : Cfg) : Reg → Nat
  | .screenMode => c.off.screenMode
  | .tilemapSet => c.off.tilemapSet
  | .tilemapBlend => c.off.tilemapBlend
  | .scrollX i => c.off.scroll + 4 * i.val
  | .scrollY i => c.off.scroll + 4 * i.val + 2
  | .keyscan => c.off.keyscan
  | .joypad0 => c.off.joypad0
  | .joypad1 => c.off.joypad1
  | .msgOut => c.off.msgOut
  | .ticks => c.off.ticks
  | .intFlags => c.off.intFlags
  | .dmaSrc => c.off.dmaSrc
  | .dmaDst => c.off.dmaDst
  | .dmaLen => c.off.dmaLen
  | .dmaCtrl => c.off.dmaCtrl
  | .hdmaCtrl ch => c.off.hdmaCtrl + 4 * ch.val
  | .hdmaSrc ch => c.off.hdmaSrc + 4 * ch.val
  | .hdmaDst ch => c.off.hdmaDst + 4 * ch.val
  | .blitFunc => c.off.blitFunc
  | .blitA => c.off.blitA
  | .blitB => c.off.blitB
  | .blitLen => c.off.blitLen
  | .blitKey => c.off.blitKey

/-- Every register, in the order of R130. -/
def allRegs : List Reg :=
  [.screenMode, .tilemapSet, .tilemapBlend,
   .scrollX 0, .scrollY 0, .scrollX 1, .scrollY 1, .scrollX 2, .scrollY 2, .scrollX 3, .scrollY 3,
   .keyscan, .joypad0, .joypad1, .msgOut, .ticks, .intFlags, .dmaSrc, .dmaDst, .dmaLen, .dmaCtrl,
   .hdmaCtrl 0, .hdmaCtrl 1, .hdmaCtrl 2, .hdmaCtrl 3, .hdmaCtrl 4, .hdmaCtrl 5, .hdmaCtrl 6, .hdmaCtrl 7,
   .hdmaSrc 0, .hdmaSrc 1, .hdmaSrc 2, .hdmaSrc 3, .hdmaSrc 4, .hdmaSrc 5, .hdmaSrc 6, .hdmaSrc 7,
   .hdmaDst 0, .hdmaDst 1, .hdmaDst 2, .hdmaDst 3, .hdmaDst 4, .hdmaDst 5, .hdmaDst 6, .hdmaDst 7,
   .blitFunc, .blitA, .blitB, .blitLen, .blitKey]

/-- The register at an exact (offset, width), if R130 lists one. -/
def regAt (c : Cfg) (o : Nat) (w : Width) : Option Reg :=
  allRegs.find? fun r => decide (regOffset c r = o) && decide (regWidth r = w)

/-- The register a native access of width `w` at `a` selects: the window test, then the exact offset and width
(R87, R177). At byte width it is the 8-bit register decoder (R80). -/
def selectReg (c : Cfg) (a : Addr) (w : Width) : Option Reg :=
  if inWindow c a then regAt c (roffOf c a) w else none

/-- The bus address of a register. -/
def regAddr (c : Cfg) (r : Reg) : Addr := BitVec.ofNat 32 (c.regBase + regOffset c r)

/-! ## The constraints on a configuration -/

/-- `n` is a power of two, of any size: R7 bounds `BOOT_SIZE` and `WRAM_SIZE` by other constraints, and sets `CART_SIZE`
and `VRAM_WIN_MASK` no bound. -/
def isPow2 (n : Nat) : Bool := n == 2 ^ n.log2

/-- The constraints of R7's third column that are about sizes and bases. -/
def cfgSizesOk (c : Cfg) : Bool :=
  (c.bankLsb == 24 || c.bankLsb == 28) && isPow2 c.bootSize && decide (c.bootSize ≤ c.cartBase) &&
  isPow2 c.cartSize && isPow2 c.wramSize && decide (c.wramSize ≤ 2 ^ 24) && isPow2 (c.vramWinMask + 1) &&
  decide (c.vramSize ≤ c.vramWinMask + 1) && decide (0 < c.devBlock) && decide (0 < c.regSize) &&
  decide (c.regBase + c.regSize ≤ 2 ^ 32)

/-- The constraint of R7 on register offsets: distinct per (offset, width). -/
def cfgOffsetsDistinct (c : Cfg) : Bool :=
  allRegs.all fun r => allRegs.all fun r' =>
    decide (r = r') || !(decide (regOffset c r = regOffset c r') && decide (regWidth r = regWidth r'))

/-- Every register lies inside the window ("offset of each register in the window", R7). [DEDUCED: log 4] -/
def cfgOffsetsInWindow (c : Cfg) : Bool := allRegs.all fun r => decide (regOffset c r < c.regSize)

/-- A configuration a model may assume (R7). -/
def cfgWf (c : Cfg) : Bool := cfgSizesOk c && cfgOffsetsDistinct c && cfgOffsetsInWindow c

/-! ## Byte order: most significant byte first (R85) -/

/-- The bytes of a value of width `w`, most significant first. -/
def bytesOf (w : Width) (v : Long) : List Byte :=
  match w with
  | .byte => [v.extractLsb' 0 8]
  | .word => [v.extractLsb' 8 8, v.extractLsb' 0 8]
  | .long => [v.extractLsb' 24 8, v.extractLsb' 16 8, v.extractLsb' 8 8, v.extractLsb' 0 8]

/-- One byte appended below the bytes gathered so far. -/
def appendByte (acc : Long) (b : Byte) : Long := (acc <<< 8) ||| b.setWidth 32

/-- The value whose bytes are listed most significant first. -/
def longOfBytes (bs : List Byte) : Long := bs.foldl appendByte 0

/-- `trunc_(8*step)(v)`, zero-extended again: the part of a value that an access of width `w` moves (R12). -/
def truncTo (w : Width) (v : Long) : Long :=
  match w with
  | .byte => (v.setWidth 8).setWidth 32
  | .word => (v.setWidth 16).setWidth 32
  | .long => v

end Sys2Proof
end

