-- ==== Sys2Proof/Syntax.lean ====
section
/-! DEFINITION. The commands of the block, one constructor per row of spec/opcode_table.json. -/

namespace Sys2Proof

/-- An 8-bit access as the decoder sees it: a read, or a write with its byte (R71). -/
inductive ByteAccess where
  | read
  | write (v : Byte)
deriving DecidableEq, Repr

/-- A bus access: width, direction, and the data of a write (R11). -/
inductive Access where
  | rd8
  | rd16
  | rd32
  | wr8 (v : Byte)
  | wr16 (v : Half)
  | wr32 (v : Long)
deriving DecidableEq, Repr

/-- The width of an access. -/
def Access.width : Access → Width
  | .rd8 => .byte
  | .rd16 => .word
  | .rd32 => .long
  | .wr8 _ => .byte
  | .wr16 _ => .word
  | .wr32 _ => .long

/-- The fields of a blitter function word beside `FUNC` and `SKIP` (R136). -/
structure BlitFields where
  dstStride : BitVec 12
  srcStride : BitVec 12
  width : BitVec 2
  keyEn : Bool
deriving DecidableEq, Repr

/-- The commands. Each docstring of a group names the rows of the table it stands for. -/
inductive Instr where
  -- BUS frames (R121): the six bus operations and the scanline event
  | rd8 (a : Addr)
  | rd16 (a : Addr)
  | rd32 (a : Addr)
  | wr8 (a : Addr) (d : Long)
  | wr16 (a : Addr) (d : Long)
  | wr32 (a : Addr) (d : Long)
  | line (n : BitVec 32)
  | hdmaLine (n : BitVec 32)
  -- decoder rows (R72, R73): an 8-bit access and the address that selects the row
  | windowReg (acc : ByteAccess) (a : Addr)
  | bankRom (acc : ByteAccess) (a : Addr)
  | bankWram (acc : ByteAccess) (a : Addr)
  | bankDev (acc : ByteAccess) (a : Addr)
  | bankNone3 (acc : ByteAccess) (a : Addr)
  | bankNone4 (acc : ByteAccess) (a : Addr)
  | bankNone5 (acc : ByteAccess) (a : Addr)
  | bankNone6 (acc : ByteAccess) (a : Addr)
  | bankNone7 (acc : ByteAccess) (a : Addr)
  | bankNone8 (acc : ByteAccess) (a : Addr)
  | bankNone9 (acc : ByteAccess) (a : Addr)
  | bankNoneA (acc : ByteAccess) (a : Addr)
  | bankNoneB (acc : ByteAccess) (a : Addr)
  | bankNoneC (acc : ByteAccess) (a : Addr)
  | bankNoneD (acc : ByteAccess) (a : Addr)
  | bankVram (acc : ByteAccess) (a : Addr)
  | bankNoneF (acc : ByteAccess) (a : Addr)
  -- register rows (R130): the read and the write of each register at its one width
  | screenModeR
  | screenModeW (v : Byte)
  | tilemapSetR
  | tilemapSetW (v : Byte)
  | tilemapBlendR
  | tilemapBlendW (v : Byte)
  | scrollX0R
  | scrollX0W (v : Half)
  | scrollY0R
  | scrollY0W (v : Half)
  | scrollX1R
  | scrollX1W (v : Half)
  | scrollY1R
  | scrollY1W (v : Half)
  | scrollX2R
  | scrollX2W (v : Half)
  | scrollY2R
  | scrollY2W (v : Half)
  | scrollX3R
  | scrollX3W (v : Half)
  | scrollY3R
  | scrollY3W (v : Half)
  | keyscanR
  | keyscanW (v : Byte)
  | joypad0R
  | joypad0W (v : Byte)
  | joypad1R
  | joypad1W (v : Byte)
  | msgOutR
  | msgOutW (v : Long)
  | ticksR
  | ticksW (v : Long)
  | intFlagsR
  | intFlagsW (v : Byte)
  | dmaSrcR
  | dmaSrcW (v : Long)
  | dmaDstR
  | dmaDstW (v : Long)
  | dmaLenR
  | dmaLenW (v : Long)
  | dmaCtrlR
  | dmaCtrlW (v : Byte)
  | hdmaCtrl0R
  | hdmaCtrl0W (v : Long)
  | hdmaCtrl1R
  | hdmaCtrl1W (v : Long)
  | hdmaCtrl2R
  | hdmaCtrl2W (v : Long)
  | hdmaCtrl3R
  | hdmaCtrl3W (v : Long)
  | hdmaCtrl4R
  | hdmaCtrl4W (v : Long)
  | hdmaCtrl5R
  | hdmaCtrl5W (v : Long)
  | hdmaCtrl6R
  | hdmaCtrl6W (v : Long)
  | hdmaCtrl7R
  | hdmaCtrl7W (v : Long)
  | hdmaSrc0R
  | hdmaSrc0W (v : Long)
  | hdmaSrc1R
  | hdmaSrc1W (v : Long)
  | hdmaSrc2R
  | hdmaSrc2W (v : Long)
  | hdmaSrc3R
  | hdmaSrc3W (v : Long)
  | hdmaSrc4R
  | hdmaSrc4W (v : Long)
  | hdmaSrc5R
  | hdmaSrc5W (v : Long)
  | hdmaSrc6R
  | hdmaSrc6W (v : Long)
  | hdmaSrc7R
  | hdmaSrc7W (v : Long)
  | hdmaDst0R
  | hdmaDst0W (v : Long)
  | hdmaDst1R
  | hdmaDst1W (v : Long)
  | hdmaDst2R
  | hdmaDst2W (v : Long)
  | hdmaDst3R
  | hdmaDst3W (v : Long)
  | hdmaDst4R
  | hdmaDst4W (v : Long)
  | hdmaDst5R
  | hdmaDst5W (v : Long)
  | hdmaDst6R
  | hdmaDst6W (v : Long)
  | hdmaDst7R
  | hdmaDst7W (v : Long)
  | blitFuncR
  | blitFuncW (v : Long)
  | blitAR
  | blitAW (v : Long)
  | blitBR
  | blitBW (v : Long)
  | blitLenR
  | blitLenW (v : Long)
  | blitKeyR
  | blitKeyW (v : Long)
  -- every other (offset, width, direction) of the window (R250)
  | regUnknown (acc : Access) (a : Addr)
  -- DMA control words (R135)
  | dmaNop
  | dmaCopyB (srcInc dstInc : Bool)
  | dmaCopyW (srcInc dstInc : Bool)
  | dmaCopyL (srcInc dstInc : Bool)
  | dmaFillB (srcInc dstInc : Bool)
  | dmaFillW (srcInc dstInc : Bool)
  | dmaFillL (srcInc dstInc : Bool)
  | dmaW3 (const srcInc dstInc : Bool)
  -- HDMA control word (R137), written to the control register of channel `ch`
  | hdmaSet (ch : Fin 8) (en : Bool) (width : BitVec 2) (dbl : Bool) (start count : BitVec 10)
  -- blitter function words (R136)
  | bltNop (f : BlitFields) (skip : Bool)
  | bltBlit (f : BlitFields)
  | bltBlitS (f : BlitFields)
  | bltSet (f : BlitFields)
  | bltSetS (f : BlitFields)
  | bltInv (f : BlitFields)
  | bltInvS (f : BlitFields)
  | bltRle (f : BlitFields) (skip : Bool)
  | bltRsvd5 (f : BlitFields) (skip : Bool)
  | bltRsvd6to7 (f : BlitFields) (skip : Bool) (low : BitVec 1)
  | bltRsvd8to15 (f : BlitFields) (skip : Bool) (low : BitVec 3)
  -- codes of the RLE stream (R140)
  | rleEnd
  | rleRun (n : BitVec 6) (v : Byte)
  | rleLit0 (v : BitVec 7)
  | rleLit1 (v : BitVec 6)
deriving DecidableEq, Repr

end Sys2Proof
end

