-- ==== Sys2Proof/Machine/Operands.lean ====
section
/-! DEFINITION. How operands are formed from encoded fields (30_encoding.md R125 to R145): width codes, the fields of
the three control words, the stride jump, and the RLE codes. -/

namespace Sys2Proof

/-! ## Width codes (R125, R127) -/

/-- The width a code stands for; `none` where `WIDTH3 = reject` turns code 3 away. -/
def widthOf (c : Cfg) (w : BitVec 2) : Option Width :=
  if w = 0 then some .byte
  else if w = 1 then some .word
  else if w = 2 then some .long
  else match c.width3 with
    | .reject => none
    | .long => some .long

/-! ## DMA control word (R135) -/

/-- `START`. -/
def dmacStart (v : Byte) : Bool := v.getLsbD 0
/-- `SRC_INC`. -/
def dmacSrcInc (v : Byte) : Bool := v.getLsbD 1
/-- `DST_INC`. -/
def dmacDstInc (v : Byte) : Bool := v.getLsbD 2
/-- `CONST`. -/
def dmacConst (v : Byte) : Bool := v.getLsbD 3
/-- `WIDTH`. -/
def dmacWidth (v : Byte) : BitVec 2 := v.extractLsb' 4 2

/-- The control word with the given fields, its ignored bits 7:6 zero. -/
def dmacWord (const : Bool) (w : BitVec 2) (srcInc dstInc start : Bool) : Byte :=
  (0 : BitVec 2) ++ w ++ BitVec.ofBool const ++ BitVec.ofBool dstInc ++ BitVec.ofBool srcInc ++ BitVec.ofBool start

/-! ## HDMA control word (R137) -/

/-- `EN`. -/
def hdmacEn (v : Long) : Bool := v.getLsbD 0
/-- `WIDTH`. -/
def hdmacWidth (v : Long) : BitVec 2 := v.extractLsb' 4 2
/-- `DBL`. -/
def hdmacDbl (v : Long) : Bool := v.getLsbD 7
/-- `START`. -/
def hdmacStart (v : Long) : BitVec 10 := v.extractLsb' 8 10
/-- `COUNT`. -/
def hdmacCount (v : Long) : BitVec 10 := v.extractLsb' 20 10

/-- The control word with the given fields, its ignored bits zero. -/
def hdmacWord (en : Bool) (w : BitVec 2) (dbl : Bool) (start count : BitVec 10) : Long :=
  (0 : BitVec 2) ++ count ++ (0 : BitVec 2) ++ start ++ BitVec.ofBool dbl ++ (0 : BitVec 1) ++ w ++
    (0 : BitVec 3) ++ BitVec.ofBool en

/-! ## Blitter function word (R136) -/

/-- `FUNC`. -/
def blitfFunc (v : Long) : BitVec 4 := v.extractLsb' 0 4
/-- `SKIP`. -/
def blitfSkip (v : Long) : Bool := v.getLsbD 4
/-- `DST_STRIDE`, `SRC_STRIDE`, `WIDTH`, `KEY_EN`. -/
def blitfFields (v : Long) : BlitFields where
  dstStride := v.extractLsb' 20 12
  srcStride := v.extractLsb' 8 12
  width := v.extractLsb' 6 2
  keyEn := v.getLsbD 5

/-- The function word with the given fields. -/
def blitfWord (f : BlitFields) (skip : Bool) (func : BitVec 4) : Long :=
  f.dstStride ++ f.srcStride ++ f.width ++ BitVec.ofBool f.keyEn ++ BitVec.ofBool skip ++ func

/-- `J(step) = sext_32(ds - ss) * step`: the signed difference of the two counts, narrowed at the end (R313). -/
def strideJump (ds ss : BitVec 12) (step : Nat) : Long := BitVec.ofInt 32 (((ds.toNat : Int) - (ss.toNat : Int)) *
  (step : Int))

/-! ## RLE codes (R140, R155) -/

/-- A code of the stream. -/
inductive RleCode where
  | stop
  | run (n : BitVec 6) (v : Byte)
  | lit (v : Byte)
deriving DecidableEq, Repr

/-- The first byte alone tells the length: two bytes when `c[7:6] = 11` (R155). -/
def rleTwoBytes (c : Byte) : Bool := decide (c.extractLsb' 6 2 = 3)

/-- The two-byte code `c`, `v`: END is the pair 0xC0, 0xC0, tested first (R140, R373). -/
def rlePair (c v : Byte) : RleCode :=
  if c.extractLsb' 0 6 = 0 ∧ v = 0xC0 then .stop else .run (c.extractLsb' 0 6) v

end Sys2Proof
end

