-- ==== Sys2Proof/WellFormed.lean ====
section
/-! DEFINITION. Which commands are well formed under a configuration: the operand conditions that the types of
Sys2Proof/Syntax.lean do not carry. -/

namespace Sys2Proof

/-- The address selects bank `b`: outside the register window, with that bank field (R71, R73). -/
def selectsBank (c : Cfg) (b : BitVec 4) (a : Addr) : Bool := !inWindow c a && decide (bankOf c a = b)

/-- The operand conditions: a line number is below 2^16 (R61), a decoder row's address selects that row (R71),
REG.UNKNOWN selects no register (R250), and the pair 0xC0, 0xC0 is END and not a RUN (R140). -/
def wellFormed (c : Cfg) : Instr → Bool
  | .line n => decide (n.toNat < 2 ^ 16)
  | .hdmaLine n => decide (n.toNat < 2 ^ 16)
  | .windowReg _ a => inWindow c a
  | .bankRom _ a => selectsBank c 0x0 a
  | .bankWram _ a => selectsBank c 0x1 a
  | .bankDev _ a => selectsBank c 0x2 a
  | .bankNone3 _ a => selectsBank c 0x3 a
  | .bankNone4 _ a => selectsBank c 0x4 a
  | .bankNone5 _ a => selectsBank c 0x5 a
  | .bankNone6 _ a => selectsBank c 0x6 a
  | .bankNone7 _ a => selectsBank c 0x7 a
  | .bankNone8 _ a => selectsBank c 0x8 a
  | .bankNone9 _ a => selectsBank c 0x9 a
  | .bankNoneA _ a => selectsBank c 0xA a
  | .bankNoneB _ a => selectsBank c 0xB a
  | .bankNoneC _ a => selectsBank c 0xC a
  | .bankNoneD _ a => selectsBank c 0xD a
  | .bankVram _ a => selectsBank c 0xE a
  | .bankNoneF _ a => selectsBank c 0xF a
  | .regUnknown acc a => inWindow c a && decide (selectReg c a acc.width = none)
  | .rleRun n v => !(decide (n = 0) && decide (v = 0xC0))
  -- every operand of the remaining commands is admitted
  | .rd8 _ | .rd16 _ | .rd32 _ | .wr8 _ _ | .wr16 _ _ | .wr32 _ _ => true
  | .screenModeR | .screenModeW _ | .tilemapSetR | .tilemapSetW _ => true
  | .tilemapBlendR | .tilemapBlendW _ | .scrollX0R | .scrollX0W _ => true
  | .scrollY0R | .scrollY0W _ | .scrollX1R | .scrollX1W _ => true
  | .scrollY1R | .scrollY1W _ | .scrollX2R | .scrollX2W _ => true
  | .scrollY2R | .scrollY2W _ | .scrollX3R | .scrollX3W _ => true
  | .scrollY3R | .scrollY3W _ | .keyscanR | .keyscanW _ => true
  | .joypad0R | .joypad0W _ | .joypad1R | .joypad1W _ => true
  | .msgOutR | .msgOutW _ | .ticksR | .ticksW _ => true
  | .intFlagsR | .intFlagsW _ | .dmaSrcR | .dmaSrcW _ => true
  | .dmaDstR | .dmaDstW _ | .dmaLenR | .dmaLenW _ => true
  | .dmaCtrlR | .dmaCtrlW _ | .hdmaCtrl0R | .hdmaCtrl0W _ => true
  | .hdmaCtrl1R | .hdmaCtrl1W _ | .hdmaCtrl2R | .hdmaCtrl2W _ => true
  | .hdmaCtrl3R | .hdmaCtrl3W _ | .hdmaCtrl4R | .hdmaCtrl4W _ => true
  | .hdmaCtrl5R | .hdmaCtrl5W _ | .hdmaCtrl6R | .hdmaCtrl6W _ => true
  | .hdmaCtrl7R | .hdmaCtrl7W _ | .hdmaSrc0R | .hdmaSrc0W _ => true
  | .hdmaSrc1R | .hdmaSrc1W _ | .hdmaSrc2R | .hdmaSrc2W _ => true
  | .hdmaSrc3R | .hdmaSrc3W _ | .hdmaSrc4R | .hdmaSrc4W _ => true
  | .hdmaSrc5R | .hdmaSrc5W _ | .hdmaSrc6R | .hdmaSrc6W _ => true
  | .hdmaSrc7R | .hdmaSrc7W _ | .hdmaDst0R | .hdmaDst0W _ => true
  | .hdmaDst1R | .hdmaDst1W _ | .hdmaDst2R | .hdmaDst2W _ => true
  | .hdmaDst3R | .hdmaDst3W _ | .hdmaDst4R | .hdmaDst4W _ => true
  | .hdmaDst5R | .hdmaDst5W _ | .hdmaDst6R | .hdmaDst6W _ => true
  | .hdmaDst7R | .hdmaDst7W _ | .blitFuncR | .blitFuncW _ => true
  | .blitAR | .blitAW _ | .blitBR | .blitBW _ => true
  | .blitLenR | .blitLenW _ | .blitKeyR | .blitKeyW _ => true
  | .dmaNop | .dmaCopyB _ _ | .dmaCopyW _ _ | .dmaCopyL _ _ => true
  | .dmaFillB _ _ | .dmaFillW _ _ | .dmaFillL _ _ | .dmaW3 _ _ _ => true
  | .hdmaSet _ _ _ _ _ _ => true
  | .bltNop _ _ | .bltBlit _ | .bltBlitS _ | .bltSet _ | .bltSetS _ | .bltInv _ | .bltInvS _ => true
  | .bltRle _ _ | .bltRsvd5 _ _ | .bltRsvd6to7 _ _ _ | .bltRsvd8to15 _ _ _ => true
  | .rleEnd | .rleLit0 _ | .rleLit1 _ => true

end Sys2Proof
end

