-- ==== Sys2Proof/Decode.lean ====
section
/-! DEFINITION. The decoder, total on any bytes, and the encoder (30_encoding.md). The block has no instruction words:
what a word means depends on where it arrives (R120), so decoding takes that place, a `Context`, beside the bytes. -/

namespace Sys2Proof

/-- Where the bits of a command arrive. -/
inductive Context where
  /-- A bus transaction: a 9-byte BUS frame (R121). -/
  | bus
  /-- The address of an 8-bit access, at the decoder (R122). -/
  | addr (acc : ByteAccess)
  /-- The address of an access, at the register file (R130). -/
  | reg (acc : Access)
  /-- The byte written to `DMA_CTRL` (R135). -/
  | dmac
  /-- The word written to `HDMA_CTRL[ch]` (R137). -/
  | hdmac (ch : Fin 8)
  /-- The word written to `BLIT_FUNC` (R136). -/
  | blitf
  /-- The bytes read through `BLIT_A` by an RLE run (R140). -/
  | rle
deriving DecidableEq, Repr

/-- Why bytes are turned away. -/
inductive Reject where
  /-- Fewer bytes than the format has. -/
  | tooShort
  /-- A BUS frame whose `op` is none of the seven (R121, R150). -/
  | reservedOp
  /-- A read or scanline frame whose data field is not 0 (R121). -/
  | dataNotZero
  /-- A scanline frame whose line number is not below 2^16 (R61). -/
  | lineOutOfRange
  /-- An address outside the register window at the register file (R72). -/
  | notInWindow
deriving DecidableEq, Repr

/-! ## The rows of the decoder and of the register map -/

/-- The decoder row of an 8-bit access: the register window before the banks (R71, R122). -/
def addrRow (c : Cfg) (acc : ByteAccess) (a : Addr) : Instr :=
  if inWindow c a then .windowReg acc a
  else match (bankOf c a).toNat with
    | 0x0 => .bankRom acc a
    | 0x1 => .bankWram acc a
    | 0x2 => .bankDev acc a
    | 0x3 => .bankNone3 acc a
    | 0x4 => .bankNone4 acc a
    | 0x5 => .bankNone5 acc a
    | 0x6 => .bankNone6 acc a
    | 0x7 => .bankNone7 acc a
    | 0x8 => .bankNone8 acc a
    | 0x9 => .bankNone9 acc a
    | 0xA => .bankNoneA acc a
    | 0xB => .bankNoneB acc a
    | 0xC => .bankNoneC acc a
    | 0xD => .bankNoneD acc a
    | 0xE => .bankVram acc a
    | _ => .bankNoneF acc a  -- 0xF

/-- The read row of a register (R130). -/
def regReadRow : Reg → Instr
  | .screenMode => .screenModeR
  | .tilemapSet => .tilemapSetR
  | .tilemapBlend => .tilemapBlendR
  | .keyscan => .keyscanR
  | .joypad0 => .joypad0R
  | .joypad1 => .joypad1R
  | .msgOut => .msgOutR
  | .ticks => .ticksR
  | .intFlags => .intFlagsR
  | .dmaSrc => .dmaSrcR
  | .dmaDst => .dmaDstR
  | .dmaLen => .dmaLenR
  | .dmaCtrl => .dmaCtrlR
  | .blitFunc => .blitFuncR
  | .blitA => .blitAR
  | .blitB => .blitBR
  | .blitLen => .blitLenR
  | .blitKey => .blitKeyR
  | .scrollX i =>
    match i with
    | 0 => .scrollX0R
    | 1 => .scrollX1R
    | 2 => .scrollX2R
    | 3 => .scrollX3R
  | .scrollY i =>
    match i with
    | 0 => .scrollY0R
    | 1 => .scrollY1R
    | 2 => .scrollY2R
    | 3 => .scrollY3R
  | .hdmaCtrl i =>
    match i with
    | 0 => .hdmaCtrl0R
    | 1 => .hdmaCtrl1R
    | 2 => .hdmaCtrl2R
    | 3 => .hdmaCtrl3R
    | 4 => .hdmaCtrl4R
    | 5 => .hdmaCtrl5R
    | 6 => .hdmaCtrl6R
    | 7 => .hdmaCtrl7R
  | .hdmaSrc i =>
    match i with
    | 0 => .hdmaSrc0R
    | 1 => .hdmaSrc1R
    | 2 => .hdmaSrc2R
    | 3 => .hdmaSrc3R
    | 4 => .hdmaSrc4R
    | 5 => .hdmaSrc5R
    | 6 => .hdmaSrc6R
    | 7 => .hdmaSrc7R
  | .hdmaDst i =>
    match i with
    | 0 => .hdmaDst0R
    | 1 => .hdmaDst1R
    | 2 => .hdmaDst2R
    | 3 => .hdmaDst3R
    | 4 => .hdmaDst4R
    | 5 => .hdmaDst5R
    | 6 => .hdmaDst6R
    | 7 => .hdmaDst7R

/-- The write row of a register (R130). -/
def regWriteRow (r : Reg) (v : Long) : Instr :=
  match r with
  | .screenMode => .screenModeW (v.setWidth 8)
  | .tilemapSet => .tilemapSetW (v.setWidth 8)
  | .tilemapBlend => .tilemapBlendW (v.setWidth 8)
  | .keyscan => .keyscanW (v.setWidth 8)
  | .joypad0 => .joypad0W (v.setWidth 8)
  | .joypad1 => .joypad1W (v.setWidth 8)
  | .msgOut => .msgOutW v
  | .ticks => .ticksW v
  | .intFlags => .intFlagsW (v.setWidth 8)
  | .dmaSrc => .dmaSrcW v
  | .dmaDst => .dmaDstW v
  | .dmaLen => .dmaLenW v
  | .dmaCtrl => .dmaCtrlW (v.setWidth 8)
  | .blitFunc => .blitFuncW v
  | .blitA => .blitAW v
  | .blitB => .blitBW v
  | .blitLen => .blitLenW v
  | .blitKey => .blitKeyW v
  | .scrollX i =>
    match i with
    | 0 => .scrollX0W (v.setWidth 16)
    | 1 => .scrollX1W (v.setWidth 16)
    | 2 => .scrollX2W (v.setWidth 16)
    | 3 => .scrollX3W (v.setWidth 16)
  | .scrollY i =>
    match i with
    | 0 => .scrollY0W (v.setWidth 16)
    | 1 => .scrollY1W (v.setWidth 16)
    | 2 => .scrollY2W (v.setWidth 16)
    | 3 => .scrollY3W (v.setWidth 16)
  | .hdmaCtrl i =>
    match i with
    | 0 => .hdmaCtrl0W v
    | 1 => .hdmaCtrl1W v
    | 2 => .hdmaCtrl2W v
    | 3 => .hdmaCtrl3W v
    | 4 => .hdmaCtrl4W v
    | 5 => .hdmaCtrl5W v
    | 6 => .hdmaCtrl6W v
    | 7 => .hdmaCtrl7W v
  | .hdmaSrc i =>
    match i with
    | 0 => .hdmaSrc0W v
    | 1 => .hdmaSrc1W v
    | 2 => .hdmaSrc2W v
    | 3 => .hdmaSrc3W v
    | 4 => .hdmaSrc4W v
    | 5 => .hdmaSrc5W v
    | 6 => .hdmaSrc6W v
    | 7 => .hdmaSrc7W v
  | .hdmaDst i =>
    match i with
    | 0 => .hdmaDst0W v
    | 1 => .hdmaDst1W v
    | 2 => .hdmaDst2W v
    | 3 => .hdmaDst3W v
    | 4 => .hdmaDst4W v
    | 5 => .hdmaDst5W v
    | 6 => .hdmaDst6W v
    | 7 => .hdmaDst7W v

/-- The register row of an access in the window, REG.UNKNOWN where R130 lists none (R122, R250). -/
def regRow (c : Cfg) (acc : Access) (a : Addr) : Instr :=
  match selectReg c a acc.width with
  | none => .regUnknown acc a
  | some r =>
    match acc with
    | .rd8 | .rd16 | .rd32 => regReadRow r
    | .wr8 v => regWriteRow r (v.setWidth 32)
    | .wr16 v => regWriteRow r (v.setWidth 32)
    | .wr32 v => regWriteRow r v

/-! ## Control words and stream codes -/

/-- A DMA control word (R135, R150): `START` first, then the width code, then `CONST`. -/
def decodeDmac (v : Byte) : Instr :=
  if dmacStart v then
    match dmacWidth v, dmacConst v with
    | 0, false => .dmaCopyB (dmacSrcInc v) (dmacDstInc v)
    | 1, false => .dmaCopyW (dmacSrcInc v) (dmacDstInc v)
    | 2, false => .dmaCopyL (dmacSrcInc v) (dmacDstInc v)
    | 0, true => .dmaFillB (dmacSrcInc v) (dmacDstInc v)
    | 1, true => .dmaFillW (dmacSrcInc v) (dmacDstInc v)
    | 2, true => .dmaFillL (dmacSrcInc v) (dmacDstInc v)
    | 3, k => .dmaW3 k (dmacSrcInc v) (dmacDstInc v)
  else .dmaNop

/-- An HDMA control word of channel `ch` (R137). -/
def decodeHdmac (ch : Fin 8) (v : Long) : Instr :=
  .hdmaSet ch (hdmacEn v) (hdmacWidth v) (hdmacDbl v) (hdmacStart v) (hdmacCount v)

/-- A blitter function word (R136, R150). -/
def decodeBlitf (v : Long) : Instr :=
  let f := blitfFields v
  let skip := blitfSkip v
  match (blitfFunc v).toNat with
  | 0 => .bltNop f skip
  | 1 => if skip then .bltBlitS f else .bltBlit f
  | 2 => if skip then .bltSetS f else .bltSet f
  | 3 => if skip then .bltInvS f else .bltInv f
  | 4 => .bltRle f skip
  | 5 => .bltRsvd5 f skip
  | 6 => .bltRsvd6to7 f skip 0
  | 7 => .bltRsvd6to7 f skip 1
  | 8 => .bltRsvd8to15 f skip 0
  | 9 => .bltRsvd8to15 f skip 1
  | 10 => .bltRsvd8to15 f skip 2
  | 11 => .bltRsvd8to15 f skip 3
  | 12 => .bltRsvd8to15 f skip 4
  | 13 => .bltRsvd8to15 f skip 5
  | 14 => .bltRsvd8to15 f skip 6
  | _ => .bltRsvd8to15 f skip 7  -- 15

/-- The command of a stream code: literals split by their top bit, as the table splits them (R140). -/
def rleInstr : RleCode → Instr
  | .stop => .rleEnd
  | .run n v => .rleRun n v
  | .lit v => if v.getLsbD 7 then .rleLit1 (v.setWidth 6) else .rleLit0 (v.setWidth 7)

/-! ## The decoder -/

/-- A BUS frame's three fields (R121). -/
def decodeFrame (op : Byte) (addr data : Long) : Except Reject Instr :=
  match op with
  | 0x00 => if data = 0 then .ok (.rd8 addr) else .error .dataNotZero
  | 0x01 => if data = 0 then .ok (.rd16 addr) else .error .dataNotZero
  | 0x02 => if data = 0 then .ok (.rd32 addr) else .error .dataNotZero
  | 0x80 => .ok (.wr8 addr data)
  | 0x81 => .ok (.wr16 addr data)
  | 0x82 => .ok (.wr32 addr data)
  | 0x40 =>
    if data = 0 then
      if addr.toNat < 2 ^ 16 then .ok (.line addr) else .error .lineOutOfRange
    else .error .dataNotZero
  | _ => .error .reservedOp

/-- The decoder: the command the first bytes stand for in a context, and the bytes after it. -/
def decode (c : Cfg) (ctx : Context) (bs : List Byte) : Except Reject (Instr × List Byte) :=
  match ctx with
  | .bus =>
    match bs with
    | op :: a3 :: a2 :: a1 :: a0 :: d3 :: d2 :: d1 :: d0 :: rest =>
      match decodeFrame op (longOfBytes [a3, a2, a1, a0]) (longOfBytes [d3, d2, d1, d0]) with
      | .ok i => .ok (i, rest)
      | .error e => .error e
    | _ => .error .tooShort
  | .addr acc =>
    match bs with
    | a3 :: a2 :: a1 :: a0 :: rest => .ok (addrRow c acc (longOfBytes [a3, a2, a1, a0]), rest)
    | _ => .error .tooShort
  | .reg acc =>
    match bs with
    | a3 :: a2 :: a1 :: a0 :: rest =>
      if inWindow c (longOfBytes [a3, a2, a1, a0]) then .ok (regRow c acc (longOfBytes [a3, a2, a1, a0]), rest)
      else .error .notInWindow
    | _ => .error .tooShort
  | .dmac =>
    match bs with
    | v :: rest => .ok (decodeDmac v, rest)
    | [] => .error .tooShort
  | .hdmac ch =>
    match bs with
    | v3 :: v2 :: v1 :: v0 :: rest => .ok (decodeHdmac ch (longOfBytes [v3, v2, v1, v0]), rest)
    | _ => .error .tooShort
  | .blitf =>
    match bs with
    | v3 :: v2 :: v1 :: v0 :: rest => .ok (decodeBlitf (longOfBytes [v3, v2, v1, v0]), rest)
    | _ => .error .tooShort
  | .rle =>
    match bs with
    | [] => .error .tooShort
    | b :: rest =>
      if rleTwoBytes b then
        match rest with
        | [] => .error .tooShort
        | v :: rest' => .ok (rleInstr (rlePair b v), rest')
      else .ok (rleInstr (.lit b), rest)

/-! ## The encoder -/

/-- A command's place and word, before it is laid out as bytes. -/
inductive Encoding where
  | frame (op : Byte) (addr data : Long)
  | address (acc : ByteAccess) (a : Addr)
  | register (acc : Access) (a : Addr)
  | dmac (v : Byte)
  | hdmac (ch : Fin 8) (v : Long)
  | blitf (v : Long)
  | rle (bs : List Byte)
deriving DecidableEq, Repr

/-- Where a command arrives and the word that stands for it there (R121 to R140). Ignored bits are 0. -/
def encoding (c : Cfg) : Instr → Encoding
  | .rd8 a => .frame 0x00 a 0
  | .rd16 a => .frame 0x01 a 0
  | .rd32 a => .frame 0x02 a 0
  | .wr8 a d => .frame 0x80 a d
  | .wr16 a d => .frame 0x81 a d
  | .wr32 a d => .frame 0x82 a d
  | .line n => .frame 0x40 n 0
  | .hdmaLine n => .frame 0x40 n 0
  | .windowReg acc a => .address acc a
  | .bankRom acc a => .address acc a
  | .bankWram acc a => .address acc a
  | .bankDev acc a => .address acc a
  | .bankNone3 acc a => .address acc a
  | .bankNone4 acc a => .address acc a
  | .bankNone5 acc a => .address acc a
  | .bankNone6 acc a => .address acc a
  | .bankNone7 acc a => .address acc a
  | .bankNone8 acc a => .address acc a
  | .bankNone9 acc a => .address acc a
  | .bankNoneA acc a => .address acc a
  | .bankNoneB acc a => .address acc a
  | .bankNoneC acc a => .address acc a
  | .bankNoneD acc a => .address acc a
  | .bankVram acc a => .address acc a
  | .bankNoneF acc a => .address acc a
  | .screenModeR => .register .rd8 (regAddr c .screenMode)
  | .screenModeW v => .register (.wr8 v) (regAddr c .screenMode)
  | .tilemapSetR => .register .rd8 (regAddr c .tilemapSet)
  | .tilemapSetW v => .register (.wr8 v) (regAddr c .tilemapSet)
  | .tilemapBlendR => .register .rd8 (regAddr c .tilemapBlend)
  | .tilemapBlendW v => .register (.wr8 v) (regAddr c .tilemapBlend)
  | .scrollX0R => .register .rd16 (regAddr c (.scrollX 0))
  | .scrollX0W v => .register (.wr16 v) (regAddr c (.scrollX 0))
  | .scrollY0R => .register .rd16 (regAddr c (.scrollY 0))
  | .scrollY0W v => .register (.wr16 v) (regAddr c (.scrollY 0))
  | .scrollX1R => .register .rd16 (regAddr c (.scrollX 1))
  | .scrollX1W v => .register (.wr16 v) (regAddr c (.scrollX 1))
  | .scrollY1R => .register .rd16 (regAddr c (.scrollY 1))
  | .scrollY1W v => .register (.wr16 v) (regAddr c (.scrollY 1))
  | .scrollX2R => .register .rd16 (regAddr c (.scrollX 2))
  | .scrollX2W v => .register (.wr16 v) (regAddr c (.scrollX 2))
  | .scrollY2R => .register .rd16 (regAddr c (.scrollY 2))
  | .scrollY2W v => .register (.wr16 v) (regAddr c (.scrollY 2))
  | .scrollX3R => .register .rd16 (regAddr c (.scrollX 3))
  | .scrollX3W v => .register (.wr16 v) (regAddr c (.scrollX 3))
  | .scrollY3R => .register .rd16 (regAddr c (.scrollY 3))
  | .scrollY3W v => .register (.wr16 v) (regAddr c (.scrollY 3))
  | .keyscanR => .register .rd8 (regAddr c .keyscan)
  | .keyscanW v => .register (.wr8 v) (regAddr c .keyscan)
  | .joypad0R => .register .rd8 (regAddr c .joypad0)
  | .joypad0W v => .register (.wr8 v) (regAddr c .joypad0)
  | .joypad1R => .register .rd8 (regAddr c .joypad1)
  | .joypad1W v => .register (.wr8 v) (regAddr c .joypad1)
  | .msgOutR => .register .rd32 (regAddr c .msgOut)
  | .msgOutW v => .register (.wr32 v) (regAddr c .msgOut)
  | .ticksR => .register .rd32 (regAddr c .ticks)
  | .ticksW v => .register (.wr32 v) (regAddr c .ticks)
  | .intFlagsR => .register .rd8 (regAddr c .intFlags)
  | .intFlagsW v => .register (.wr8 v) (regAddr c .intFlags)
  | .dmaSrcR => .register .rd32 (regAddr c .dmaSrc)
  | .dmaSrcW v => .register (.wr32 v) (regAddr c .dmaSrc)
  | .dmaDstR => .register .rd32 (regAddr c .dmaDst)
  | .dmaDstW v => .register (.wr32 v) (regAddr c .dmaDst)
  | .dmaLenR => .register .rd32 (regAddr c .dmaLen)
  | .dmaLenW v => .register (.wr32 v) (regAddr c .dmaLen)
  | .dmaCtrlR => .register .rd8 (regAddr c .dmaCtrl)
  | .dmaCtrlW v => .register (.wr8 v) (regAddr c .dmaCtrl)
  | .hdmaCtrl0R => .register .rd32 (regAddr c (.hdmaCtrl 0))
  | .hdmaCtrl0W v => .register (.wr32 v) (regAddr c (.hdmaCtrl 0))
  | .hdmaCtrl1R => .register .rd32 (regAddr c (.hdmaCtrl 1))
  | .hdmaCtrl1W v => .register (.wr32 v) (regAddr c (.hdmaCtrl 1))
  | .hdmaCtrl2R => .register .rd32 (regAddr c (.hdmaCtrl 2))
  | .hdmaCtrl2W v => .register (.wr32 v) (regAddr c (.hdmaCtrl 2))
  | .hdmaCtrl3R => .register .rd32 (regAddr c (.hdmaCtrl 3))
  | .hdmaCtrl3W v => .register (.wr32 v) (regAddr c (.hdmaCtrl 3))
  | .hdmaCtrl4R => .register .rd32 (regAddr c (.hdmaCtrl 4))
  | .hdmaCtrl4W v => .register (.wr32 v) (regAddr c (.hdmaCtrl 4))
  | .hdmaCtrl5R => .register .rd32 (regAddr c (.hdmaCtrl 5))
  | .hdmaCtrl5W v => .register (.wr32 v) (regAddr c (.hdmaCtrl 5))
  | .hdmaCtrl6R => .register .rd32 (regAddr c (.hdmaCtrl 6))
  | .hdmaCtrl6W v => .register (.wr32 v) (regAddr c (.hdmaCtrl 6))
  | .hdmaCtrl7R => .register .rd32 (regAddr c (.hdmaCtrl 7))
  | .hdmaCtrl7W v => .register (.wr32 v) (regAddr c (.hdmaCtrl 7))
  | .hdmaSrc0R => .register .rd32 (regAddr c (.hdmaSrc 0))
  | .hdmaSrc0W v => .register (.wr32 v) (regAddr c (.hdmaSrc 0))
  | .hdmaSrc1R => .register .rd32 (regAddr c (.hdmaSrc 1))
  | .hdmaSrc1W v => .register (.wr32 v) (regAddr c (.hdmaSrc 1))
  | .hdmaSrc2R => .register .rd32 (regAddr c (.hdmaSrc 2))
  | .hdmaSrc2W v => .register (.wr32 v) (regAddr c (.hdmaSrc 2))
  | .hdmaSrc3R => .register .rd32 (regAddr c (.hdmaSrc 3))
  | .hdmaSrc3W v => .register (.wr32 v) (regAddr c (.hdmaSrc 3))
  | .hdmaSrc4R => .register .rd32 (regAddr c (.hdmaSrc 4))
  | .hdmaSrc4W v => .register (.wr32 v) (regAddr c (.hdmaSrc 4))
  | .hdmaSrc5R => .register .rd32 (regAddr c (.hdmaSrc 5))
  | .hdmaSrc5W v => .register (.wr32 v) (regAddr c (.hdmaSrc 5))
  | .hdmaSrc6R => .register .rd32 (regAddr c (.hdmaSrc 6))
  | .hdmaSrc6W v => .register (.wr32 v) (regAddr c (.hdmaSrc 6))
  | .hdmaSrc7R => .register .rd32 (regAddr c (.hdmaSrc 7))
  | .hdmaSrc7W v => .register (.wr32 v) (regAddr c (.hdmaSrc 7))
  | .hdmaDst0R => .register .rd32 (regAddr c (.hdmaDst 0))
  | .hdmaDst0W v => .register (.wr32 v) (regAddr c (.hdmaDst 0))
  | .hdmaDst1R => .register .rd32 (regAddr c (.hdmaDst 1))
  | .hdmaDst1W v => .register (.wr32 v) (regAddr c (.hdmaDst 1))
  | .hdmaDst2R => .register .rd32 (regAddr c (.hdmaDst 2))
  | .hdmaDst2W v => .register (.wr32 v) (regAddr c (.hdmaDst 2))
  | .hdmaDst3R => .register .rd32 (regAddr c (.hdmaDst 3))
  | .hdmaDst3W v => .register (.wr32 v) (regAddr c (.hdmaDst 3))
  | .hdmaDst4R => .register .rd32 (regAddr c (.hdmaDst 4))
  | .hdmaDst4W v => .register (.wr32 v) (regAddr c (.hdmaDst 4))
  | .hdmaDst5R => .register .rd32 (regAddr c (.hdmaDst 5))
  | .hdmaDst5W v => .register (.wr32 v) (regAddr c (.hdmaDst 5))
  | .hdmaDst6R => .register .rd32 (regAddr c (.hdmaDst 6))
  | .hdmaDst6W v => .register (.wr32 v) (regAddr c (.hdmaDst 6))
  | .hdmaDst7R => .register .rd32 (regAddr c (.hdmaDst 7))
  | .hdmaDst7W v => .register (.wr32 v) (regAddr c (.hdmaDst 7))
  | .blitFuncR => .register .rd32 (regAddr c .blitFunc)
  | .blitFuncW v => .register (.wr32 v) (regAddr c .blitFunc)
  | .blitAR => .register .rd32 (regAddr c .blitA)
  | .blitAW v => .register (.wr32 v) (regAddr c .blitA)
  | .blitBR => .register .rd32 (regAddr c .blitB)
  | .blitBW v => .register (.wr32 v) (regAddr c .blitB)
  | .blitLenR => .register .rd32 (regAddr c .blitLen)
  | .blitLenW v => .register (.wr32 v) (regAddr c .blitLen)
  | .blitKeyR => .register .rd32 (regAddr c .blitKey)
  | .blitKeyW v => .register (.wr32 v) (regAddr c .blitKey)
  | .regUnknown acc a => .register acc a
  | .dmaNop => .dmac (dmacWord false 0 false false false)
  | .dmaCopyB s t => .dmac (dmacWord false 0 s t true)
  | .dmaCopyW s t => .dmac (dmacWord false 1 s t true)
  | .dmaCopyL s t => .dmac (dmacWord false 2 s t true)
  | .dmaFillB s t => .dmac (dmacWord true 0 s t true)
  | .dmaFillW s t => .dmac (dmacWord true 1 s t true)
  | .dmaFillL s t => .dmac (dmacWord true 2 s t true)
  | .dmaW3 k s t => .dmac (dmacWord k 3 s t true)
  | .hdmaSet ch en w dbl start count => .hdmac ch (hdmacWord en w dbl start count)
  | .bltNop f skip => .blitf (blitfWord f skip 0)
  | .bltBlit f => .blitf (blitfWord f false 1)
  | .bltBlitS f => .blitf (blitfWord f true 1)
  | .bltSet f => .blitf (blitfWord f false 2)
  | .bltSetS f => .blitf (blitfWord f true 2)
  | .bltInv f => .blitf (blitfWord f false 3)
  | .bltInvS f => .blitf (blitfWord f true 3)
  | .bltRle f skip => .blitf (blitfWord f skip 4)
  | .bltRsvd5 f skip => .blitf (blitfWord f skip 5)
  | .bltRsvd6to7 f skip low => .blitf (blitfWord f skip ((3 : BitVec 3) ++ low))
  | .bltRsvd8to15 f skip low => .blitf (blitfWord f skip ((1 : BitVec 1) ++ low))
  | .rleEnd => .rle [0xC0, 0xC0]
  | .rleRun n v => .rle [(3 : BitVec 2) ++ n, v]
  | .rleLit0 v => .rle [(0 : BitVec 1) ++ v]
  | .rleLit1 v => .rle [(2 : BitVec 2) ++ v]

/-- The context of an encoding. -/
def encodingContext : Encoding → Context
  | .frame _ _ _ => .bus
  | .address acc _ => .addr acc
  | .register acc _ => .reg acc
  | .dmac _ => .dmac
  | .hdmac ch _ => .hdmac ch
  | .blitf _ => .blitf
  | .rle _ => .rle

/-- The bytes of an encoding, most significant first (R121). -/
def encodingBytes : Encoding → List Byte
  | .frame op addr data => op :: (bytesOf .long addr ++ bytesOf .long data)
  | .address _ a => bytesOf .long a
  | .register _ a => bytesOf .long a
  | .dmac v => [v]
  | .hdmac _ v => bytesOf .long v
  | .blitf v => bytesOf .long v
  | .rle bs => bs

/-- Where a command arrives. -/
def contextOf (c : Cfg) (i : Instr) : Context := encodingContext (encoding c i)

/-- The bytes that stand for a command there. -/
def encode (c : Cfg) (i : Instr) : List Byte := encodingBytes (encoding c i)

/-- The BUS frame that delivers a command from the CPU port: itself for a bus operation, the access for an address or
register row, the control write for a control word; a stream code has none (it is read by an RLE run). -/
def deliveringFrame (c : Cfg) : Encoding → List Byte
  | .frame op addr data => encodingBytes (.frame op addr data)
  | .address .read a => encode c (.rd8 a)
  | .address (.write v) a => encode c (.wr8 a (v.setWidth 32))
  | .register .rd8 a => encode c (.rd8 a)
  | .register .rd16 a => encode c (.rd16 a)
  | .register .rd32 a => encode c (.rd32 a)
  | .register (.wr8 v) a => encode c (.wr8 a (v.setWidth 32))
  | .register (.wr16 v) a => encode c (.wr16 a (v.setWidth 32))
  | .register (.wr32 v) a => encode c (.wr32 a v)
  | .dmac v => encode c (.wr8 (regAddr c .dmaCtrl) (v.setWidth 32))
  | .hdmac ch v => encode c (.wr32 (regAddr c (.hdmaCtrl ch)) v)
  | .blitf v => encode c (.wr32 (regAddr c .blitFunc) v)
  | .rle _ => []

/-! ## From one level of the table to the next -/

/-- The row of the next level that a command selects: the decoder row of an 8-bit operation, the register row of an
access in the window, the control word of a control-register write, the HDMA engine's view of a scanline event
(R71, R87, R122, R178, R218, R230, R244). -/
def refine (c : Cfg) : Instr → Option Instr
  | .rd8 a => some (addrRow c .read a)
  | .wr8 a d => some (addrRow c (.write (d.setWidth 8)) a)
  | .rd16 a => if inWindow c a then some (regRow c .rd16 a) else none
  | .rd32 a => if inWindow c a then some (regRow c .rd32 a) else none
  | .wr16 a d => if inWindow c a then some (regRow c (.wr16 (d.setWidth 16)) a) else none
  | .wr32 a d => if inWindow c a then some (regRow c (.wr32 d) a) else none
  | .line n => some (.hdmaLine n)
  | .windowReg .read a => if inWindow c a then some (regRow c .rd8 a) else none
  | .windowReg (.write v) a => if inWindow c a then some (regRow c (.wr8 v) a) else none
  | .dmaCtrlW v => some (decodeDmac v)
  | .blitFuncW v => some (decodeBlitf v)
  | .hdmaCtrl0W v => some (decodeHdmac 0 v)
  | .hdmaCtrl1W v => some (decodeHdmac 1 v)
  | .hdmaCtrl2W v => some (decodeHdmac 2 v)
  | .hdmaCtrl3W v => some (decodeHdmac 3 v)
  | .hdmaCtrl4W v => some (decodeHdmac 4 v)
  | .hdmaCtrl5W v => some (decodeHdmac 5 v)
  | .hdmaCtrl6W v => some (decodeHdmac 6 v)
  | .hdmaCtrl7W v => some (decodeHdmac 7 v)
  | _ => none

/-! ## The words of the opcode table -/

/-- The number `w` of `n` bytes, most significant byte first: the table writes a row as one number (R121, R140). -/
def tableBytes (n w : Nat) : List Byte :=
  match n with
  | 0 => []
  | k + 1 => BitVec.ofNat 8 (w >>> (8 * k)) :: tableBytes k w

/-- The registers that share an address in the table, narrowest first. -/
def tableRegAccess (c : Cfg) (a : Addr) : Option Access :=
  if (selectReg c a .byte).isSome then some .rd8
  else if (selectReg c a .word).isSome then some .rd16
  else if (selectReg c a .long).isSome then some .rd32
  else none

/-- The context a table word is read in. The table's number does not say it, and rows of several formats share their
numbers; this fixes one reading of each. [DESIGN CHOICE: log 10] -/
def tableContext (nbits w : Nat) : Option Context :=
  if nbits = 72 then some .bus
  else if nbits = 32 then
    let a : Addr := BitVec.ofNat 32 w
    if inWindow Cfg.default a then some (.reg ((tableRegAccess Cfg.default a).getD .rd8))
    else if w % 2 ^ 28 = 0 then some (.addr .read)
    else some .blitf
  else if nbits = 16 then some .rle
  else if nbits = 8 then
    if w / 64 = 1 ∨ w / 64 = 2 then some .rle else some .dmac
  else none

/-- The command the decoder reads from the table word `w` of `nbits` bits. -/
def decodeTableWord (nbits w : Nat) : Option Instr :=
  match tableContext nbits w with
  | none => none
  | some ctx =>
    match decode Cfg.default ctx (tableBytes (nbits / 8) w) with
    | .ok (i, _) => some i
    | .error _ => none

end Sys2Proof
end

