-- ==== Sys2Proof/Machine/Mem.lean ====
section
/-! DEFINITION. A memory region as a list of (index, byte) pairs in one canonical form: indices strictly rising, no
listed byte 0. An unlisted index reads 0: the regions are handed over pre-zeroed (10_state.md R21 to R24). -/

namespace Sys2Proof.Machine

/-- A memory region. -/
abbrev Memory := List Host.Cell

/-- The byte at an index; 0 where nothing is listed (R23, "pre-zeroed"). -/
def Memory.read : Memory → Nat → Byte
  | [], _ => 0
  | (k, b) :: m, i => if k = i then b else Memory.read m i

/-- The region with the byte at `i` replaced by `v`, kept canonical: a 0 is stored by listing nothing. -/
def Memory.write : Memory → Nat → Byte → Memory
  | [], i, v => if v = 0 then [] else [(i, v)]
  | (k, b) :: m, i, v =>
    if i < k then (if v = 0 then (k, b) :: m else (i, v) :: (k, b) :: m)
    else if i = k then (if v = 0 then m else (i, v) :: m)
    else (k, b) :: Memory.write m i v

/-- The region with `n` consecutive bytes from `o` on replaced by `v`, in ascending order (R266). -/
def Memory.fill (m : Memory) (o : Nat) (v : Byte) : Nat → Memory
  | 0 => m
  | n + 1 => Memory.write (Memory.fill m o v n) (o + n) v

/-- Every listed index is at least `lo`, indices rise strictly, no listed byte is 0. -/
def Memory.wfFrom : Nat → Memory → Bool
  | _, [] => true
  | lo, (k, b) :: m => decide (lo ≤ k) && decide (b ≠ 0) && Memory.wfFrom (k + 1) m

/-- The canonical form. -/
def Memory.wf (m : Memory) : Bool := Memory.wfFrom 0 m

/-- Every listed index lies below the region's size. -/
def Memory.within (size : Nat) (m : Memory) : Bool := m.all fun cell => decide (cell.1 < size)

end Sys2Proof.Machine
end

