-- ==== Sys2Proof/Machine/State.lean ====
section
/-! DEFINITION. The state of the block (10_state.md R20), its reset values (R67), the reasons a step can stop, and the
named record updates. -/

namespace Sys2Proof.Machine

/-! ## Memory regions (R21 to R24) -/

/-- The four regions. -/
structure Memories where
  /-- `BootROM` (R21). -/
  boot : Memory
  /-- `CartROM` (R22). -/
  cart : Memory
  /-- `WRAM` (R23). -/
  wram : Memory
  /-- `VRAM` (R24). -/
  vram : Memory
deriving DecidableEq, Repr

/-! ## Registers (R25 to R45) -/

/-- The display registers, as the fields the spec gives them (R31 to R34). -/
structure Display where
  mode : BitVec 4
  f5 : Bool
  f6 : Bool
  f7 : Bool
  shift0 : BitVec 2
  shift1 : BitVec 2
  en0 : Bool
  en1 : Bool
  blend : Vector (BitVec 2) 4
  scrollX : Vector (BitVec 9) 4
  scrollY : Vector (BitVec 9) 4
deriving DecidableEq, Repr

/-- Input, flags and counter (R35 to R38). -/
structure IoRegs where
  /-- The cached scan code, seen only through the polling read (R38). -/
  keyscan : Byte
  joypad0 : Byte
  joypad1 : Byte
  /-- A plain scalar that only bus writes change (R27, R36). -/
  intFlags : Byte
  /-- Nothing in the block increments it (R35). -/
  ticks : Long
deriving DecidableEq, Repr

/-- The DMA operand registers (R25, R40). -/
structure DmaRegs where
  src : Long
  dst : Long
  len : Long
deriving DecidableEq, Repr

/-- The blitter operand registers (R25, R43). -/
structure BlitRegs where
  a : Long
  b : Long
  len : Long
  key : Long
deriving DecidableEq, Repr

/-- An HDMA channel (R45). -/
structure HdmaChannel where
  en : Bool
  dbl : Bool
  width : BitVec 2
  start : BitVec 10
  count : BitVec 10
  src : Long
  dst : Long
deriving DecidableEq, Repr

/-! ## Latches and the activation stack (R47, R48, R52) -/

/-- The DMA activation latch (R47); `w <- 2` of R260 is already applied to the width. -/
structure DmaLatch where
  srcInc : Bool
  dstInc : Bool
  const : Bool
  width : Width
deriving DecidableEq, Repr

/-- The functions that move units (R310); `FUNC` = 4 is `Activation.rle`. -/
inductive BlitOp where
  | blit
  | set
  | invert
deriving DecidableEq, Repr

/-- The blitter activation latch (R48), less `FUNC`, which the activation's form carries. The key is not latched. -/
structure BlitLatch where
  skip : Bool
  keyEn : Bool
  width : Width
  srcStride : BitVec 12
  dstStride : BitVec 12
deriving DecidableEq, Repr

/-- Where a Blit, Set or Invert activation stands in its loops (R320 to R336). -/
inductive BlitPlace where
  /-- At the loop test on `BLIT_LEN`: of the only loop, or of the outer one under stride-skip. -/
  | test
  /-- At the inner test of a pass that has moved `i` units. -/
  | pass (i : Nat)
  /-- The unit `i` of a pass is read and written; the registers are not yet updated. -/
  | moved (i : Nat)
deriving DecidableEq, Repr

/-- An entry of the activation stack: a latch and its place in its loop (R52), or work of the bus or of a scanline
event that waits for an engine to finish. [DEDUCED, the last two: log 14] -/
inductive Activation where
  /-- A DMA transfer on the general path; `moved` when a unit is written and the registers are not yet updated (R264). -/
  | dma (latch : DmaLatch) (moved : Bool)
  | blit (op : BlitOp) (latch : BlitLatch) (place : BlitPlace)
  /-- An RLE run at its loop test (R340). -/
  | rle (latch : BlitLatch)
  /-- The output of one RLE code: `left` bytes of `v` still to write; `wrote` when a byte is written and `BLIT_B`
  is not yet advanced. -/
  | rleOut (left : Nat) (v : Byte) (wrote : Bool)
  /-- The bytes of a composed write not yet written, from `a` on (R173, R175). -/
  | bytes (a : Addr) (rest : List Byte)
  /-- A scanline event whose next channel to serve is `next` (R292). -/
  | hdma (line : Nat) (next : Nat)
deriving DecidableEq, Repr

/-! ## Ports (R60 to R64) -/

/-- A call the block makes on a port. -/
inductive PortEvent where
  /-- `emit Out(v)` (R64). -/
  | out (v : Long)
  /-- `Poll()` (R63). -/
  | poll
  /-- `Dev[slot].Read(off)` (R62). -/
  | devRead (slot off : Nat)
  /-- `Dev[slot].Write(off, v)` (R62). -/
  | devWrite (slot off : Nat) (v : Byte)
deriving DecidableEq, Repr

/-- What stands at the block's ports: the model's own fields. [log 2, 6, 7, 8] -/
structure Ports where
  /-- BUS frames waiting to be accepted, as bytes (R60, R61, R121). -/
  requests : List Byte
  /-- The value the last read answered, zero-extended (R60). -/
  result : Long
  /-- The calls made so far, newest first. -/
  events : List PortEvent
  /-- The scan codes the poller will answer next (R63). -/
  pollAnswers : List Byte
  /-- The values devices will answer next (R62). -/
  devAnswers : List Nat
  /-- How many answers were drawn beyond those lists. -/
  draws : Nat
deriving DecidableEq, Repr

/-! ## The state -/

/-- The complete state (R20). -/
structure State where
  /-- The configuration, with the device table of R50: a parameter no step changes. [log 4] -/
  cfg : Cfg
  /-- `PROVISIONED` (R53). -/
  provisioned : Bool
  mem : Memories
  display : Display
  io : IoRegs
  dma : DmaRegs
  blit : BlitRegs
  hdma : Vector HdmaChannel 8
  /-- The engine activations in progress, innermost first (R52). -/
  stack : List Activation
  port : Ports
deriving DecidableEq, Repr

/-- The block raises no fault: "There is no recoverable-error taxonomy in this subsystem" (R370), so this closed
inductive has no constructor. -/
inductive Fault
deriving DecidableEq, Repr

/-- Why a request is not accepted. -/
inductive Refusal where
  /-- Raised by an arm of `exec` for an instruction without a meaning. Safe: no state follows. -/
  | notModelled (mnemonic : String)
  /-- Raised by every command of a block whose provisioning failed (R371: "the model refuses every request"). Safe. -/
  | notProvisioned
  /-- Raised by `step` when the waiting bytes are no BUS transaction (R150: "the model refuses the script"). Safe. -/
  | notATransaction
deriving DecidableEq, Repr

/-- A disabled channel with every field 0 (R45). -/
def HdmaChannel.zero : HdmaChannel where
  en := false
  dbl := false
  width := 0
  start := 0
  count := 0
  src := 0
  dst := 0

/-- The provisioning step (R66, R400): given ROM images and whether all four regions could be supplied. On failure
`PROVISIONED` stays clear and nothing else matters. -/
def State.provision (supplied : Bool) (c : Cfg) (bootImage cartImage : Memory) : State where
  cfg := c
  provisioned := supplied
  mem := { boot := bootImage, cart := cartImage, wram := [], vram := [] }
  display := {
    mode := 0, f5 := false, f6 := false, f7 := false, shift0 := 0, shift1 := 0, en0 := false, en1 := false
    blend := Vector.replicate 4 0, scrollX := Vector.replicate 4 0, scrollY := Vector.replicate 4 0 }
  io := { keyscan := 0, joypad0 := 0, joypad1 := 0, intFlags := 0, ticks := 0 }
  dma := { src := 0, dst := 0, len := 0 }
  blit := { a := 0, b := 0, len := 0, key := 0 }
  hdma := Vector.replicate 8 HdmaChannel.zero
  stack := []
  port := { requests := [], result := 0, events := [], pollAnswers := [], devAnswers := [], draws := 0 }

/-- The machine right after a successful reset with nothing loaded (R67, R401, R402). -/
def State.reset : State := State.provision true Cfg.default [] []

/-! ## Record updates -/

/-- Replace the memories. -/
def State.withMem (s : State) (m : Memories) : State := { s with mem := m }
/-- Replace the display registers. -/
def State.withDisplay (s : State) (d : Display) : State := { s with display := d }
/-- Replace the input, flag and counter registers. -/
def State.withIo (s : State) (r : IoRegs) : State := { s with io := r }
/-- Replace the DMA operand registers. -/
def State.withDma (s : State) (r : DmaRegs) : State := { s with dma := r }
/-- Replace the blitter operand registers. -/
def State.withBlit (s : State) (r : BlitRegs) : State := { s with blit := r }
/-- Replace the HDMA channels. -/
def State.withHdma (s : State) (h : Vector HdmaChannel 8) : State := { s with hdma := h }
/-- Replace the activation stack. -/
def State.withStack (s : State) (k : List Activation) : State := { s with stack := k }
/-- Replace what stands at the ports. -/
def State.withPort (s : State) (p : Ports) : State := { s with port := p }

end Sys2Proof.Machine
end

