-- ==== Sys2Proof/Machine/Flags.lean ====
section
/-! DEFINITION. The bit-packed registers (30_encoding.md R131 to R134). The block has no condition codes: no operation
sets a status flag (10_state.md R27), so the flags computed here are the stored bits of the display registers. -/

namespace Sys2Proof.Machine

/-- `R.F7 ++ R.F6 ++ R.F5 ++ 0 ++ R.MODE` (R200). -/
def screenModeByte (d : Display) : Byte :=
  BitVec.ofBool d.f7 ++ BitVec.ofBool d.f6 ++ BitVec.ofBool d.f5 ++ (0 : BitVec 1) ++ d.mode

/-- `MODE`, `F5`, `F6`, `F7` from a byte; bit 4 is discarded (R201). -/
def setScreenMode (v : Byte) (d : Display) : Display :=
  { d with mode := v.extractLsb' 0 4, f5 := v.getLsbD 5, f6 := v.getLsbD 6, f7 := v.getLsbD 7 }

/-- `R.EN1 ++ R.EN0 ++ 00 ++ R.SHIFT1 ++ R.SHIFT0` (R202). -/
def tilemapSetByte (d : Display) : Byte :=
  BitVec.ofBool d.en1 ++ BitVec.ofBool d.en0 ++ (0 : BitVec 2) ++ d.shift1 ++ d.shift0

/-- `SHIFT0`, `SHIFT1`, `EN0`, `EN1` from a byte; bits 5:4 are discarded (R203). -/
def setTilemapSet (v : Byte) (d : Display) : Display :=
  { d with shift0 := v.extractLsb' 0 2, shift1 := v.extractLsb' 2 2, en0 := v.getLsbD 6, en1 := v.getLsbD 7 }

/-- Bit i is `BLEND[i][0]`, bit 4+i is `BLEND[i][1]` (R204). -/
def tilemapBlendByte (d : Display) : Byte :=
  d.blend[3].extractLsb' 1 1 ++ d.blend[2].extractLsb' 1 1 ++ d.blend[1].extractLsb' 1 1 ++ d.blend[0].extractLsb' 1 1 ++
  d.blend[3].extractLsb' 0 1 ++ d.blend[2].extractLsb' 0 1 ++ d.blend[1].extractLsb' 0 1 ++ d.blend[0].extractLsb' 0 1

/-- `BLEND[i] <- v[4+i] ++ v[i]` (R205). -/
def blendOf (v : Byte) (i : Nat) : BitVec 2 := v.extractLsb' (4 + i) 1 ++ v.extractLsb' i 1

/-- The four `BLEND` fields from a byte (R205). -/
def setTilemapBlend (v : Byte) (d : Display) : Display :=
  { d with blend := #v[blendOf v 0, blendOf v 1, blendOf v 2, blendOf v 3] }

/-- `R.SCROLLX[i] <- v[8:0]` (R207). -/
def setScrollX (i : Fin 4) (v : Long) (d : Display) : Display := { d with scrollX := d.scrollX.set i (v.setWidth 9) }

/-- `R.SCROLLY[i] <- v[8:0]` (R209). -/
def setScrollY (i : Fin 4) (v : Long) (d : Display) : Display := { d with scrollY := d.scrollY.set i (v.setWidth 9) }

end Sys2Proof.Machine
end

