-- ==== Sys2Proof/Machine/Ops.lean ====
section
/-! DEFINITION. The named operations over memory and registers: the ports, the regions, the register file, the full bus
accesses `MemRead` and `MemWrite` used by the CPU port and the engines alike (00_scope.md R12), and the arming of the
engines. The block takes no exception (60_exceptions.md R370, R374), so there is no exception entry or return here. -/

namespace Sys2Proof.Machine

/-! ## Ports -/

/-- A port call is made. [log 8] -/
def emit (e : PortEvent) (s : State) : State := s.withPort { s.port with events := e :: s.port.events }

/-- The CPU port answers a read (R60). -/
def answer (v : Long) (s : State) : State := s.withPort { s.port with result := v }

/-- `Poll()`: the next listed answer, or a free value (R63). [log 7] -/
def poll (s : State) : Byte × State :=
  match s.port.pollAnswers with
  | v :: vs => (v, s.withPort { s.port with pollAnswers := vs, events := .poll :: s.port.events })
  | [] =>
    (Config.freePoll s.port.draws,
      s.withPort { s.port with draws := s.port.draws + 1, events := .poll :: s.port.events })

/-- `trunc_8(Dev[slot].Read(off))`: the next listed answer, or a free value (R62, R77). [log 7] -/
def devRead (slot off : Nat) (s : State) : Byte × State :=
  match s.port.devAnswers with
  | v :: vs => (BitVec.ofNat 8 v, s.withPort { s.port with devAnswers := vs, events := .devRead slot off :: s.port.events })
  | [] =>
    (BitVec.ofNat 8 (Config.freeDevValue slot off s.port.draws),
      s.withPort { s.port with draws := s.port.draws + 1, events := .devRead slot off :: s.port.events })

/-- `Dev[slot].Write(off, v)` (R62, R77). -/
def devWrite (slot off : Nat) (v : Byte) (s : State) : State := emit (.devWrite slot off v) s

/-! ## The regions, byte by byte (R73 to R79) -/

/-- What a bank selects (R73). -/
inductive Region where
  | rom
  | wram
  | dev
  | vram
  | unmapped
deriving DecidableEq, Repr

/-- The bank table (R73). -/
def regionOf (b : BitVec 4) : Region :=
  if b = 0x0 then .rom
  else if b = 0x1 then .wram
  else if b = 0x2 then .dev
  else if b = 0xE then .vram
  else .unmapped

/-- A ROM byte at bank offset `o`: boot ROM first, then cartridge ROM, then the gap (R74). -/
def romRead (o : Nat) (s : State) : Byte :=
  if o < s.cfg.bootSize then s.mem.boot.read (o &&& (s.cfg.bootSize - 1))
  else if s.cfg.cartBase ≤ o then s.mem.cart.read ((o - s.cfg.cartBase) &&& (s.cfg.cartSize - 1))
  else 0

/-- A working-RAM byte; offsets beyond the size read a mirror (R75). -/
def wramRead (o : Nat) (s : State) : Byte := s.mem.wram.read (o &&& (s.cfg.wramSize - 1))

/-- A working-RAM write; offsets beyond the size are ignored (R76). -/
def wramWrite (o : Nat) (v : Byte) (s : State) : State :=
  if o < s.cfg.wramSize then s.withMem { s.mem with wram := s.mem.wram.write o v } else s

/-- The video-RAM index of a bank offset (R79). -/
def vramIndex (o : Nat) (s : State) : Nat := o &&& s.cfg.vramWinMask

/-- A video-RAM byte; 0 beyond the size (R79). -/
def vramRead (o : Nat) (s : State) : Byte :=
  if vramIndex o s < s.cfg.vramSize then s.mem.vram.read (vramIndex o s) else 0

/-- A video-RAM write; ignored beyond the size (R79). -/
def vramWrite (o : Nat) (v : Byte) (s : State) : State :=
  if vramIndex o s < s.cfg.vramSize then s.withMem { s.mem with vram := s.mem.vram.write (vramIndex o s) v } else s

/-- The slot and the offset within it, when a device answers there (R77). -/
def devHit (c : Cfg) (o : Nat) : Option (Nat × Nat) :=
  if h : o / c.devBlock < 16 then
    if c.dev[o / c.devBlock] then some (o / c.devBlock, o % c.devBlock) else none
  else none

/-- A byte read in the device window (R77). -/
def devWindowRead (o : Nat) (s : State) : Byte × State :=
  match devHit s.cfg o with
  | some (slot, r) => devRead slot r s
  | none => (0, s)

/-- A byte write in the device window (R77). -/
def devWindowWrite (o : Nat) (v : Byte) (s : State) : State :=
  match devHit s.cfg o with
  | some (slot, r) => devWrite slot r v s
  | none => s

/-- A byte read of a region at bank offset `o` (R73). -/
def regionRead (g : Region) (o : Nat) (s : State) : Byte × State :=
  match g with
  | .rom => (romRead o s, s)
  | .wram => (wramRead o s, s)
  | .dev => devWindowRead o s
  | .vram => (vramRead o s, s)
  | .unmapped => (0, s)

/-- A byte write of a region at bank offset `o` (R73); ROM writes are dropped (R78). -/
def regionWrite (g : Region) (o : Nat) (v : Byte) (s : State) : State :=
  match g with
  | .rom => s
  | .wram => wramWrite o v s
  | .dev => devWindowWrite o v s
  | .vram => vramWrite o v s
  | .unmapped => s

/-! ## Arming the engines -/

/-- A new activation on the stack (R52). -/
def push (k : Activation) (s : State) : State := s.withStack (k :: s.stack)

/-- A pointer after a transfer of `n` units of `step` bytes, advanced when its increment flag is set (R264, R266). -/
def advance (inc : Bool) (p : Long) (bytes : Nat) : Long := if inc then p + BitVec.ofNat 32 bytes else p

/-- The bytes of a fast fill that fall inside working RAM: those `i` below `N` with `o + i < WRAM_SIZE` (R266). -/
def fillCount (s : State) : Nat := min s.dma.len.toNat (s.cfg.wramSize - offOf s.dma.dst)

/-- `DmaFastFill` (R266). -/
def dmaFastFill (srcInc dstInc : Bool) (s : State) : State :=
  let n := s.dma.len.toNat
  (s.withMem { s.mem with wram := s.mem.wram.fill (offOf s.dma.dst) (s.dma.src.setWidth 8) (fillCount s) }).withDma
    { src := advance srcInc s.dma.src (4 * n), dst := advance dstInc s.dma.dst (4 * n), len := 0 }

/-- The fast-path test of R260: constant mode, long width, target in the working-RAM bank and not in the window. -/
def fastPath (const : Bool) (w : Width) (s : State) : Bool :=
  const && decide (w = .long) && decide (bankOf s.cfg s.dma.dst = 1) && !inWindow s.cfg s.dma.dst

/-- A DMA control word with `START` set (R260): the fast path at once, or a transfer on the stack. -/
def dmaStart (const : Bool) (code : BitVec 2) (srcInc dstInc : Bool) (s : State) : State :=
  match widthOf s.cfg code with
  | none => s
  | some w =>
    if fastPath const w s then dmaFastFill srcInc dstInc s
    else push (.dma { srcInc := srcInc, dstInc := dstInc, const := const, width := w } false) s

/-- `DmaArm(v)` (R260, R261). -/
def dmaArm (v : Byte) (s : State) : State :=
  if dmacStart v then dmaStart (dmacConst v) (dmacWidth v) (dmacSrcInc v) (dmacDstInc v) s else s

/-- The latch of a blitter word (R48). -/
def blitLatch (f : BlitFields) (skip : Bool) (w : Width) : BlitLatch where
  skip := skip
  keyEn := f.keyEn
  width := w
  srcStride := f.srcStride
  dstStride := f.dstStride

/-- Blit, Set or Invert is armed (R310). -/
def blitStart (op : BlitOp) (f : BlitFields) (skip : Bool) (s : State) : State :=
  match widthOf s.cfg f.width with
  | none => s
  | some w => push (.blit op (blitLatch f skip w) .test) s

/-- RLE decompression is armed; the shared decode's width test applies to it too (R310, R127). -/
def rleStart (f : BlitFields) (skip : Bool) (s : State) : State :=
  match widthOf s.cfg f.width with
  | none => s
  | some w => push (.rle (blitLatch f skip w)) s

/-- `BlitArm(v)` (R310): `FUNC` = 0 and the reserved codes do nothing (R311, R312). -/
def blitArm (v : Long) (s : State) : State :=
  if blitfFunc v = 1 then blitStart .blit (blitfFields v) (blitfSkip v) s
  else if blitfFunc v = 2 then blitStart .set (blitfFields v) (blitfSkip v) s
  else if blitfFunc v = 3 then blitStart .invert (blitfFields v) (blitfSkip v) s
  else if blitfFunc v = 4 then rleStart (blitfFields v) (blitfSkip v) s
  else s

/-! ## The register file (41_register_file.md) -/

/-- The fields of an HDMA control word stored into channel `ch`; `SRC` and `DST` are not touched (R230). -/
def hdmaSetCtrl (ch : Fin 8) (en : Bool) (w : BitVec 2) (dbl : Bool) (start count : BitVec 10) (s : State) : State :=
  s.withHdma (s.hdma.set ch { s.hdma[ch] with en := en, width := w, dbl := dbl, start := start, count := count })

/-- The read of `KEYSCAN`: poll, cache, answer (R210). -/
def keyscanRead (s : State) : Byte × State :=
  let (v, s1) := poll s
  (v, s1.withIo { s1.io with keyscan := v })

/-- What a read of a register answers, zero-extended to 32 bits (R200 to R244). Write-only registers answer 0. -/
def regRead (r : Reg) (s : State) : Long × State :=
  match r with
  | .screenMode => ((screenModeByte s.display).setWidth 32, s)
  | .tilemapSet => ((tilemapSetByte s.display).setWidth 32, s)
  | .tilemapBlend => ((tilemapBlendByte s.display).setWidth 32, s)
  | .scrollX i => (s.display.scrollX[i].setWidth 32, s)
  | .scrollY i => (s.display.scrollY[i].setWidth 32, s)
  | .keyscan => ((keyscanRead s).1.setWidth 32, (keyscanRead s).2)
  | .joypad0 => (s.io.joypad0.setWidth 32, s)
  | .joypad1 => (s.io.joypad1.setWidth 32, s)
  | .msgOut => (0, s)
  | .ticks => (s.io.ticks, s)
  | .intFlags => (s.io.intFlags.setWidth 32, s)
  | .dmaSrc => (s.dma.src, s)
  | .dmaDst => (s.dma.dst, s)
  | .dmaLen => (s.dma.len, s)
  | .dmaCtrl => (0, s)
  | .hdmaCtrl _ => (0, s)
  | .hdmaSrc _ => (0, s)
  | .hdmaDst _ => (0, s)
  | .blitFunc => (0, s)
  | .blitA => (s.blit.a, s)
  | .blitB => (s.blit.b, s)
  | .blitLen => (s.blit.len, s)
  | .blitKey => (s.blit.key, s)

/-- What a write of a register does; `v` holds the value in its low bits (R201 to R244). -/
def regWrite (r : Reg) (v : Long) (s : State) : State :=
  match r with
  | .screenMode => s.withDisplay (setScreenMode (v.setWidth 8) s.display)
  | .tilemapSet => s.withDisplay (setTilemapSet (v.setWidth 8) s.display)
  | .tilemapBlend => s.withDisplay (setTilemapBlend (v.setWidth 8) s.display)
  | .scrollX i => s.withDisplay (setScrollX i v s.display)
  | .scrollY i => s.withDisplay (setScrollY i v s.display)
  | .keyscan => s
  | .joypad0 => s.withIo { s.io with joypad0 := v.setWidth 8 }
  | .joypad1 => s.withIo { s.io with joypad1 := v.setWidth 8 }
  | .msgOut => emit (.out v) s
  | .ticks => s.withIo { s.io with ticks := v }
  | .intFlags => s.withIo { s.io with intFlags := v.setWidth 8 }
  | .dmaSrc => s.withDma { s.dma with src := v }
  | .dmaDst => s.withDma { s.dma with dst := v }
  | .dmaLen => s.withDma { s.dma with len := v }
  | .dmaCtrl => dmaArm (v.setWidth 8) s
  | .hdmaCtrl ch => hdmaSetCtrl ch (hdmacEn v) (hdmacWidth v) (hdmacDbl v) (hdmacStart v) (hdmacCount v) s
  | .hdmaSrc ch => s.withHdma (s.hdma.set ch { s.hdma[ch] with src := v })
  | .hdmaDst ch => s.withHdma (s.hdma.set ch { s.hdma[ch] with dst := v })
  | .blitFunc => blitArm v s
  | .blitA => s.withBlit { s.blit with a := v }
  | .blitB => s.withBlit { s.blit with b := v }
  | .blitLen => s.withBlit { s.blit with len := v }
  | .blitKey => s.withBlit { s.blit with key := v }

/-! ## Full bus accesses (40_bus_access.md) -/

/-- The register window at byte width: the 8-bit register if there is one, else 0 (R80). -/
def windowRead (a : Addr) (s : State) : Byte × State :=
  match regAt s.cfg (roffOf s.cfg a) .byte with
  | some r => ((regRead r s).1.setWidth 8, (regRead r s).2)
  | none => (0, s)

/-- The register window at byte width: the 8-bit register if there is one, else nothing (R80). -/
def windowWrite (a : Addr) (v : Byte) (s : State) : State :=
  match regAt s.cfg (roffOf s.cfg a) .byte with
  | some r => regWrite r (v.setWidth 32) s
  | none => s

/-- `ByteRead(a)` (R71, R176): the window first, else the bank. -/
def byteRead (a : Addr) (s : State) : Byte × State :=
  if inWindow s.cfg a then windowRead a s else regionRead (regionOf (bankOf s.cfg a)) (offOf a) s

/-- `ByteWrite(a, v)` (R71, R176). -/
def byteWrite (a : Addr) (v : Byte) (s : State) : State :=
  if inWindow s.cfg a then windowWrite a v s else regionWrite (regionOf (bankOf s.cfg a)) (offOf a) v s

/-- The native wide register of an access, if it has one (R87, R177). -/
def nativeReg (c : Cfg) (a : Addr) (w : Width) : Option Reg :=
  match w with
  | .byte => none
  | .word => selectReg c a .word
  | .long => selectReg c a .long

/-- `n` byte reads in ascending address order, composed below the bytes read so far, most significant first
(R172, R174). -/
def readBytes : Nat → Addr → Long → State → Long × State
  | 0, _, acc, s => (acc, s)
  | n + 1, a, acc, s => readBytes n (a + 1) (appendByte acc (byteRead a s).1) (byteRead a s).2

/-- A byte write at `a` may arm the DMA engine. -/
def hitsDmaCtrl (c : Cfg) (a : Addr) : Bool := decide (selectReg c a .byte = some .dmaCtrl)

/-- Byte writes in ascending address order, each with all its effects before the next (R173, R175): after a byte that
may arm the DMA engine, the remaining bytes, if any, wait on the stack until the engine has finished. [log 14] -/
def writeBytes : Addr → List Byte → State → State
  | _, [], s => s
  | a, v :: vs, s =>
    if hitsDmaCtrl s.cfg a && !vs.isEmpty then byteWrite a v (push (.bytes (a + 1) vs) s)
    else writeBytes (a + 1) vs (byteWrite a v s)

/-- `MemRead(a, step)` (R170, R172, R174), zero-extended. -/
def busRead (w : Width) (a : Addr) (s : State) : Long × State :=
  match nativeReg s.cfg a w with
  | some r => regRead r s
  | none => readBytes w.step a 0 s

/-- `MemWrite(a, step, v)` (R171, R173, R175): only the low `8*step` bits of `v` are used. -/
def busWrite (w : Width) (a : Addr) (v : Long) (s : State) : State :=
  match nativeReg s.cfg a w with
  | some r => regWrite r (truncTo w v) s
  | none => writeBytes a (bytesOf w v) s

end Sys2Proof.Machine
end

