-- ==== Sys2Proof/Machine/Engines.lean ====
section
/-! DEFINITION. The engines, one micro-step at a time: each `…Tick` performs the next piece of the activation on top of
the stack, so that a nested command finishes before the activation below it goes on (10_state.md R52), and a run that
never ends is an infinite sequence of micro-steps (60_exceptions.md R376). -/

namespace Sys2Proof.Machine

/-! ## DMA, the general path (R264) -/

/-- The registers after one unit: length, source, target, in that order (R264). -/
def dmaUpdate (l : DmaLatch) (s : State) : State :=
  s.withDma {
    len := s.dma.len - 1
    src := advance l.srcInc s.dma.src l.width.step
    dst := advance l.dstInc s.dma.dst l.width.step }

/-- The datum of one unit: the value of `DMA_SRC` in constant mode, else a read at that address (R264). -/
def dmaDatum (l : DmaLatch) (s : State) : Long × State :=
  if l.const then (s.dma.src, s) else busRead l.width s.dma.src s

/-- One micro-step of a transfer; `rest` is the stack below it. -/
def dmaTick (l : DmaLatch) (moved : Bool) (rest : List Activation) (s : State) : State :=
  if moved then (dmaUpdate l s).withStack (.dma l false :: rest)
  else if s.dma.len = 0 then s.withStack rest
  else
    let (d, s1) := dmaDatum l s
    busWrite l.width s1.dma.dst d (s1.withStack (.dma l true :: rest))

/-! ## Blit, Set, Invert (R320 to R336) -/

/-- The width of one unit: Invert works in bytes whatever the width code (R335, R336). -/
def unitWidth (op : BlitOp) (l : BlitLatch) : Width :=
  match op with
  | .invert => .byte
  | .blit => l.width
  | .set => l.width

/-- The accesses of one unit (R320, R330, R331, R335): exactly one read, whose value is tested and written; a colour-key
match writes nothing. -/
def blitMove (op : BlitOp) (l : BlitLatch) (s : State) : State :=
  match op with
  | .blit =>
    let (d, s1) := busRead l.width s.blit.a s
    if l.keyEn && decide (d = s1.blit.key) then s1 else busWrite l.width s1.blit.b d s1
  | .set =>
    if l.skip then busWrite l.width s.blit.b s.blit.a s
    else
      let (d, s1) := busRead l.width s.blit.b s
      busWrite l.width s1.blit.b d s1
  | .invert =>
    let (d, s1) := busRead .byte s.blit.b s
    busWrite .byte s1.blit.b (~~~d) s1

/-- The registers after one unit: Blit advances both addresses, Set and Invert only `BLIT_B` (R320, R330, R335). -/
def blitUpdate (op : BlitOp) (l : BlitLatch) (s : State) : State :=
  s.withBlit {
    a := advance (decide (op = .blit)) s.blit.a (unitWidth op l).step
    b := s.blit.b + BitVec.ofNat 32 (unitWidth op l).step
    len := s.blit.len - 1
    key := s.blit.key }

/-- The jump of `BLIT_B` after a pass (R313, R321). -/
def blitJump (op : BlitOp) (l : BlitLatch) (s : State) : State :=
  s.withBlit { s.blit with b := s.blit.b + strideJump l.dstStride l.srcStride (unitWidth op l).step }

/-- One micro-step of Blit, Set or Invert. -/
def blitTick (op : BlitOp) (l : BlitLatch) (place : BlitPlace) (rest : List Activation) (s : State) : State :=
  match place with
  | .test =>
    if s.blit.len = 0 then s.withStack rest
    else if l.skip then s.withStack (.blit op l (.pass 0) :: rest)
    else blitMove op l (s.withStack (.blit op l (.moved 0) :: rest))
  | .pass i =>
    if i < l.srcStride.toNat ∧ s.blit.len ≠ 0 then blitMove op l (s.withStack (.blit op l (.moved i) :: rest))
    else (blitJump op l s).withStack (.blit op l .test :: rest)
  | .moved i =>
    (blitUpdate op l s).withStack (.blit op l (if l.skip then .pass (i + 1) else .test) :: rest)

/-! ## RLE (R340 to R343) -/

/-- The next code of the stream, read through `BLIT_A` with the reads' side effects: one byte, and a second where the
first asks for it, whatever the budget says (R340, R343). -/
def rleFetch (s : State) : RleCode × State :=
  let (c, s1) := busRead .byte s.blit.a s
  if rleTwoBytes (c.setWidth 8) then
    let (v, s2) := busRead .byte (s1.blit.a + 1) s1
    (rlePair (c.setWidth 8) (v.setWidth 8), s2)
  else (.lit (c.setWidth 8), s1)

/-- `n` stream bytes are consumed: `BLIT_A` and `BLIT_LEN` move, modulo 2^32 (R340, R343). -/
def rleConsume (n : Nat) (s : State) : State :=
  s.withBlit { s.blit with a := s.blit.a + BitVec.ofNat 32 n, len := s.blit.len - BitVec.ofNat 32 n }

/-- END stops the RLE run on top of the stack (R342). [DEDUCED: log 11] -/
def rleStop (s : State) : State :=
  match s.stack with
  | .rle _ :: rest => s.withStack rest
  | _ => s

/-- What a code does: its bytes are consumed, and its output waits on the stack, or the run stops (R340 to R342). -/
def rleEffect (code : RleCode) (s : State) : State :=
  match code with
  | .stop => rleStop (rleConsume 2 s)
  | .run n v => push (.rleOut n.toNat v false) (rleConsume 2 s)
  | .lit v => push (.rleOut 1 v false) (rleConsume 1 s)

/-- One micro-step of an RLE run at its loop test. -/
def rleTick (rest : List Activation) (s : State) : State :=
  if s.blit.len = 0 then s.withStack rest
  else
    let (code, s1) := rleFetch s
    rleEffect code s1

/-- One micro-step of a code's output: write a byte, then advance `BLIT_B` (R340). -/
def rleOutTick (left : Nat) (v : Byte) (wrote : Bool) (rest : List Activation) (s : State) : State :=
  if wrote then (s.withBlit { s.blit with b := s.blit.b + 1 }).withStack (.rleOut left v false :: rest)
  else
    match left with
    | 0 => s.withStack rest
    | n + 1 => busWrite .byte s.blit.b (v.setWidth 32) (s.withStack (.rleOut n v true :: rest))

/-! ## HDMA (R292, R293) -/

/-- The channel-local line index, halved under double rate (R293, R294). -/
def hdmaIndex (h : HdmaChannel) (n : Nat) : Nat := if h.dbl then (n - h.start.toNat) / 2 else n - h.start.toNat

/-- The channel transfers on line `n`: enabled, and `START <= n < START + COUNT` as natural numbers (R293). -/
def hdmaActive (h : HdmaChannel) (n : Nat) : Bool :=
  h.en && decide (h.start.toNat ≤ n) && decide (n < h.start.toNat + h.count.toNat)

/-- `HdmaChannel(c, n)` (R293): at most one unit, from the indexed source to the fixed target. -/
def hdmaServe (h : HdmaChannel) (n : Nat) (s : State) : State :=
  if hdmaActive h n then
    match widthOf s.cfg h.width with
    | none => s
    | some w =>
      let (d, s1) := busRead w (h.src + BitVec.ofNat 32 (hdmaIndex h n * w.step)) s
      busWrite w h.dst d s1
  else s

/-- One micro-step of a scanline event: the next channel in ascending order (R292). -/
def hdmaTick (n next : Nat) (rest : List Activation) (s : State) : State :=
  if h : next < 8 then hdmaServe s.hdma[next] n (s.withStack (.hdma n (next + 1) :: rest))
  else s.withStack rest

/-! ## The micro-step and the run -/

/-- One micro-step of the activation on top of the stack. -/
def tick (s : State) : State :=
  match s.stack with
  | [] => s
  | .dma l moved :: rest => dmaTick l moved rest s
  | .blit op l place :: rest => blitTick op l place rest s
  | .rle _ :: rest => rleTick rest s
  | .rleOut left v wrote :: rest => rleOutTick left v wrote rest s
  | .bytes a vs :: rest => writeBytes a vs (s.withStack rest)
  | .hdma n next :: rest => hdmaTick n next rest s

/-- Micro-steps until the stack is back at `depth`, at most `fuel` of them. [DESIGN CHOICE: log 1] -/
def settle (depth : Nat) : Nat → State → State
  | 0, s => s
  | fuel + 1, s => if s.stack.length ≤ depth then s else settle depth fuel (tick s)

/-- A command: its own effect, then everything it triggers, to completion before it returns (R90, R380); a block that
is not provisioned refuses it (R371). [log 1, 17, 18] -/
def command (f : State → State) (s : State) : Host.Outcome State Fault Refusal :=
  if s.provisioned then .next (settle s.stack.length Config.burst (f s)) else .refused .notProvisioned

/-- A read command: the value read is answered on the CPU port (R60). -/
def readCommand (f : State → Long × State) (s : State) : State := answer (f s).1 (f s).2

/-- A byte access to one region, as a command (R73). -/
def regionCommand (g : Region) (acc : ByteAccess) (a : Addr) (s : State) : State :=
  match acc with
  | .read => readCommand (fun t => ((regionRead g (offOf a) t).1.setWidth 32, (regionRead g (offOf a) t).2)) s
  | .write v => regionWrite g (offOf a) v s

/-- A byte access to the register window, as a command (R80). -/
def windowCommand (acc : ByteAccess) (a : Addr) (s : State) : State :=
  match acc with
  | .read => readCommand (fun t => ((windowRead a t).1.setWidth 32, (windowRead a t).2)) s
  | .write v => windowWrite a v s

/-- An access that selects no register: 0 and nothing at byte width, composed from bytes when wider (R250, R87). -/
def unknownCommand (acc : Access) (a : Addr) (s : State) : State :=
  match acc with
  | .rd8 => answer 0 s
  | .wr8 _ => s
  | .rd16 => readCommand (readBytes 2 a 0) s
  | .rd32 => readCommand (readBytes 4 a 0) s
  | .wr16 v => writeBytes a (bytesOf .word (v.setWidth 32)) s
  | .wr32 v => writeBytes a (bytesOf .long v) s

end Sys2Proof.Machine
end

