-- ==== Sys2Proof/Machine/Banks.lean ====
section
/-! DEFINITION. The rows of the address decoder: an 8-bit access in the register window (20_memory.md R72, R80) or in a
bank (R73 to R79). Each performs its own region's access at the offset of its address. [log 12] -/

namespace Sys2Proof.Machine

/-- WINDOW.REG (R72, R80). -/
def execWindowReg (acc : ByteAccess) (a : Addr) (s : State) : Host.Outcome State Fault Refusal :=
  command (windowCommand acc a) s

/-- BANK.ROM (R74, R78). -/
def execBankRom (acc : ByteAccess) (a : Addr) (s : State) : Host.Outcome State Fault Refusal :=
  command (regionCommand .rom acc a) s

/-- BANK.WRAM (R75, R76). -/
def execBankWram (acc : ByteAccess) (a : Addr) (s : State) : Host.Outcome State Fault Refusal :=
  command (regionCommand .wram acc a) s

/-- BANK.DEV (R77). -/
def execBankDev (acc : ByteAccess) (a : Addr) (s : State) : Host.Outcome State Fault Refusal :=
  command (regionCommand .dev acc a) s

/-- BANK.VRAM (R79). -/
def execBankVram (acc : ByteAccess) (a : Addr) (s : State) : Host.Outcome State Fault Refusal :=
  command (regionCommand .vram acc a) s

/-- BANK.NONE.3 (R73). -/
def execBankNone3 (acc : ByteAccess) (a : Addr) (s : State) : Host.Outcome State Fault Refusal :=
  command (regionCommand .unmapped acc a) s

/-- BANK.NONE.4 (R73). -/
def execBankNone4 (acc : ByteAccess) (a : Addr) (s : State) : Host.Outcome State Fault Refusal :=
  command (regionCommand .unmapped acc a) s

/-- BANK.NONE.5 (R73). -/
def execBankNone5 (acc : ByteAccess) (a : Addr) (s : State) : Host.Outcome State Fault Refusal :=
  command (regionCommand .unmapped acc a) s

/-- BANK.NONE.6 (R73). -/
def execBankNone6 (acc : ByteAccess) (a : Addr) (s : State) : Host.Outcome State Fault Refusal :=
  command (regionCommand .unmapped acc a) s

/-- BANK.NONE.7 (R73). -/
def execBankNone7 (acc : ByteAccess) (a : Addr) (s : State) : Host.Outcome State Fault Refusal :=
  command (regionCommand .unmapped acc a) s

/-- BANK.NONE.8 (R73). -/
def execBankNone8 (acc : ByteAccess) (a : Addr) (s : State) : Host.Outcome State Fault Refusal :=
  command (regionCommand .unmapped acc a) s

/-- BANK.NONE.9 (R73). -/
def execBankNone9 (acc : ByteAccess) (a : Addr) (s : State) : Host.Outcome State Fault Refusal :=
  command (regionCommand .unmapped acc a) s

/-- BANK.NONE.A (R73). -/
def execBankNoneA (acc : ByteAccess) (a : Addr) (s : State) : Host.Outcome State Fault Refusal :=
  command (regionCommand .unmapped acc a) s

/-- BANK.NONE.B (R73). -/
def execBankNoneB (acc : ByteAccess) (a : Addr) (s : State) : Host.Outcome State Fault Refusal :=
  command (regionCommand .unmapped acc a) s

/-- BANK.NONE.C (R73). -/
def execBankNoneC (acc : ByteAccess) (a : Addr) (s : State) : Host.Outcome State Fault Refusal :=
  command (regionCommand .unmapped acc a) s

/-- BANK.NONE.D (R73). -/
def execBankNoneD (acc : ByteAccess) (a : Addr) (s : State) : Host.Outcome State Fault Refusal :=
  command (regionCommand .unmapped acc a) s

/-- BANK.NONE.F (R73). -/
def execBankNoneF (acc : ByteAccess) (a : Addr) (s : State) : Host.Outcome State Fault Refusal :=
  command (regionCommand .unmapped acc a) s

end Sys2Proof.Machine
end

