-- ==== Sys2Proof/Machine/Blitter.lean ====
section
/-! DEFINITION. The blitter function words (44_blitter.md R310 to R340), each as the write to `BLIT_FUNC` that delivers
it. -/

namespace Sys2Proof.Machine

/-- BLT.NOP (R311). -/
def execBltNop (_f : BlitFields) (_skip : Bool) (s : State) : Host.Outcome State Fault Refusal := command id s

/-- BLT.BLIT (R320). -/
def execBltBlit (f : BlitFields) (s : State) : Host.Outcome State Fault Refusal := command (blitStart .blit f false) s

/-- BLT.BLIT.S (R321). -/
def execBltBlitS (f : BlitFields) (s : State) : Host.Outcome State Fault Refusal := command (blitStart .blit f true) s

/-- BLT.SET (R330). -/
def execBltSet (f : BlitFields) (s : State) : Host.Outcome State Fault Refusal := command (blitStart .set f false) s

/-- BLT.SET.S (R331). -/
def execBltSetS (f : BlitFields) (s : State) : Host.Outcome State Fault Refusal := command (blitStart .set f true) s

/-- BLT.INV (R335). -/
def execBltInv (f : BlitFields) (s : State) : Host.Outcome State Fault Refusal := command (blitStart .invert f false) s

/-- BLT.INV.S (R336). -/
def execBltInvS (f : BlitFields) (s : State) : Host.Outcome State Fault Refusal := command (blitStart .invert f true) s

/-- BLT.RLE (R340). -/
def execBltRle (f : BlitFields) (skip : Bool) (s : State) : Host.Outcome State Fault Refusal :=
  command (rleStart f skip) s

/-- BLT.RSVD.5: no register changes and no access is made (R312). -/
def execBltRsvd5 (_f : BlitFields) (_skip : Bool) (s : State) : Host.Outcome State Fault Refusal := command id s

/-- BLT.RSVD.6_7 (R312). -/
def execBltRsvd6to7 (_f : BlitFields) (_skip : Bool) (_low : BitVec 1) (s : State) : Host.Outcome State Fault Refusal :=
  command id s

/-- BLT.RSVD.8_15 (R312). -/
def execBltRsvd8to15 (_f : BlitFields) (_skip : Bool) (_low : BitVec 3) (s : State) :
    Host.Outcome State Fault Refusal :=
  command id s

end Sys2Proof.Machine
end

