-- ==== Sys2Proof/Machine/Bus.lean ====
section
/-! DEFINITION. The six bus operations and the scanline event (40_bus_access.md R170 to R178, 43_hdma.md R292). -/

namespace Sys2Proof.Machine

/-- RD8 (R170). -/
def execRd8 (a : Addr) (s : State) : Host.Outcome State Fault Refusal := command (readCommand (busRead .byte a)) s

/-- RD16 (R172). -/
def execRd16 (a : Addr) (s : State) : Host.Outcome State Fault Refusal := command (readCommand (busRead .word a)) s

/-- RD32 (R174). -/
def execRd32 (a : Addr) (s : State) : Host.Outcome State Fault Refusal := command (readCommand (busRead .long a)) s

/-- WR8 (R171). -/
def execWr8 (a : Addr) (d : Long) (s : State) : Host.Outcome State Fault Refusal := command (busWrite .byte a d) s

/-- WR16 (R173). -/
def execWr16 (a : Addr) (d : Long) (s : State) : Host.Outcome State Fault Refusal := command (busWrite .word a d) s

/-- WR32 (R175). -/
def execWr32 (a : Addr) (d : Long) (s : State) : Host.Outcome State Fault Refusal := command (busWrite .long a d) s

/-- The eight channels are served for line `n` (R292). -/
def lineEvent (n : BitVec 32) (s : State) : State := push (.hdma n.toNat 0) s

/-- LINE (R178). -/
def execLine (n : BitVec 32) (s : State) : Host.Outcome State Fault Refusal := command (lineEvent n) s

/-- HDMA.LINE: the same event as the HDMA engine sees it (R292). -/
def execHdmaLine (n : BitVec 32) (s : State) : Host.Outcome State Fault Refusal := command (lineEvent n) s

end Sys2Proof.Machine
end

