-- ==== Sys2Proof/Machine/Dma.lean ====
section
/-! DEFINITION. The DMA control words (42_dma.md R260 to R275), each as the write to `DMA_CTRL` that delivers it. -/

namespace Sys2Proof.Machine

/-- DMA.NOP: `START` clear, nothing happens whatever the other bits hold (R261). -/
def execDmaNop (s : State) : Host.Outcome State Fault Refusal := command id s

/-- DMA.COPY.B (R272). -/
def execDmaCopyB (srcInc dstInc : Bool) (s : State) : Host.Outcome State Fault Refusal :=
  command (dmaStart false 0 srcInc dstInc) s

/-- DMA.COPY.W (R272). -/
def execDmaCopyW (srcInc dstInc : Bool) (s : State) : Host.Outcome State Fault Refusal :=
  command (dmaStart false 1 srcInc dstInc) s

/-- DMA.COPY.L (R272). -/
def execDmaCopyL (srcInc dstInc : Bool) (s : State) : Host.Outcome State Fault Refusal :=
  command (dmaStart false 2 srcInc dstInc) s

/-- DMA.FILL.B (R273). -/
def execDmaFillB (srcInc dstInc : Bool) (s : State) : Host.Outcome State Fault Refusal :=
  command (dmaStart true 0 srcInc dstInc) s

/-- DMA.FILL.W (R273). -/
def execDmaFillW (srcInc dstInc : Bool) (s : State) : Host.Outcome State Fault Refusal :=
  command (dmaStart true 1 srcInc dstInc) s

/-- DMA.FILL.L (R274): the fast path into working RAM, the general path elsewhere. -/
def execDmaFillL (srcInc dstInc : Bool) (s : State) : Host.Outcome State Fault Refusal :=
  command (dmaStart true 2 srcInc dstInc) s

/-- DMA.W3 (R275): the long form or nothing, as `WIDTH3` says. -/
def execDmaW3 (const srcInc dstInc : Bool) (s : State) : Host.Outcome State Fault Refusal :=
  command (dmaStart const 3 srcInc dstInc) s

end Sys2Proof.Machine
end

