-- ==== Sys2Proof/Machine/Hdma.lean ====
section
/-! DEFINITION. The HDMA control word (43_hdma.md R290, 41_register_file.md R230). -/

namespace Sys2Proof.Machine

/-- HDMA.SET: the fields are stored into the channel; no transfer happens (R230, R290). -/
def execHdmaSet (ch : Fin 8) (en : Bool) (width : BitVec 2) (dbl : Bool) (start count : BitVec 10) (s : State) :
    Host.Outcome State Fault Refusal :=
  command (hdmaSetCtrl ch en width dbl start count) s

end Sys2Proof.Machine
end

