-- ==== Sys2Proof/Machine/RegFile.lean ====
section
/-! DEFINITION. The register rows: the read and the write of each register at its one width (41_register_file.md), and
the access that selects none (R250). -/

namespace Sys2Proof.Machine

/-! ## Display registers (8-bit, packed) -/

/-- SCREEN_MODE.R (R200). -/
def execScreenModeR (s : State) : Host.Outcome State Fault Refusal := command (readCommand (regRead .screenMode)) s

/-- SCREEN_MODE.W (R201). -/
def execScreenModeW (v : Byte) (s : State) : Host.Outcome State Fault Refusal :=
  command (regWrite .screenMode (v.setWidth 32)) s

/-- TILEMAP_SET.R (R202). -/
def execTilemapSetR (s : State) : Host.Outcome State Fault Refusal := command (readCommand (regRead .tilemapSet)) s

/-- TILEMAP_SET.W (R203). -/
def execTilemapSetW (v : Byte) (s : State) : Host.Outcome State Fault Refusal :=
  command (regWrite .tilemapSet (v.setWidth 32)) s

/-- TILEMAP_BLEND.R (R204). -/
def execTilemapBlendR (s : State) : Host.Outcome State Fault Refusal := command (readCommand (regRead .tilemapBlend)) s

/-- TILEMAP_BLEND.W (R205). -/
def execTilemapBlendW (v : Byte) (s : State) : Host.Outcome State Fault Refusal :=
  command (regWrite .tilemapBlend (v.setWidth 32)) s

/-! ## Scroll registers (native 16-bit) -/

/-- SCROLLX0.R (R206). -/
def execScrollX0R (s : State) : Host.Outcome State Fault Refusal := command (readCommand (regRead (.scrollX 0))) s

/-- SCROLLX0.W (R207). -/
def execScrollX0W (v : Half) (s : State) : Host.Outcome State Fault Refusal :=
  command (regWrite (.scrollX 0) (v.setWidth 32)) s

/-- SCROLLY0.R (R208). -/
def execScrollY0R (s : State) : Host.Outcome State Fault Refusal := command (readCommand (regRead (.scrollY 0))) s

/-- SCROLLY0.W (R209). -/
def execScrollY0W (v : Half) (s : State) : Host.Outcome State Fault Refusal :=
  command (regWrite (.scrollY 0) (v.setWidth 32)) s

/-- SCROLLX1.R (R206). -/
def execScrollX1R (s : State) : Host.Outcome State Fault Refusal := command (readCommand (regRead (.scrollX 1))) s

/-- SCROLLX1.W (R207). -/
def execScrollX1W (v : Half) (s : State) : Host.Outcome State Fault Refusal :=
  command (regWrite (.scrollX 1) (v.setWidth 32)) s

/-- SCROLLY1.R (R208). -/
def execScrollY1R (s : State) : Host.Outcome State Fault Refusal := command (readCommand (regRead (.scrollY 1))) s

/-- SCROLLY1.W (R209). -/
def execScrollY1W (v : Half) (s : State) : Host.Outcome State Fault Refusal :=
  command (regWrite (.scrollY 1) (v.setWidth 32)) s

/-- SCROLLX2.R (R206). -/
def execScrollX2R (s : State) : Host.Outcome State Fault Refusal := command (readCommand (regRead (.scrollX 2))) s

/-- SCROLLX2.W (R207). -/
def execScrollX2W (v : Half) (s : State) : Host.Outcome State Fault Refusal :=
  command (regWrite (.scrollX 2) (v.setWidth 32)) s

/-- SCROLLY2.R (R208). -/
def execScrollY2R (s : State) : Host.Outcome State Fault Refusal := command (readCommand (regRead (.scrollY 2))) s

/-- SCROLLY2.W (R209). -/
def execScrollY2W (v : Half) (s : State) : Host.Outcome State Fault Refusal :=
  command (regWrite (.scrollY 2) (v.setWidth 32)) s

/-- SCROLLX3.R (R206). -/
def execScrollX3R (s : State) : Host.Outcome State Fault Refusal := command (readCommand (regRead (.scrollX 3))) s

/-- SCROLLX3.W (R207). -/
def execScrollX3W (v : Half) (s : State) : Host.Outcome State Fault Refusal :=
  command (regWrite (.scrollX 3) (v.setWidth 32)) s

/-- SCROLLY3.R (R208). -/
def execScrollY3R (s : State) : Host.Outcome State Fault Refusal := command (readCommand (regRead (.scrollY 3))) s

/-- SCROLLY3.W (R209). -/
def execScrollY3W (v : Half) (s : State) : Host.Outcome State Fault Refusal :=
  command (regWrite (.scrollY 3) (v.setWidth 32)) s

/-! ## Input, message, ticks, flags -/

/-- KEYSCAN.R (R210). -/
def execKeyscanR (s : State) : Host.Outcome State Fault Refusal := command (readCommand (regRead .keyscan)) s

/-- KEYSCAN.W (R210). -/
def execKeyscanW (v : Byte) (s : State) : Host.Outcome State Fault Refusal :=
  command (regWrite .keyscan (v.setWidth 32)) s

/-- JOYPAD0.R (R211). -/
def execJoypad0R (s : State) : Host.Outcome State Fault Refusal := command (readCommand (regRead .joypad0)) s

/-- JOYPAD0.W (R211). -/
def execJoypad0W (v : Byte) (s : State) : Host.Outcome State Fault Refusal :=
  command (regWrite .joypad0 (v.setWidth 32)) s

/-- JOYPAD1.R (R211). -/
def execJoypad1R (s : State) : Host.Outcome State Fault Refusal := command (readCommand (regRead .joypad1)) s

/-- JOYPAD1.W (R211). -/
def execJoypad1W (v : Byte) (s : State) : Host.Outcome State Fault Refusal :=
  command (regWrite .joypad1 (v.setWidth 32)) s

/-- MSG_OUT.R (R213). -/
def execMsgOutR (s : State) : Host.Outcome State Fault Refusal := command (readCommand (regRead .msgOut)) s

/-- MSG_OUT.W (R213). -/
def execMsgOutW (v : Long) (s : State) : Host.Outcome State Fault Refusal := command (regWrite .msgOut v) s

/-- TICKS.R (R214). -/
def execTicksR (s : State) : Host.Outcome State Fault Refusal := command (readCommand (regRead .ticks)) s

/-- TICKS.W (R214). -/
def execTicksW (v : Long) (s : State) : Host.Outcome State Fault Refusal := command (regWrite .ticks v) s

/-- INT_FLAGS.R (R212). -/
def execIntFlagsR (s : State) : Host.Outcome State Fault Refusal := command (readCommand (regRead .intFlags)) s

/-- INT_FLAGS.W (R212). -/
def execIntFlagsW (v : Byte) (s : State) : Host.Outcome State Fault Refusal :=
  command (regWrite .intFlags (v.setWidth 32)) s

/-! ## DMA registers -/

/-- DMA_SRC.R (R215). -/
def execDmaSrcR (s : State) : Host.Outcome State Fault Refusal := command (readCommand (regRead .dmaSrc)) s

/-- DMA_SRC.W (R215). -/
def execDmaSrcW (v : Long) (s : State) : Host.Outcome State Fault Refusal := command (regWrite .dmaSrc v) s

/-- DMA_DST.R (R216). -/
def execDmaDstR (s : State) : Host.Outcome State Fault Refusal := command (readCommand (regRead .dmaDst)) s

/-- DMA_DST.W (R216). -/
def execDmaDstW (v : Long) (s : State) : Host.Outcome State Fault Refusal := command (regWrite .dmaDst v) s

/-- DMA_LEN.R (R217). -/
def execDmaLenR (s : State) : Host.Outcome State Fault Refusal := command (readCommand (regRead .dmaLen)) s

/-- DMA_LEN.W (R217). -/
def execDmaLenW (v : Long) (s : State) : Host.Outcome State Fault Refusal := command (regWrite .dmaLen v) s

/-- DMA_CTRL.R (R218). -/
def execDmaCtrlR (s : State) : Host.Outcome State Fault Refusal := command (readCommand (regRead .dmaCtrl)) s

/-- DMA_CTRL.W (R218). -/
def execDmaCtrlW (v : Byte) (s : State) : Host.Outcome State Fault Refusal :=
  command (regWrite .dmaCtrl (v.setWidth 32)) s

/-! ## HDMA registers -/

/-- HDMA_CTRL0.R (R230). -/
def execHdmaCtrl0R (s : State) : Host.Outcome State Fault Refusal := command (readCommand (regRead (.hdmaCtrl 0))) s

/-- HDMA_CTRL0.W (R230). -/
def execHdmaCtrl0W (v : Long) (s : State) : Host.Outcome State Fault Refusal := command (regWrite (.hdmaCtrl 0) v) s

/-- HDMA_CTRL1.R (R230). -/
def execHdmaCtrl1R (s : State) : Host.Outcome State Fault Refusal := command (readCommand (regRead (.hdmaCtrl 1))) s

/-- HDMA_CTRL1.W (R230). -/
def execHdmaCtrl1W (v : Long) (s : State) : Host.Outcome State Fault Refusal := command (regWrite (.hdmaCtrl 1) v) s

/-- HDMA_CTRL2.R (R230). -/
def execHdmaCtrl2R (s : State) : Host.Outcome State Fault Refusal := command (readCommand (regRead (.hdmaCtrl 2))) s

/-- HDMA_CTRL2.W (R230). -/
def execHdmaCtrl2W (v : Long) (s : State) : Host.Outcome State Fault Refusal := command (regWrite (.hdmaCtrl 2) v) s

/-- HDMA_CTRL3.R (R230). -/
def execHdmaCtrl3R (s : State) : Host.Outcome State Fault Refusal := command (readCommand (regRead (.hdmaCtrl 3))) s

/-- HDMA_CTRL3.W (R230). -/
def execHdmaCtrl3W (v : Long) (s : State) : Host.Outcome State Fault Refusal := command (regWrite (.hdmaCtrl 3) v) s

/-- HDMA_CTRL4.R (R230). -/
def execHdmaCtrl4R (s : State) : Host.Outcome State Fault Refusal := command (readCommand (regRead (.hdmaCtrl 4))) s

/-- HDMA_CTRL4.W (R230). -/
def execHdmaCtrl4W (v : Long) (s : State) : Host.Outcome State Fault Refusal := command (regWrite (.hdmaCtrl 4) v) s

/-- HDMA_CTRL5.R (R230). -/
def execHdmaCtrl5R (s : State) : Host.Outcome State Fault Refusal := command (readCommand (regRead (.hdmaCtrl 5))) s

/-- HDMA_CTRL5.W (R230). -/
def execHdmaCtrl5W (v : Long) (s : State) : Host.Outcome State Fault Refusal := command (regWrite (.hdmaCtrl 5) v) s

/-- HDMA_CTRL6.R (R230). -/
def execHdmaCtrl6R (s : State) : Host.Outcome State Fault Refusal := command (readCommand (regRead (.hdmaCtrl 6))) s

/-- HDMA_CTRL6.W (R230). -/
def execHdmaCtrl6W (v : Long) (s : State) : Host.Outcome State Fault Refusal := command (regWrite (.hdmaCtrl 6) v) s

/-- HDMA_CTRL7.R (R230). -/
def execHdmaCtrl7R (s : State) : Host.Outcome State Fault Refusal := command (readCommand (regRead (.hdmaCtrl 7))) s

/-- HDMA_CTRL7.W (R230). -/
def execHdmaCtrl7W (v : Long) (s : State) : Host.Outcome State Fault Refusal := command (regWrite (.hdmaCtrl 7) v) s

/-- HDMA_SRC0.R (R231). -/
def execHdmaSrc0R (s : State) : Host.Outcome State Fault Refusal := command (readCommand (regRead (.hdmaSrc 0))) s

/-- HDMA_SRC0.W (R231). -/
def execHdmaSrc0W (v : Long) (s : State) : Host.Outcome State Fault Refusal := command (regWrite (.hdmaSrc 0) v) s

/-- HDMA_SRC1.R (R231). -/
def execHdmaSrc1R (s : State) : Host.Outcome State Fault Refusal := command (readCommand (regRead (.hdmaSrc 1))) s

/-- HDMA_SRC1.W (R231). -/
def execHdmaSrc1W (v : Long) (s : State) : Host.Outcome State Fault Refusal := command (regWrite (.hdmaSrc 1) v) s

/-- HDMA_SRC2.R (R231). -/
def execHdmaSrc2R (s : State) : Host.Outcome State Fault Refusal := command (readCommand (regRead (.hdmaSrc 2))) s

/-- HDMA_SRC2.W (R231). -/
def execHdmaSrc2W (v : Long) (s : State) : Host.Outcome State Fault Refusal := command (regWrite (.hdmaSrc 2) v) s

/-- HDMA_SRC3.R (R231). -/
def execHdmaSrc3R (s : State) : Host.Outcome State Fault Refusal := command (readCommand (regRead (.hdmaSrc 3))) s

/-- HDMA_SRC3.W (R231). -/
def execHdmaSrc3W (v : Long) (s : State) : Host.Outcome State Fault Refusal := command (regWrite (.hdmaSrc 3) v) s

/-- HDMA_SRC4.R (R231). -/
def execHdmaSrc4R (s : State) : Host.Outcome State Fault Refusal := command (readCommand (regRead (.hdmaSrc 4))) s

/-- HDMA_SRC4.W (R231). -/
def execHdmaSrc4W (v : Long) (s : State) : Host.Outcome State Fault Refusal := command (regWrite (.hdmaSrc 4) v) s

/-- HDMA_SRC5.R (R231). -/
def execHdmaSrc5R (s : State) : Host.Outcome State Fault Refusal := command (readCommand (regRead (.hdmaSrc 5))) s

/-- HDMA_SRC5.W (R231). -/
def execHdmaSrc5W (v : Long) (s : State) : Host.Outcome State Fault Refusal := command (regWrite (.hdmaSrc 5) v) s

/-- HDMA_SRC6.R (R231). -/
def execHdmaSrc6R (s : State) : Host.Outcome State Fault Refusal := command (readCommand (regRead (.hdmaSrc 6))) s

/-- HDMA_SRC6.W (R231). -/
def execHdmaSrc6W (v : Long) (s : State) : Host.Outcome State Fault Refusal := command (regWrite (.hdmaSrc 6) v) s

/-- HDMA_SRC7.R (R231). -/
def execHdmaSrc7R (s : State) : Host.Outcome State Fault Refusal := command (readCommand (regRead (.hdmaSrc 7))) s

/-- HDMA_SRC7.W (R231). -/
def execHdmaSrc7W (v : Long) (s : State) : Host.Outcome State Fault Refusal := command (regWrite (.hdmaSrc 7) v) s

/-- HDMA_DST0.R (R232). -/
def execHdmaDst0R (s : State) : Host.Outcome State Fault Refusal := command (readCommand (regRead (.hdmaDst 0))) s

/-- HDMA_DST0.W (R232). -/
def execHdmaDst0W (v : Long) (s : State) : Host.Outcome State Fault Refusal := command (regWrite (.hdmaDst 0) v) s

/-- HDMA_DST1.R (R232). -/
def execHdmaDst1R (s : State) : Host.Outcome State Fault Refusal := command (readCommand (regRead (.hdmaDst 1))) s

/-- HDMA_DST1.W (R232). -/
def execHdmaDst1W (v : Long) (s : State) : Host.Outcome State Fault Refusal := command (regWrite (.hdmaDst 1) v) s

/-- HDMA_DST2.R (R232). -/
def execHdmaDst2R (s : State) : Host.Outcome State Fault Refusal := command (readCommand (regRead (.hdmaDst 2))) s

/-- HDMA_DST2.W (R232). -/
def execHdmaDst2W (v : Long) (s : State) : Host.Outcome State Fault Refusal := command (regWrite (.hdmaDst 2) v) s

/-- HDMA_DST3.R (R232). -/
def execHdmaDst3R (s : State) : Host.Outcome State Fault Refusal := command (readCommand (regRead (.hdmaDst 3))) s

/-- HDMA_DST3.W (R232). -/
def execHdmaDst3W (v : Long) (s : State) : Host.Outcome State Fault Refusal := command (regWrite (.hdmaDst 3) v) s

/-- HDMA_DST4.R (R232). -/
def execHdmaDst4R (s : State) : Host.Outcome State Fault Refusal := command (readCommand (regRead (.hdmaDst 4))) s

/-- HDMA_DST4.W (R232). -/
def execHdmaDst4W (v : Long) (s : State) : Host.Outcome State Fault Refusal := command (regWrite (.hdmaDst 4) v) s

/-- HDMA_DST5.R (R232). -/
def execHdmaDst5R (s : State) : Host.Outcome State Fault Refusal := command (readCommand (regRead (.hdmaDst 5))) s

/-- HDMA_DST5.W (R232). -/
def execHdmaDst5W (v : Long) (s : State) : Host.Outcome State Fault Refusal := command (regWrite (.hdmaDst 5) v) s

/-- HDMA_DST6.R (R232). -/
def execHdmaDst6R (s : State) : Host.Outcome State Fault Refusal := command (readCommand (regRead (.hdmaDst 6))) s

/-- HDMA_DST6.W (R232). -/
def execHdmaDst6W (v : Long) (s : State) : Host.Outcome State Fault Refusal := command (regWrite (.hdmaDst 6) v) s

/-- HDMA_DST7.R (R232). -/
def execHdmaDst7R (s : State) : Host.Outcome State Fault Refusal := command (readCommand (regRead (.hdmaDst 7))) s

/-- HDMA_DST7.W (R232). -/
def execHdmaDst7W (v : Long) (s : State) : Host.Outcome State Fault Refusal := command (regWrite (.hdmaDst 7) v) s

/-! ## Blitter registers -/

/-- BLIT_FUNC.R (R244). -/
def execBlitFuncR (s : State) : Host.Outcome State Fault Refusal := command (readCommand (regRead .blitFunc)) s

/-- BLIT_FUNC.W (R244). -/
def execBlitFuncW (v : Long) (s : State) : Host.Outcome State Fault Refusal := command (regWrite .blitFunc v) s

/-- BLIT_A.R (R240). -/
def execBlitAR (s : State) : Host.Outcome State Fault Refusal := command (readCommand (regRead .blitA)) s

/-- BLIT_A.W (R240). -/
def execBlitAW (v : Long) (s : State) : Host.Outcome State Fault Refusal := command (regWrite .blitA v) s

/-- BLIT_B.R (R241). -/
def execBlitBR (s : State) : Host.Outcome State Fault Refusal := command (readCommand (regRead .blitB)) s

/-- BLIT_B.W (R241). -/
def execBlitBW (v : Long) (s : State) : Host.Outcome State Fault Refusal := command (regWrite .blitB v) s

/-- BLIT_LEN.R (R242). -/
def execBlitLenR (s : State) : Host.Outcome State Fault Refusal := command (readCommand (regRead .blitLen)) s

/-- BLIT_LEN.W (R242). -/
def execBlitLenW (v : Long) (s : State) : Host.Outcome State Fault Refusal := command (regWrite .blitLen v) s

/-- BLIT_KEY.R (R243). -/
def execBlitKeyR (s : State) : Host.Outcome State Fault Refusal := command (readCommand (regRead .blitKey)) s

/-- BLIT_KEY.W (R243). -/
def execBlitKeyW (v : Long) (s : State) : Host.Outcome State Fault Refusal := command (regWrite .blitKey v) s

/-! ## Everything else in the window -/

/-- REG.UNKNOWN (R250): 0 and nothing; a wider access is first composed from bytes (R172 to R175). [log 13] -/
def execRegUnknown (acc : Access) (a : Addr) (s : State) : Host.Outcome State Fault Refusal :=
  command (unknownCommand acc a) s

end Sys2Proof.Machine
end

