-- ==== Sys2Proof/Machine/Rle.lean ====
section
/-! DEFINITION. The codes of the RLE stream (44_blitter.md R340 to R342): the code's bytes are consumed and its output
written. [log 11] -/

namespace Sys2Proof.Machine

/-- RLE.END (R342). -/
def execRleEnd (s : State) : Host.Outcome State Fault Refusal := command (rleEffect .stop) s

/-- RLE.RUN (R341). -/
def execRleRun (n : BitVec 6) (v : Byte) (s : State) : Host.Outcome State Fault Refusal :=
  command (rleEffect (.run n v)) s

/-- RLE.LIT.0: a literal 0x00 to 0x7F (R340). -/
def execRleLit0 (v : BitVec 7) (s : State) : Host.Outcome State Fault Refusal :=
  command (rleEffect (.lit ((0 : BitVec 1) ++ v))) s

/-- RLE.LIT.1: a literal 0x80 to 0xBF (R340). -/
def execRleLit1 (v : BitVec 6) (s : State) : Host.Outcome State Fault Refusal :=
  command (rleEffect (.lit ((2 : BitVec 2) ++ v))) s

end Sys2Proof.Machine
end

