-- ==== Sys2Proof/Machine/Dispatch.lean ====
section
/-! DEFINITION. One arm per command: a direct call of its meaning. -/

namespace Sys2Proof.Machine

def exec (i : Instr) (s : State) : Host.Outcome State Fault Refusal :=
  match i with
  -- BUS frames (R121): the six bus operations and the scanline event
  | .rd8 a => Sys2Proof.Machine.execRd8 a s
  | .rd16 a => Sys2Proof.Machine.execRd16 a s
  | .rd32 a => Sys2Proof.Machine.execRd32 a s
  | .wr8 a d => Sys2Proof.Machine.execWr8 a d s
  | .wr16 a d => Sys2Proof.Machine.execWr16 a d s
  | .wr32 a d => Sys2Proof.Machine.execWr32 a d s
  | .line n => Sys2Proof.Machine.execLine n s
  | .hdmaLine n => Sys2Proof.Machine.execHdmaLine n s
  -- decoder rows (R72, R73): an 8-bit access and the address that selects the row
  | .windowReg acc a => Sys2Proof.Machine.execWindowReg acc a s
  | .bankRom acc a => Sys2Proof.Machine.execBankRom acc a s
  | .bankWram acc a => Sys2Proof.Machine.execBankWram acc a s
  | .bankDev acc a => Sys2Proof.Machine.execBankDev acc a s
  | .bankNone3 acc a => Sys2Proof.Machine.execBankNone3 acc a s
  | .bankNone4 acc a => Sys2Proof.Machine.execBankNone4 acc a s
  | .bankNone5 acc a => Sys2Proof.Machine.execBankNone5 acc a s
  | .bankNone6 acc a => Sys2Proof.Machine.execBankNone6 acc a s
  | .bankNone7 acc a => Sys2Proof.Machine.execBankNone7 acc a s
  | .bankNone8 acc a => Sys2Proof.Machine.execBankNone8 acc a s
  | .bankNone9 acc a => Sys2Proof.Machine.execBankNone9 acc a s
  | .bankNoneA acc a => Sys2Proof.Machine.execBankNoneA acc a s
  | .bankNoneB acc a => Sys2Proof.Machine.execBankNoneB acc a s
  | .bankNoneC acc a => Sys2Proof.Machine.execBankNoneC acc a s
  | .bankNoneD acc a => Sys2Proof.Machine.execBankNoneD acc a s
  | .bankVram acc a => Sys2Proof.Machine.execBankVram acc a s
  | .bankNoneF acc a => Sys2Proof.Machine.execBankNoneF acc a s
  -- register rows (R130): the read and the write of each register at its one width
  | .screenModeR => Sys2Proof.Machine.execScreenModeR s
  | .screenModeW v => Sys2Proof.Machine.execScreenModeW v s
  | .tilemapSetR => Sys2Proof.Machine.execTilemapSetR s
  | .tilemapSetW v => Sys2Proof.Machine.execTilemapSetW v s
  | .tilemapBlendR => Sys2Proof.Machine.execTilemapBlendR s
  | .tilemapBlendW v => Sys2Proof.Machine.execTilemapBlendW v s
  | .scrollX0R => Sys2Proof.Machine.execScrollX0R s
  | .scrollX0W v => Sys2Proof.Machine.execScrollX0W v s
  | .scrollY0R => Sys2Proof.Machine.execScrollY0R s
  | .scrollY0W v => Sys2Proof.Machine.execScrollY0W v s
  | .scrollX1R => Sys2Proof.Machine.execScrollX1R s
  | .scrollX1W v => Sys2Proof.Machine.execScrollX1W v s
  | .scrollY1R => Sys2Proof.Machine.execScrollY1R s
  | .scrollY1W v => Sys2Proof.Machine.execScrollY1W v s
  | .scrollX2R => Sys2Proof.Machine.execScrollX2R s
  | .scrollX2W v => Sys2Proof.Machine.execScrollX2W v s
  | .scrollY2R => Sys2Proof.Machine.execScrollY2R s
  | .scrollY2W v => Sys2Proof.Machine.execScrollY2W v s
  | .scrollX3R => Sys2Proof.Machine.execScrollX3R s
  | .scrollX3W v => Sys2Proof.Machine.execScrollX3W v s
  | .scrollY3R => Sys2Proof.Machine.execScrollY3R s
  | .scrollY3W v => Sys2Proof.Machine.execScrollY3W v s
  | .keyscanR => Sys2Proof.Machine.execKeyscanR s
  | .keyscanW v => Sys2Proof.Machine.execKeyscanW v s
  | .joypad0R => Sys2Proof.Machine.execJoypad0R s
  | .joypad0W v => Sys2Proof.Machine.execJoypad0W v s
  | .joypad1R => Sys2Proof.Machine.execJoypad1R s
  | .joypad1W v => Sys2Proof.Machine.execJoypad1W v s
  | .msgOutR => Sys2Proof.Machine.execMsgOutR s
  | .msgOutW v => Sys2Proof.Machine.execMsgOutW v s
  | .ticksR => Sys2Proof.Machine.execTicksR s
  | .ticksW v => Sys2Proof.Machine.execTicksW v s
  | .intFlagsR => Sys2Proof.Machine.execIntFlagsR s
  | .intFlagsW v => Sys2Proof.Machine.execIntFlagsW v s
  | .dmaSrcR => Sys2Proof.Machine.execDmaSrcR s
  | .dmaSrcW v => Sys2Proof.Machine.execDmaSrcW v s
  | .dmaDstR => Sys2Proof.Machine.execDmaDstR s
  | .dmaDstW v => Sys2Proof.Machine.execDmaDstW v s
  | .dmaLenR => Sys2Proof.Machine.execDmaLenR s
  | .dmaLenW v => Sys2Proof.Machine.execDmaLenW v s
  | .dmaCtrlR => Sys2Proof.Machine.execDmaCtrlR s
  | .dmaCtrlW v => Sys2Proof.Machine.execDmaCtrlW v s
  | .hdmaCtrl0R => Sys2Proof.Machine.execHdmaCtrl0R s
  | .hdmaCtrl0W v => Sys2Proof.Machine.execHdmaCtrl0W v s
  | .hdmaCtrl1R => Sys2Proof.Machine.execHdmaCtrl1R s
  | .hdmaCtrl1W v => Sys2Proof.Machine.execHdmaCtrl1W v s
  | .hdmaCtrl2R => Sys2Proof.Machine.execHdmaCtrl2R s
  | .hdmaCtrl2W v => Sys2Proof.Machine.execHdmaCtrl2W v s
  | .hdmaCtrl3R => Sys2Proof.Machine.execHdmaCtrl3R s
  | .hdmaCtrl3W v => Sys2Proof.Machine.execHdmaCtrl3W v s
  | .hdmaCtrl4R => Sys2Proof.Machine.execHdmaCtrl4R s
  | .hdmaCtrl4W v => Sys2Proof.Machine.execHdmaCtrl4W v s
  | .hdmaCtrl5R => Sys2Proof.Machine.execHdmaCtrl5R s
  | .hdmaCtrl5W v => Sys2Proof.Machine.execHdmaCtrl5W v s
  | .hdmaCtrl6R => Sys2Proof.Machine.execHdmaCtrl6R s
  | .hdmaCtrl6W v => Sys2Proof.Machine.execHdmaCtrl6W v s
  | .hdmaCtrl7R => Sys2Proof.Machine.execHdmaCtrl7R s
  | .hdmaCtrl7W v => Sys2Proof.Machine.execHdmaCtrl7W v s
  | .hdmaSrc0R => Sys2Proof.Machine.execHdmaSrc0R s
  | .hdmaSrc0W v => Sys2Proof.Machine.execHdmaSrc0W v s
  | .hdmaSrc1R => Sys2Proof.Machine.execHdmaSrc1R s
  | .hdmaSrc1W v => Sys2Proof.Machine.execHdmaSrc1W v s
  | .hdmaSrc2R => Sys2Proof.Machine.execHdmaSrc2R s
  | .hdmaSrc2W v => Sys2Proof.Machine.execHdmaSrc2W v s
  | .hdmaSrc3R => Sys2Proof.Machine.execHdmaSrc3R s
  | .hdmaSrc3W v => Sys2Proof.Machine.execHdmaSrc3W v s
  | .hdmaSrc4R => Sys2Proof.Machine.execHdmaSrc4R s
  | .hdmaSrc4W v => Sys2Proof.Machine.execHdmaSrc4W v s
  | .hdmaSrc5R => Sys2Proof.Machine.execHdmaSrc5R s
  | .hdmaSrc5W v => Sys2Proof.Machine.execHdmaSrc5W v s
  | .hdmaSrc6R => Sys2Proof.Machine.execHdmaSrc6R s
  | .hdmaSrc6W v => Sys2Proof.Machine.execHdmaSrc6W v s
  | .hdmaSrc7R => Sys2Proof.Machine.execHdmaSrc7R s
  | .hdmaSrc7W v => Sys2Proof.Machine.execHdmaSrc7W v s
  | .hdmaDst0R => Sys2Proof.Machine.execHdmaDst0R s
  | .hdmaDst0W v => Sys2Proof.Machine.execHdmaDst0W v s
  | .hdmaDst1R => Sys2Proof.Machine.execHdmaDst1R s
  | .hdmaDst1W v => Sys2Proof.Machine.execHdmaDst1W v s
  | .hdmaDst2R => Sys2Proof.Machine.execHdmaDst2R s
  | .hdmaDst2W v => Sys2Proof.Machine.execHdmaDst2W v s
  | .hdmaDst3R => Sys2Proof.Machine.execHdmaDst3R s
  | .hdmaDst3W v => Sys2Proof.Machine.execHdmaDst3W v s
  | .hdmaDst4R => Sys2Proof.Machine.execHdmaDst4R s
  | .hdmaDst4W v => Sys2Proof.Machine.execHdmaDst4W v s
  | .hdmaDst5R => Sys2Proof.Machine.execHdmaDst5R s
  | .hdmaDst5W v => Sys2Proof.Machine.execHdmaDst5W v s
  | .hdmaDst6R => Sys2Proof.Machine.execHdmaDst6R s
  | .hdmaDst6W v => Sys2Proof.Machine.execHdmaDst6W v s
  | .hdmaDst7R => Sys2Proof.Machine.execHdmaDst7R s
  | .hdmaDst7W v => Sys2Proof.Machine.execHdmaDst7W v s
  | .blitFuncR => Sys2Proof.Machine.execBlitFuncR s
  | .blitFuncW v => Sys2Proof.Machine.execBlitFuncW v s
  | .blitAR => Sys2Proof.Machine.execBlitAR s
  | .blitAW v => Sys2Proof.Machine.execBlitAW v s
  | .blitBR => Sys2Proof.Machine.execBlitBR s
  | .blitBW v => Sys2Proof.Machine.execBlitBW v s
  | .blitLenR => Sys2Proof.Machine.execBlitLenR s
  | .blitLenW v => Sys2Proof.Machine.execBlitLenW v s
  | .blitKeyR => Sys2Proof.Machine.execBlitKeyR s
  | .blitKeyW v => Sys2Proof.Machine.execBlitKeyW v s
  -- every other (offset, width, direction) of the window (R250)
  | .regUnknown acc a => Sys2Proof.Machine.execRegUnknown acc a s
  -- DMA control words (R135)
  | .dmaNop => Sys2Proof.Machine.execDmaNop s
  | .dmaCopyB srcInc dstInc => Sys2Proof.Machine.execDmaCopyB srcInc dstInc s
  | .dmaCopyW srcInc dstInc => Sys2Proof.Machine.execDmaCopyW srcInc dstInc s
  | .dmaCopyL srcInc dstInc => Sys2Proof.Machine.execDmaCopyL srcInc dstInc s
  | .dmaFillB srcInc dstInc => Sys2Proof.Machine.execDmaFillB srcInc dstInc s
  | .dmaFillW srcInc dstInc => Sys2Proof.Machine.execDmaFillW srcInc dstInc s
  | .dmaFillL srcInc dstInc => Sys2Proof.Machine.execDmaFillL srcInc dstInc s
  | .dmaW3 const srcInc dstInc => Sys2Proof.Machine.execDmaW3 const srcInc dstInc s
  -- HDMA control word (R137), written to the control register of channel `ch`
  | .hdmaSet ch en width dbl start count => Sys2Proof.Machine.execHdmaSet ch en width dbl start count s
  -- blitter function words (R136)
  | .bltNop f skip => Sys2Proof.Machine.execBltNop f skip s
  | .bltBlit f => Sys2Proof.Machine.execBltBlit f s
  | .bltBlitS f => Sys2Proof.Machine.execBltBlitS f s
  | .bltSet f => Sys2Proof.Machine.execBltSet f s
  | .bltSetS f => Sys2Proof.Machine.execBltSetS f s
  | .bltInv f => Sys2Proof.Machine.execBltInv f s
  | .bltInvS f => Sys2Proof.Machine.execBltInvS f s
  | .bltRle f skip => Sys2Proof.Machine.execBltRle f skip s
  | .bltRsvd5 f skip => Sys2Proof.Machine.execBltRsvd5 f skip s
  | .bltRsvd6to7 f skip low => Sys2Proof.Machine.execBltRsvd6to7 f skip low s
  | .bltRsvd8to15 f skip low => Sys2Proof.Machine.execBltRsvd8to15 f skip low s
  -- codes of the RLE stream (R140)
  | .rleEnd => Sys2Proof.Machine.execRleEnd s
  | .rleRun n v => Sys2Proof.Machine.execRleRun n v s
  | .rleLit0 v => Sys2Proof.Machine.execRleLit0 v s
  | .rleLit1 v => Sys2Proof.Machine.execRleLit1 v s

end Sys2Proof.Machine
end

