-- ==== Sys2Proof/Machine/Step.lean ====
section
/-! DEFINITION. One step of the block, and where a test places the command the next step runs. -/

namespace Sys2Proof.Machine

/-- One step (R380): an engine still running goes on, and nothing else is accepted meanwhile (R376); otherwise the next
BUS frame is accepted and runs with everything it triggers; with no frame waiting the block is idle (R422). [log 1, 2, 3] -/
def step (s : State) : Host.Outcome State Fault Refusal :=
  if s.provisioned then
    match s.stack with
    | _ :: _ => .next (settle 0 Config.burst s)
    | [] =>
      match s.port.requests with
      | [] => .next s
      | _ :: _ =>
        match decode s.cfg .bus s.port.requests with
        | .ok (i, rest) => exec i (s.withPort { s.port with requests := rest })
        | .error _ => .refused .notATransaction
  else .refused .notProvisioned

/-- The bank-1 address of a stream placed by a test: the start of working RAM (R160, `W`). -/
def streamAddr (c : Cfg) : Addr := bankAddr c 1 0

/-- A list of bytes stored into a region from index `i` on. -/
def storeFrom (m : Memory) (i : Nat) : List Byte → Memory
  | [] => m
  | b :: bs => storeFrom (m.write i b) (i + 1) bs

/-- An RLE run that will read `bs` next and then end: the bytes in working RAM, `BLIT_A` at them, the budget their number,
and the run's activation on the stack (R340). -/
def withRleStream (s : State) (bs : List Byte) : State :=
  ((s.withMem { s.mem with wram := storeFrom s.mem.wram 0 bs }).withBlit
    { s.blit with a := streamAddr s.cfg, len := BitVec.ofNat 32 bs.length }).withStack
      [.rle { skip := false, keyEn := false, width := .byte, srcStride := 0, dstStride := 0 }]

/-- The frame that delivers a command, waiting as the next request, and no engine running. -/
def withNextFrame (s : State) (bs : List Byte) : State :=
  (s.withPort { s.port with requests := bs ++ s.port.requests }).withStack []

/-- `s` with the command of the table word `w` where the next step runs it (decodeTableWord): a BUS frame waits as the
next request; an address, a register or a control word waits as the frame that delivers it; a stream code waits in
memory before an RLE run. [log 2, 10] -/
def State.withFetchWord (s : State) (nbits w : Nat) : State :=
  match decodeTableWord nbits w with
  | none => s
  | some i =>
    match encoding s.cfg i with
    | .rle bs => withRleStream s bs
    | .frame _ _ _ => withNextFrame s (tableBytes (nbits / 8) w)
    | .address acc a => withNextFrame s (deliveringFrame s.cfg (.address acc a))
    | .register acc a => withNextFrame s (deliveringFrame s.cfg (.register acc a))
    | .dmac _ => withNextFrame s (deliveringFrame s.cfg (.dmac (BitVec.ofNat 8 w)))
    | .hdmac ch v => withNextFrame s (deliveringFrame s.cfg (.hdmac ch v))
    | .blitf _ => withNextFrame s (deliveringFrame s.cfg (.blitf (BitVec.ofNat 32 w)))

end Sys2Proof.Machine
end

