-- ==== Sys2Proof/Machine/Ports.lean ====
section
/-! DEFINITION. The ports beside the CPU port (10_state.md R61 to R66), and bus scripts (30_encoding.md R160, R161). -/

namespace Sys2Proof.Machine

/-! ## Renderer and provisioning -/

/-- What the renderer reads directly, without the bus and without side effects (R65, R110). -/
structure RendererView where
  vram : Memory
  display : Display
deriving DecidableEq, Repr

/-- The renderer's look at the state (R65). -/
def rendererView (s : State) : RendererView where
  vram := s.mem.vram
  display := s.display

/-- The status the provisioning step reports: 0 on success, a non-zero number otherwise (R66, R371). [log 17] -/
def provisionStatus (supplied : Bool) : Nat := if supplied then 0 else Config.provisionFailure + 1

/-! ## Scripts -/

/-- The bytes of a script: one BUS frame a line (R121, R160). -/
def scriptBytes (c : Cfg) (lines : List Instr) : List Byte := lines.flatMap (encode c)

/-- The environment issues a script: its frames join the queue of requests (R422). [log 2] -/
def withScript (s : State) (lines : List Instr) : State :=
  s.withPort { s.port with requests := s.port.requests ++ scriptBytes s.cfg lines }

/-- `dma <src>, <dst>, <len>, <ctrl>` (R161). -/
def scriptDma (c : Cfg) (src dst len ctrl : Long) : List Instr :=
  [.wr32 (regAddr c .dmaSrc) src, .wr32 (regAddr c .dmaDst) dst, .wr32 (regAddr c .dmaLen) len,
   .wr8 (regAddr c .dmaCtrl) ctrl]

/-- `hdma <c>, <src>, <dst>, <ctrl>` (R161). -/
def scriptHdma (c : Cfg) (ch : Fin 8) (src dst ctrl : Long) : List Instr :=
  [.wr32 (regAddr c (.hdmaSrc ch)) src, .wr32 (regAddr c (.hdmaDst ch)) dst, .wr32 (regAddr c (.hdmaCtrl ch)) ctrl]

/-- `blit <a>, <b>, <len>, <key>, <func>` (R161). -/
def scriptBlit (c : Cfg) (a b len key func : Long) : List Instr :=
  [.wr32 (regAddr c .blitA) a, .wr32 (regAddr c .blitB) b, .wr32 (regAddr c .blitLen) len,
   .wr32 (regAddr c .blitKey) key, .wr32 (regAddr c .blitFunc) func]

end Sys2Proof.Machine
end

