-- ==== Sys2Proof/Safety.lean ====
section
/-! DEFINITION. The terms claims use: the invariant of the machine, an idle block, a completed and a hanging run. -/

namespace Sys2Proof.Machine

/-- The four regions are canonical and inside their sizes (R21 to R24). -/
def memOk (c : Cfg) (m : Memories) : Bool :=
  m.boot.wf && m.boot.within c.bootSize && m.cart.wf && m.cart.within c.cartSize &&
  m.wram.wf && m.wram.within c.wramSize && m.vram.wf && m.vram.within c.vramSize

/-- The invariant: a configuration that meets R7, and memories in canonical form inside their sizes. -/
def State.inv (s : State) : Bool := cfgWf s.cfg && memOk s.cfg s.mem

/-- No activation is in progress and the block accepts requests (R52, R53, R60). -/
def State.ready (s : State) : Prop := s.provisioned = true ∧ s.stack = []

/-- `k` steps of the machine lead from `s` to `t`. -/
def runsTo (k : Nat) (s t : State) : Prop := Host.Core.run Sys2Proof.core k s = .next t

/-- A hang: every run goes on, and an engine is always still in progress (R376). -/
def hangs (s : State) : Prop := ∀ k, ∃ t, runsTo k s t ∧ t.stack ≠ []

/-- `m` micro-steps. -/
def ticks : Nat → State → State
  | 0, s => s
  | m + 1, s => ticks m (tick s)

/-- A call that a read may make: a poll or a device read (R96). -/
def isReadCall (e : PortEvent) : Prop := e = .poll ∨ ∃ slot off, e = .devRead slot off

/-- A call that a write outside the register window may make: a device write (R97). -/
def isStoreCall (e : PortEvent) : Prop := ∃ slot off v, e = .devWrite slot off v

/-- What a bus read may change: the cached scan code and what stands at the poll and device ports (R96). -/
def readFrame (s t : State) : Prop :=
  ∃ k p, t = (s.withIo { s.io with keyscan := k }).withPort p ∧
    p.requests = s.port.requests ∧ p.result = s.port.result ∧
    ∃ new, p.events = new ++ s.port.events ∧ ∀ e ∈ new, isReadCall e

/-- What a bus write outside the register window may change: the two RAMs and the record of device calls
(R73 to R79). -/
def storeFrame (s t : State) : Prop :=
  ∃ w v new, t = (s.withMem { s.mem with wram := w, vram := v }).withPort
      { s.port with events := new ++ s.port.events } ∧ ∀ e ∈ new, isStoreCall e

/-- The `n` bytes from `a` on, addresses modulo 2^32, lie outside the register window. -/
def outsideWindow (c : Cfg) (a : Addr) (n : Nat) : Prop := ∀ i, i < n → inWindow c (a + BitVec.ofNat 32 i) = false

/-- The `n` bytes from `a` on lie in working RAM: bank 1, outside the window, below `WRAM_SIZE`, without wrapping out of
the bank (R75, R76, R98). -/
def inWram (c : Cfg) (a : Addr) (n : Nat) : Prop :=
  offOf a + n ≤ c.wramSize ∧ outsideWindow c a n ∧
    ∀ i, i < n → bankOf c (a + BitVec.ofNat 32 i) = 1 ∧ offOf (a + BitVec.ofNat 32 i) = offOf a + i

/-- The `n` bytes from `a` on lie in video RAM: bank 0xE, outside the window, below `VRAM_SIZE` (R79, R98). -/
def inVram (c : Cfg) (a : Addr) (n : Nat) : Prop :=
  offOf a + n ≤ c.vramSize ∧ outsideWindow c a n ∧
    ∀ i, i < n → bankOf c (a + BitVec.ofNat 32 i) = 0xE ∧ offOf (a + BitVec.ofNat 32 i) = offOf a + i

/-- A byte backed by writable storage: in working RAM below `WRAM_SIZE` or in video RAM below `VRAM_SIZE`, outside the
window (R98). -/
def ramByte (c : Cfg) (a : Addr) : Prop :=
  inWindow c a = false ∧
    (bankOf c a = 1 ∧ offOf a < c.wramSize ∨ bankOf c a = 0xE ∧ offOf a < c.vramSize)

/-- The working-RAM index that a byte write at `a` stores to (R71, R76). -/
def storesWram (c : Cfg) (a : Addr) (j : Nat) : Prop :=
  inWindow c a = false ∧ bankOf c a = 1 ∧ offOf a = j ∧ j < c.wramSize

/-- The video-RAM index that a byte write at `a` stores to (R71, R79). -/
def storesVram (c : Cfg) (a : Addr) (j : Nat) : Prop :=
  inWindow c a = false ∧ bankOf c a = 0xE ∧ offOf a &&& c.vramWinMask = j ∧ j < c.vramSize

/-- A byte whose read has no side effect because it is neither in the window nor in the device window (R96). -/
def plainAddr (c : Cfg) (a : Addr) : Prop := inWindow c a = false ∧ bankOf c a ≠ 2

/-- What a read of such a byte returns (R73 to R79). -/
def plainByte (s : State) (a : Addr) : Byte :=
  if bankOf s.cfg a = 0 then romRead (offOf a) s
  else if bankOf s.cfg a = 1 then wramRead (offOf a) s
  else if bankOf s.cfg a = 0xE then vramRead (offOf a) s
  else 0

/-- The `n` bytes from `a` on, as they are read, first byte first. -/
def plainBytes (s : State) (a : Addr) (n : Nat) : List Byte :=
  (List.range n).map fun i => plainByte s (a + BitVec.ofNat 32 i)

/-- A write of width `w` at `a` reaches register `r`: natively, or with one of its bytes (R87, R80). -/
def reaches (c : Cfg) (a : Addr) (w : Width) (r : Reg) : Prop :=
  nativeReg c a w = some r ∨
    nativeReg c a w = none ∧ ∃ i, i < w.step ∧ selectReg c (a + BitVec.ofNat 32 i) .byte = some r

/-- The registers whose writing disturbs a DMA transfer (R268, R269). -/
def dmaDisturbers : List Reg := [.dmaSrc, .dmaDst, .dmaLen, .dmaCtrl, .blitFunc]

/-- The registers whose writing disturbs a blitter operation (R350, R351). -/
def blitDisturbers : List Reg := [.blitA, .blitB, .blitLen, .blitKey, .blitFunc, .dmaCtrl]

/-- The DMA command with these fields. -/
def dmaCommand (const : Bool) (code : BitVec 2) (srcInc dstInc : Bool) : Instr :=
  if code = 0 then if const then .dmaFillB srcInc dstInc else .dmaCopyB srcInc dstInc
  else if code = 1 then if const then .dmaFillW srcInc dstInc else .dmaCopyW srcInc dstInc
  else if code = 2 then if const then .dmaFillL srcInc dstInc else .dmaCopyL srcInc dstInc
  else .dmaW3 const srcInc dstInc

/-- The blitter command that moves units by `op`. -/
def blitCommand (op : BlitOp) (skip : Bool) (f : BlitFields) : Instr :=
  match op, skip with
  | .blit, false => .bltBlit f
  | .blit, true => .bltBlitS f
  | .set, false => .bltSet f
  | .set, true => .bltSetS f
  | .invert, false => .bltInv f
  | .invert, true => .bltInvS f

/-- The function number of `op` (R136). -/
def blitNumber : BlitOp → BitVec 4
  | .blit => 1
  | .set => 2
  | .invert => 3

/-! ## Runs of commands and nesting -/

/-- A command leads to `u`: its run, over one step or several, ends in `u` with the stack it began on (R90; log 1). -/
def leadsTo (i : Instr) (s u : State) : Prop :=
  ∃ t k, exec i s = .next t ∧ settle s.stack.length k t = u ∧ u.stack = s.stack

/-- The activation that a write of `d` to an arming register puts on the stack, if it puts one there (R260, R310). -/
def armedBy (r : Reg) (d : Long) (s : State) : Option Activation :=
  if r = .dmaCtrl then
    let v := d.setWidth 8
    match dmacStart v, widthOf s.cfg (dmacWidth v) with
    | true, some w =>
      if fastPath (dmacConst v) w s then none
      else some (.dma { srcInc := dmacSrcInc v, dstInc := dmacDstInc v, const := dmacConst v, width := w } false)
    | _, _ => none
  else if r = .blitFunc then
    match widthOf s.cfg (blitfFields d).width with
    | none => none
    | some w =>
      if blitfFunc d = 1 then some (.blit .blit (blitLatch (blitfFields d) (blitfSkip d) w) .test)
      else if blitfFunc d = 2 then some (.blit .set (blitLatch (blitfFields d) (blitfSkip d) w) .test)
      else if blitfFunc d = 3 then some (.blit .invert (blitLatch (blitfFields d) (blitfSkip d) w) .test)
      else if blitfFunc d = 4 then some (.rle (blitLatch (blitfFields d) (blitfSkip d) w))
      else none
  else none

/-! ## Units moved one after the other, as functions of an index -/

/-- The bytes after `n` bytes `bs` are stored from index `dst` on. -/
def unitStored (n dst : Nat) (bs : Nat → Byte) (m : Nat → Byte) : Nat → Byte :=
  fun j => if dst ≤ j ∧ j < dst + n then bs (j - dst) else m j

/-- The bytes after units 0 to `n - 1` are done in this order, each on what the one before left (R264, R265, R320). -/
def unitsInOrder (f : Nat → (Nat → Byte) → Nat → Byte) : Nat → (Nat → Byte) → Nat → Byte
  | 0, m => m
  | n + 1, m => f n (unitsInOrder f n m)

/-- The bytes after one unit of `n` bytes of a blitter operation from index `src` to index `dst`: Blit copies it unless
it equals the key, Set under stride-skip stores the low bytes of `value`, Invert complements (R320, R331, R335). -/
def blitUnit (op : BlitOp) (keyEn : Bool) (key value : Long) (n src dst : Nat) (m : Nat → Byte) : Nat → Byte :=
  match op with
  | .blit =>
    if keyEn ∧ longOfBytes ((List.range n).map fun x => m (src + x)) = key then m
    else unitStored n dst (fun x => m (src + x)) m
  | .set => unitStored n dst (fun x => value.extractLsb' (8 * (n - 1 - x)) 8) m
  | .invert => unitStored n dst (fun x => ~~~ m (dst + x)) m

/-! ## Streams -/

/-- The stream bytes of a code (R140). -/
def codeBytes : RleCode → List Byte
  | .stop => [0xC0, 0xC0]
  | .run n v => [(3 : BitVec 2) ++ n, v]
  | .lit v => [v]

/-- The bytes a code writes (R340, R341). -/
def codeOutput : RleCode → List Byte
  | .stop => []
  | .run n v => List.replicate n.toNat v
  | .lit v => [v]

/-- A code that does not stop the run and that its bytes stand for (R140). -/
def codeRuns : RleCode → Bool
  | .stop => false
  | .run n v => !(decide (n = 0) && decide (v = 0xC0))
  | .lit v => !rleTwoBytes v

end Sys2Proof.Machine
end

