-- ==== Sys2Proof/Certificates/Slice0/Obligations.lean ====
section
/-! DEFINITION. The statements for the provers. Each is a proposition about the model; its docstring names the rule or the
section of spec/ it formalises, and says where it rests on a choice of the model. Where a statement gives the whole next
state of a write or of an engine run, three clauses of it are the model's own and not the spec's: `port.result` keeps the
last answer (log 6), the request queue stands as it was (log 2), and `port.events` records the calls (log 8). -/

section
open Sys2Proof Sys2Proof.Machine

/-! ## Encoding and decoding -/

/-- Decode and encode agree for every well-formed command in the place where it arrives (30_encoding.md); HDMA.LINE is
the LINE frame as the HDMA engine sees it (R122), so its frame decodes to LINE. Rests on the spec's own decisions D4,
D12, D18, D19, D23, D26, D35 (92_eei_decisions.md). -/
def Obligations.DecodeOfEncodeIsTheCommand : Prop :=
  (∀ (c : Cfg) (i : Instr) (rest : List Byte), cfgWf c = true → wellFormed c i = true → (∀ n, i ≠ .hdmaLine n) →
    decode c (contextOf c i) (encode c i ++ rest) = .ok (i, rest)) ∧
  ∀ (c : Cfg) (n : BitVec 32) (rest : List Byte), wellFormed c (.hdmaLine n) = true →
    decode c (contextOf c (.hdmaLine n)) (encode c (.hdmaLine n) ++ rest) = .ok (.line n, rest)

/-- What the decoder accepts is well formed, and it consumed a front part of the bytes. Rests on the spec's own
decision D35 (92_eei_decisions.md). -/
def Obligations.DecodedCommandsAreWellFormed : Prop :=
  ∀ (c : Cfg) (ctx : Context) (bs : List Byte) (i : Instr) (rest : List Byte),
    decode c ctx bs = .ok (i, rest) → wellFormed c i = true ∧ ∃ front, front ≠ [] ∧ bs = front ++ rest

/-- Words written out bit by bit from 30_encoding.md, one or more of each format, decode to what they stand for. The
address and register words are read under the default configuration, whose sizes, bases and offsets are presumed (log
4). Rests on the spec's own decisions D1, D3, D4, D18, D23, D26, D35 (92_eei_decisions.md). -/
def Obligations.SampleWordsDecode : Prop :=
  decode Cfg.default .bus [0x81, 0x0D, 0x00, 0x00, 0x14, 0x00, 0x00, 0x01, 0x23] =
    .ok (.wr16 0x0D000014 0x123, []) ∧
  decode Cfg.default .bus [0x40, 0x00, 0x00, 0x00, 0x0C, 0x00, 0x00, 0x00, 0x00] = .ok (.line 12, []) ∧
  decode Cfg.default (.addr .read) [0x10, 0x00, 0x00, 0x20] = .ok (.bankWram .read 0x10000020, []) ∧
  decode Cfg.default (.addr (.write 5)) [0xE1, 0x23, 0x45, 0x67] = .ok (.bankVram (.write 5) 0xE1234567, []) ∧
  decode Cfg.default (.addr .read) [0x0D, 0x00, 0x00, 0x40] = .ok (.windowReg .read 0x0D000040, []) ∧
  decode Cfg.default (.reg .rd8) [0x0D, 0x00, 0x00, 0x40] = .ok (.keyscanR, []) ∧
  decode Cfg.default (.reg (.wr32 9)) [0x0D, 0x00, 0x01, 0x9C] = .ok (.hdmaCtrl7W 9, []) ∧
  decode Cfg.default (.reg .rd16) [0x0D, 0x00, 0x01, 0x00] = .ok (.regUnknown .rd16 0x0D000100, []) ∧
  decode Cfg.default .dmac [0x07] = .ok (.dmaCopyB true true, []) ∧
  decode Cfg.default .dmac [0x2D] = .ok (.dmaFillL false true, []) ∧
  decode Cfg.default .dmac [0x3E] = .ok (.dmaNop, []) ∧
  decode Cfg.default (.hdmac 0) [0x00, 0x50, 0x0A, 0x11] = .ok (.hdmaSet 0 true 1 false 10 5, []) ∧
  decode Cfg.default .blitf [0x00, 0x40, 0x02, 0x11] =
    .ok (.bltBlitS { dstStride := 4, srcStride := 2, width := 0, keyEn := false }, []) ∧
  decode Cfg.default .blitf [0x00, 0x00, 0x00, 0x21] =
    .ok (.bltBlit { dstStride := 0, srcStride := 0, width := 0, keyEn := true }, []) ∧
  decode Cfg.default .rle [0xC2, 0x05] = .ok (.rleRun 2 5, []) ∧
  decode Cfg.default .rle [0xC0, 0xC0] = .ok (.rleEnd, []) ∧
  decode Cfg.default .rle [0xBF] = .ok (.rleLit1 0x3F, [])

/-- The ignored bits of the control words are ignored: DMAC bits 7:6, every other bit of a DMAC word whose `START` is
clear, and HDMAC bits 3:1, 6, 19:18, 31:30 (30_encoding.md section 5). Rests on the spec's own decisions D18, D23
(92_eei_decisions.md). -/
def Obligations.IgnoredBitsAreIgnored : Prop :=
  (∀ v : Byte, decodeDmac v = decodeDmac (v &&& 0x3F)) ∧
  (∀ v : Byte, v.getLsbD 0 = false → decodeDmac v = .dmaNop) ∧
  (∀ (ch : Fin 8) (v : Long), decodeHdmac ch v = decodeHdmac ch (v &&& 0x3FF3FFB1))

/-- A register is selected by an access of exactly its width at exactly its offset, and by nothing else
(30_encoding.md section 3, 40_bus_access.md section 1). Rests on the spec's own decisions D4, D40
(92_eei_decisions.md). -/
def Obligations.RegistersAnswerOnlyAtTheirOwnWidthAndOffset : Prop :=
  ∀ (c : Cfg) (a : Addr) (w : Width) (r : Reg), cfgWf c = true →
    (selectReg c a w = some r ↔ a = BitVec.ofNat 32 (c.regBase + regOffset c r) ∧ w = regWidth r)

/-! ## The step and the command levels -/

/-- A ready block accepts the BUS frame at the head of its request queue: the step is `exec` of the decoded command,
with that frame taken off the queue. The queue of waiting frames is the model's own (log 2). Rests on the spec's own
decision D35 (92_eei_decisions.md). -/
def Obligations.StepRunsTheDecodedCommand : Prop :=
  ∀ (s : State) (i : Instr) (rest : List Byte), s.ready → decode s.cfg .bus s.port.requests = .ok (i, rest) →
    step s = exec i (s.withPort { s.port with requests := rest })

/-- While an engine runs nothing is accepted: the step continues the engine and leaves the request queue alone
(60_exceptions.md section 5). How many micro-steps one step makes is the model's choice (log 1), and so is that a
block with no engine running and no request waiting steps to itself (log 3). -/
def Obligations.StepsThatAcceptNothing : Prop :=
  (∀ s : State, s.provisioned = true → s.stack ≠ [] →
    step s = .next (settle 0 Config.burst s) ∧ (settle 0 Config.burst s).port.requests = s.port.requests) ∧
  ∀ s : State, s.ready → s.port.requests = [] → step s = .next s

/-- A frame whose `op` is none of the seven is no transaction, and the model refuses it: the seven are listed in
30_encoding.md section 1, the refusal is that of section 8. That a shorter string of bytes with such an `op` is
refused too is the model's reading (log 9). Rests on the spec's own decision D35 (92_eei_decisions.md). -/
def Obligations.BytesThatAreNoTransactionAreRefused : Prop :=
  ∀ (s : State) (op : Byte) (rest : List Byte), s.ready → s.port.requests = op :: rest →
    op ∉ [0x00, 0x01, 0x02, 0x80, 0x81, 0x82, 0x40] → step s = .refused .notATransaction

/-- A block whose provisioning failed refuses every request, and the failure is reported by a non-zero status
(60_exceptions.md section 1). Rests on the spec's own decision D34 (92_eei_decisions.md). -/
def Obligations.AnUnprovisionedBlockRefusesEverything : Prop :=
  (∀ s : State, s.provisioned = false →
    step s = .refused .notProvisioned ∧ ∀ i, exec i s = .refused .notProvisioned) ∧
  provisionStatus true = 0 ∧ provisionStatus false ≠ 0 ∧
  ∀ c boot cart, (State.provision false c boot cart).provisioned = false

/-- No command faults and none is refused by a provisioned block, whatever its operands (60_exceptions.md section 1,
20_memory.md section 3). What the next state is, the statements about each command say; that a command whose run never
ends answers one too is the model's choice (log 1). -/
def Obligations.EveryCommandOfAProvisionedBlockAnswersANextState : Prop :=
  ∀ (i : Instr) (s : State), s.provisioned = true → ∃ t, exec i s = .next t

/-- The levels of the opcode table agree: a bus operation does what the decoder row or register row it selects does, a
write of a control register does what its control word does, and a scanline event is the HDMA engine's (20_memory.md
section 2, 40_bus_access.md, 41_register_file.md). Rests on the spec's own decisions D4, D5, D6, D7, D14, D18, D23,
D26, D39, D40 (92_eei_decisions.md). -/
def Obligations.ACommandRunsTheRowItSelects : Prop :=
  ∀ (s : State) (i j : Instr), refine s.cfg i = some j → exec i s = exec j s

/-! ## Invariants and reset -/

/-- From every state with a legal configuration and canonical memories inside their sizes, every step that answers
leads to such a state. -/
def Obligations.EveryStepKeepsTheInvariant : Prop :=
  ∀ s t : State, s.inv = true → step s = .next t → t.inv = true

/-- Provisioning with a legal configuration and canonical images gives a state that meets the invariant; reset is one.
Reset's configuration is the default one, whose sizes, bases and offsets are presumed (log 4). Rests on the spec's own
decision D33 (92_eei_decisions.md). -/
def Obligations.ProvisioningEstablishesTheInvariant : Prop :=
  State.reset.inv = true ∧
  ∀ (ok : Bool) (c : Cfg) (boot cart : Memory), cfgWf c = true → boot.wf = true → boot.within c.bootSize = true →
    cart.wf = true → cart.within c.cartSize = true → (State.provision ok c boot cart).inv = true

/-- No command changes the configuration, the device table in it, `PROVISIONED`, or a byte of ROM, and none takes a
request off the queue (10_state.md section 9, 70_reset_and_hazards.md section 1). The request queue is the model's own
(log 2). Rests on the spec's own decision D8 (92_eei_decisions.md). -/
def Obligations.NoCommandChangesConfigurationOrRom : Prop :=
  ∀ (i : Instr) (s t : State), exec i s = .next t →
    t.cfg = s.cfg ∧ t.provisioned = s.provisioned ∧ t.mem.boot = s.mem.boot ∧ t.mem.cart = s.mem.cart ∧
    t.port.requests = s.port.requests

/-- The reset values of R67, the spec's own decisions D15, D22 and D33 among them (92_eei_decisions.md). -/
def Obligations.ResetValues : Prop :=
  ∀ (c : Cfg) (boot cart : Memory), ∃ s, s = State.provision true c boot cart ∧
    s.mem.boot = boot ∧ s.mem.cart = cart ∧ (∀ j, s.mem.wram.read j = 0) ∧ (∀ j, s.mem.vram.read j = 0) ∧
    s.display.mode = 0 ∧ s.display.f5 = false ∧ s.display.f6 = false ∧ s.display.f7 = false ∧
    s.display.shift0 = 0 ∧ s.display.shift1 = 0 ∧ s.display.en0 = false ∧ s.display.en1 = false ∧
    (∀ i : Fin 4, s.display.blend[i] = 0 ∧ s.display.scrollX[i] = 0 ∧ s.display.scrollY[i] = 0) ∧
    s.io.ticks = 0 ∧ s.io.intFlags = 0 ∧ s.io.joypad0 = 0 ∧ s.io.joypad1 = 0 ∧ s.io.keyscan = 0 ∧
    s.dma = { src := 0, dst := 0, len := 0 } ∧ s.blit = { a := 0, b := 0, len := 0, key := 0 } ∧
    (∀ ch : Fin 8, s.hdma[ch] =
      { en := false, dbl := false, width := 0, start := 0, count := 0, src := 0, dst := 0 }) ∧
    s.stack = [] ∧ s.cfg.dev = c.dev ∧ s.provisioned = true ∧
    (∀ j, (State.provision true c [] []).mem.boot.read j = 0 ∧ (State.provision true c [] []).mem.cart.read j = 0)

/-! ## The register file -/

/-- A read of a display register answers its fields in their places and changes nothing else (41_register_file.md
sections 1 and 2). Rests on the spec's own decisions D12, D13 (92_eei_decisions.md). -/
def Obligations.DisplayRegistersReadTheirFields : Prop :=
  ∀ s : State, s.provisioned = true →
    exec .screenModeR s = .next (answer ((BitVec.ofBool s.display.f7 ++ BitVec.ofBool s.display.f6 ++
      BitVec.ofBool s.display.f5 ++ (0 : BitVec 1) ++ s.display.mode).setWidth 32) s) ∧
    exec .tilemapSetR s = .next (answer ((BitVec.ofBool s.display.en1 ++ BitVec.ofBool s.display.en0 ++
      (0 : BitVec 2) ++ s.display.shift1 ++ s.display.shift0).setWidth 32) s) ∧
    (∃ v : Byte, exec .tilemapBlendR s = .next (answer (v.setWidth 32) s) ∧
      ∀ i : Fin 4, v.getLsbD i = s.display.blend[i].getLsbD 0 ∧ v.getLsbD (4 + i) = s.display.blend[i].getLsbD 1) ∧
    exec .scrollX0R s = .next (answer (s.display.scrollX[0].setWidth 32) s) ∧
    exec .scrollY0R s = .next (answer (s.display.scrollY[0].setWidth 32) s) ∧
    exec .scrollX1R s = .next (answer (s.display.scrollX[1].setWidth 32) s) ∧
    exec .scrollY1R s = .next (answer (s.display.scrollY[1].setWidth 32) s) ∧
    exec .scrollX2R s = .next (answer (s.display.scrollX[2].setWidth 32) s) ∧
    exec .scrollY2R s = .next (answer (s.display.scrollY[2].setWidth 32) s) ∧
    exec .scrollX3R s = .next (answer (s.display.scrollX[3].setWidth 32) s) ∧
    exec .scrollY3R s = .next (answer (s.display.scrollY[3].setWidth 32) s)

/-- A write of a display register sets its fields from their places, discards the other bits, and changes nothing else
(41_register_file.md sections 1 and 2). Rests on the spec's own decisions D12, D13 (92_eei_decisions.md). -/
def Obligations.DisplayRegisterWritesSetTheirFields : Prop :=
  ∀ (s : State) (v : Byte) (h : Half), s.provisioned = true →
    exec (.screenModeW v) s = .next (s.withDisplay { s.display with
      mode := v.extractLsb' 0 4, f5 := v.getLsbD 5, f6 := v.getLsbD 6, f7 := v.getLsbD 7 }) ∧
    exec (.tilemapSetW v) s = .next (s.withDisplay { s.display with
      shift0 := v.extractLsb' 0 2, shift1 := v.extractLsb' 2 2, en0 := v.getLsbD 6, en1 := v.getLsbD 7 }) ∧
    exec (.tilemapBlendW v) s = .next (s.withDisplay { s.display with
      blend := Vector.ofFn fun i : Fin 4 => v.extractLsb' (4 + i) 1 ++ v.extractLsb' i 1 }) ∧
    exec (.scrollX0W h) s = .next (s.withDisplay { s.display with
      scrollX := s.display.scrollX.set 0 (h.extractLsb' 0 9) }) ∧
    exec (.scrollY0W h) s = .next (s.withDisplay { s.display with
      scrollY := s.display.scrollY.set 0 (h.extractLsb' 0 9) }) ∧
    exec (.scrollX1W h) s = .next (s.withDisplay { s.display with
      scrollX := s.display.scrollX.set 1 (h.extractLsb' 0 9) }) ∧
    exec (.scrollY1W h) s = .next (s.withDisplay { s.display with
      scrollY := s.display.scrollY.set 1 (h.extractLsb' 0 9) }) ∧
    exec (.scrollX2W h) s = .next (s.withDisplay { s.display with
      scrollX := s.display.scrollX.set 2 (h.extractLsb' 0 9) }) ∧
    exec (.scrollY2W h) s = .next (s.withDisplay { s.display with
      scrollY := s.display.scrollY.set 2 (h.extractLsb' 0 9) }) ∧
    exec (.scrollX3W h) s = .next (s.withDisplay { s.display with
      scrollX := s.display.scrollX.set 3 (h.extractLsb' 0 9) }) ∧
    exec (.scrollY3W h) s = .next (s.withDisplay { s.display with
      scrollY := s.display.scrollY.set 3 (h.extractLsb' 0 9) })

/-- `JOYPAD0`, `JOYPAD1`, `INT_FLAGS` and `TICKS` are plain scalars; a write of `KEYSCAN` does nothing; a write of
`MSG_OUT` emits its value once, and a read of it answers 0 (41_register_file.md section 3). The record of emitted
values, newest first, is the model's own (log 8). Rests on the spec's own decisions D4, D15, D16, D17
(92_eei_decisions.md). -/
def Obligations.ScalarRegistersReadAndWrite : Prop :=
  ∀ (s : State) (v : Byte) (x : Long), s.provisioned = true →
    exec .joypad0R s = .next (answer (s.io.joypad0.setWidth 32) s) ∧
    exec (.joypad0W v) s = .next (s.withIo { s.io with joypad0 := v }) ∧
    exec .joypad1R s = .next (answer (s.io.joypad1.setWidth 32) s) ∧
    exec (.joypad1W v) s = .next (s.withIo { s.io with joypad1 := v }) ∧
    exec .intFlagsR s = .next (answer (s.io.intFlags.setWidth 32) s) ∧
    exec (.intFlagsW v) s = .next (s.withIo { s.io with intFlags := v }) ∧
    exec .ticksR s = .next (answer s.io.ticks s) ∧
    exec (.ticksW x) s = .next (s.withIo { s.io with ticks := x }) ∧
    exec (.keyscanW v) s = .next s ∧
    exec .msgOutR s = .next (answer 0 s) ∧
    exec (.msgOutW x) s = .next (s.withPort { s.port with events := .out x :: s.port.events })

/-- A read of `KEYSCAN` polls once, caches the answer and returns it; the answer is the next listed one, or, where
none is listed, some byte (41_register_file.md section 3). The lists of answers and calls are the model's own (logs 7,
8). Rests on the spec's own decision D15 (92_eei_decisions.md). -/
def Obligations.KeyscanReadsPoll : Prop :=
  (∀ (s : State) (v : Byte) (vs : List Byte), s.provisioned = true → s.port.pollAnswers = v :: vs →
    exec .keyscanR s = .next ((s.withIo { s.io with keyscan := v }).withPort
      { s.port with pollAnswers := vs, events := .poll :: s.port.events, result := v.setWidth 32 })) ∧
  ∀ s : State, s.provisioned = true → s.port.pollAnswers = [] →
    ∃ v : Byte, exec .keyscanR s = .next ((s.withIo { s.io with keyscan := v }).withPort
      { s.port with draws := s.port.draws + 1, events := .poll :: s.port.events, result := v.setWidth 32 })

/-- The seven operand registers of the DMA engine and the blitter hold what is written (41_register_file.md sections 4
and 6). Rests on the spec's own decisions D4, D42 (92_eei_decisions.md). -/
def Obligations.OperandRegistersReadAndWrite : Prop :=
  ∀ (s : State) (x : Long), s.provisioned = true →
    exec .dmaSrcR s = .next (answer s.dma.src s) ∧
    exec (.dmaSrcW x) s = .next (s.withDma { s.dma with src := x }) ∧
    exec .dmaDstR s = .next (answer s.dma.dst s) ∧
    exec (.dmaDstW x) s = .next (s.withDma { s.dma with dst := x }) ∧
    exec .dmaLenR s = .next (answer s.dma.len s) ∧
    exec (.dmaLenW x) s = .next (s.withDma { s.dma with len := x }) ∧
    exec .blitAR s = .next (answer s.blit.a s) ∧
    exec (.blitAW x) s = .next (s.withBlit { s.blit with a := x }) ∧
    exec .blitBR s = .next (answer s.blit.b s) ∧
    exec (.blitBW x) s = .next (s.withBlit { s.blit with b := x }) ∧
    exec .blitLenR s = .next (answer s.blit.len s) ∧
    exec (.blitLenW x) s = .next (s.withBlit { s.blit with len := x }) ∧
    exec .blitKeyR s = .next (answer s.blit.key s) ∧
    exec (.blitKeyW x) s = .next (s.withBlit { s.blit with key := x })

/-- `DMA_CTRL`, the HDMA registers and `BLIT_FUNC` read 0, without effect (41_register_file.md sections 4 to 6). Rests
on the spec's own decisions D14, D18, D23, D26, D41 (92_eei_decisions.md). -/
def Obligations.WriteOnlyRegistersReadZero : Prop :=
  ∀ s : State, s.provisioned = true →
    exec .dmaCtrlR s = .next (answer 0 s) ∧
    exec .hdmaCtrl0R s = .next (answer 0 s) ∧
    exec .hdmaCtrl1R s = .next (answer 0 s) ∧
    exec .hdmaCtrl2R s = .next (answer 0 s) ∧
    exec .hdmaCtrl3R s = .next (answer 0 s) ∧
    exec .hdmaCtrl4R s = .next (answer 0 s) ∧
    exec .hdmaCtrl5R s = .next (answer 0 s) ∧
    exec .hdmaCtrl6R s = .next (answer 0 s) ∧
    exec .hdmaCtrl7R s = .next (answer 0 s) ∧
    exec .hdmaSrc0R s = .next (answer 0 s) ∧
    exec .hdmaSrc1R s = .next (answer 0 s) ∧
    exec .hdmaSrc2R s = .next (answer 0 s) ∧
    exec .hdmaSrc3R s = .next (answer 0 s) ∧
    exec .hdmaSrc4R s = .next (answer 0 s) ∧
    exec .hdmaSrc5R s = .next (answer 0 s) ∧
    exec .hdmaSrc6R s = .next (answer 0 s) ∧
    exec .hdmaSrc7R s = .next (answer 0 s) ∧
    exec .hdmaDst0R s = .next (answer 0 s) ∧
    exec .hdmaDst1R s = .next (answer 0 s) ∧
    exec .hdmaDst2R s = .next (answer 0 s) ∧
    exec .hdmaDst3R s = .next (answer 0 s) ∧
    exec .hdmaDst4R s = .next (answer 0 s) ∧
    exec .hdmaDst5R s = .next (answer 0 s) ∧
    exec .hdmaDst6R s = .next (answer 0 s) ∧
    exec .hdmaDst7R s = .next (answer 0 s) ∧
    exec .blitFuncR s = .next (answer 0 s)

/-- A write of `HDMA_SRC[c]` or `HDMA_DST[c]` sets that field of that channel and nothing else; no transfer happens
(41_register_file.md section 5). Rests on the spec's own decisions D14, D41 (92_eei_decisions.md). -/
def Obligations.HdmaAddressRegistersSetTheirChannel : Prop :=
  ∀ (s : State) (x : Long), s.provisioned = true →
    exec (.hdmaSrc0W x) s = .next (s.withHdma (s.hdma.set 0 { s.hdma[0] with src := x })) ∧
    exec (.hdmaSrc1W x) s = .next (s.withHdma (s.hdma.set 1 { s.hdma[1] with src := x })) ∧
    exec (.hdmaSrc2W x) s = .next (s.withHdma (s.hdma.set 2 { s.hdma[2] with src := x })) ∧
    exec (.hdmaSrc3W x) s = .next (s.withHdma (s.hdma.set 3 { s.hdma[3] with src := x })) ∧
    exec (.hdmaSrc4W x) s = .next (s.withHdma (s.hdma.set 4 { s.hdma[4] with src := x })) ∧
    exec (.hdmaSrc5W x) s = .next (s.withHdma (s.hdma.set 5 { s.hdma[5] with src := x })) ∧
    exec (.hdmaSrc6W x) s = .next (s.withHdma (s.hdma.set 6 { s.hdma[6] with src := x })) ∧
    exec (.hdmaSrc7W x) s = .next (s.withHdma (s.hdma.set 7 { s.hdma[7] with src := x })) ∧
    exec (.hdmaDst0W x) s = .next (s.withHdma (s.hdma.set 0 { s.hdma[0] with dst := x })) ∧
    exec (.hdmaDst1W x) s = .next (s.withHdma (s.hdma.set 1 { s.hdma[1] with dst := x })) ∧
    exec (.hdmaDst2W x) s = .next (s.withHdma (s.hdma.set 2 { s.hdma[2] with dst := x })) ∧
    exec (.hdmaDst3W x) s = .next (s.withHdma (s.hdma.set 3 { s.hdma[3] with dst := x })) ∧
    exec (.hdmaDst4W x) s = .next (s.withHdma (s.hdma.set 4 { s.hdma[4] with dst := x })) ∧
    exec (.hdmaDst5W x) s = .next (s.withHdma (s.hdma.set 5 { s.hdma[5] with dst := x })) ∧
    exec (.hdmaDst6W x) s = .next (s.withHdma (s.hdma.set 6 { s.hdma[6] with dst := x })) ∧
    exec (.hdmaDst7W x) s = .next (s.withHdma (s.hdma.set 7 { s.hdma[7] with dst := x }))

/-- A write of `HDMA_CTRL[c]`, and the control word it carries, set the five control fields of that channel; `SRC` and
`DST` are not touched and no transfer happens (41_register_file.md section 5, 43_hdma.md section 1). Rests on the
spec's own decisions D14, D23 (92_eei_decisions.md). -/
def Obligations.HdmaControlWritesSetTheirChannel : Prop :=
  (∀ (s : State) (x : Long), s.provisioned = true →
    exec (.hdmaCtrl0W x) s = .next (s.withHdma (s.hdma.set 0 { s.hdma[0] with
      en := x.getLsbD 0, width := x.extractLsb' 4 2, dbl := x.getLsbD 7,
      start := x.extractLsb' 8 10, count := x.extractLsb' 20 10 })) ∧
    exec (.hdmaCtrl1W x) s = .next (s.withHdma (s.hdma.set 1 { s.hdma[1] with
      en := x.getLsbD 0, width := x.extractLsb' 4 2, dbl := x.getLsbD 7,
      start := x.extractLsb' 8 10, count := x.extractLsb' 20 10 })) ∧
    exec (.hdmaCtrl2W x) s = .next (s.withHdma (s.hdma.set 2 { s.hdma[2] with
      en := x.getLsbD 0, width := x.extractLsb' 4 2, dbl := x.getLsbD 7,
      start := x.extractLsb' 8 10, count := x.extractLsb' 20 10 })) ∧
    exec (.hdmaCtrl3W x) s = .next (s.withHdma (s.hdma.set 3 { s.hdma[3] with
      en := x.getLsbD 0, width := x.extractLsb' 4 2, dbl := x.getLsbD 7,
      start := x.extractLsb' 8 10, count := x.extractLsb' 20 10 })) ∧
    exec (.hdmaCtrl4W x) s = .next (s.withHdma (s.hdma.set 4 { s.hdma[4] with
      en := x.getLsbD 0, width := x.extractLsb' 4 2, dbl := x.getLsbD 7,
      start := x.extractLsb' 8 10, count := x.extractLsb' 20 10 })) ∧
    exec (.hdmaCtrl5W x) s = .next (s.withHdma (s.hdma.set 5 { s.hdma[5] with
      en := x.getLsbD 0, width := x.extractLsb' 4 2, dbl := x.getLsbD 7,
      start := x.extractLsb' 8 10, count := x.extractLsb' 20 10 })) ∧
    exec (.hdmaCtrl6W x) s = .next (s.withHdma (s.hdma.set 6 { s.hdma[6] with
      en := x.getLsbD 0, width := x.extractLsb' 4 2, dbl := x.getLsbD 7,
      start := x.extractLsb' 8 10, count := x.extractLsb' 20 10 })) ∧
    exec (.hdmaCtrl7W x) s = .next (s.withHdma (s.hdma.set 7 { s.hdma[7] with
      en := x.getLsbD 0, width := x.extractLsb' 4 2, dbl := x.getLsbD 7,
      start := x.extractLsb' 8 10, count := x.extractLsb' 20 10 }))) ∧
  ∀ (s : State) (ch : Fin 8) (en : Bool) (w : BitVec 2) (dbl : Bool) (start count : BitVec 10), s.provisioned = true →
    exec (.hdmaSet ch en w dbl start count) s = .next (s.withHdma (s.hdma.set ch { s.hdma[ch] with
      en := en, width := w, dbl := dbl, start := start, count := count }))

/-- An access of the window that selects no register reads 0 and writes nothing, at every width; a wider one so long
as no byte of it selects a register either, and otherwise it is the composed access of its bytes (41_register_file.md
section 7, 20_memory.md section 6, 40_bus_access.md sections 2 and 3). That a wider access is composed from bytes
first is the model's reading (log 13). Rests on the spec's own decisions D5, D6, D7 (92_eei_decisions.md). -/
def Obligations.UnknownRegistersReadZeroAndIgnoreWrites : Prop :=
  (∀ (s : State) (a : Addr) (v : Byte), s.provisioned = true →
    exec (.regUnknown .rd8 a) s = .next (answer 0 s) ∧ exec (.regUnknown (.wr8 v) a) s = .next s) ∧
  (∀ (s : State) (a : Addr) (v : Half), s.provisioned = true →
    (∀ i, i < 2 → inWindow s.cfg (a + BitVec.ofNat 32 i) = true ∧
      selectReg s.cfg (a + BitVec.ofNat 32 i) .byte = none) →
    exec (.regUnknown .rd16 a) s = .next (answer 0 s) ∧ exec (.regUnknown (.wr16 v) a) s = .next s) ∧
  (∀ (s : State) (a : Addr) (v : Long), s.provisioned = true →
    (∀ i, i < 4 → inWindow s.cfg (a + BitVec.ofNat 32 i) = true ∧
      selectReg s.cfg (a + BitVec.ofNat 32 i) .byte = none) →
    exec (.regUnknown .rd32 a) s = .next (answer 0 s) ∧ exec (.regUnknown (.wr32 v) a) s = .next s) ∧
  ∀ (s : State) (a : Addr) (v : Half) (x : Long),
    (selectReg s.cfg a .word = none → exec (.regUnknown .rd16 a) s = exec (.rd16 a) s ∧
      exec (.regUnknown (.wr16 v) a) s = exec (.wr16 a (v.setWidth 32)) s) ∧
    (selectReg s.cfg a .long = none → exec (.regUnknown .rd32 a) s = exec (.rd32 a) s ∧
      exec (.regUnknown (.wr32 x) a) s = exec (.wr32 a x) s)

/-! ## The decoder rows -/

/-- A byte access in the window does what the 8-bit register at that offset does, and where there is none it reads 0
and writes nothing, so a byte of a wider register reads 0 and ignores writes (20_memory.md sections 3 and 6). -/
def Obligations.WindowByteAccessesGoToTheRegister : Prop :=
  ∀ (s : State) (a : Addr) (v : Byte), s.provisioned = true → inWindow s.cfg a = true →
    (∀ r, selectReg s.cfg a .byte = some r →
      exec (.windowReg .read a) s = exec (regReadRow r) s ∧
      exec (.windowReg (.write v) a) s = exec (regWriteRow r (v.setWidth 32)) s) ∧
    (selectReg s.cfg a .byte = none →
      exec (.windowReg .read a) s = .next (answer 0 s) ∧ exec (.windowReg (.write v) a) s = .next s)

/-- Bank 0: boot ROM below `BOOT_SIZE`, cartridge ROM from `CART_BASE` on, 0 in the gap; a write does nothing (R74,
R78). What the row does at an address of another bank is the model's choice (log 12). Rests on the spec's own
decisions D8, D9 (92_eei_decisions.md). -/
def Obligations.RomReadsAndIgnoresWrites : Prop :=
  ∀ (s : State) (a : Addr) (v : Byte), s.provisioned = true →
    (offOf a < s.cfg.bootSize → exec (.bankRom .read a) s =
      .next (answer ((s.mem.boot.read (offOf a &&& (s.cfg.bootSize - 1))).setWidth 32) s)) ∧
    (s.cfg.bootSize ≤ offOf a → s.cfg.cartBase ≤ offOf a → exec (.bankRom .read a) s =
      .next (answer ((s.mem.cart.read ((offOf a - s.cfg.cartBase) &&& (s.cfg.cartSize - 1))).setWidth 32) s)) ∧
    (s.cfg.bootSize ≤ offOf a → offOf a < s.cfg.cartBase → exec (.bankRom .read a) s = .next (answer 0 s)) ∧
    exec (.bankRom (.write v) a) s = .next s

/-- Bank 1: a read is masked by the size; a write stores one byte below the size and nothing else, and does nothing
above it (R75, R76). -/
def Obligations.WorkingRamReadsMirrorAndWritesDoNot : Prop :=
  ∀ (s : State) (a : Addr) (v : Byte), s.provisioned = true → s.inv = true → inWindow s.cfg a = false →
    bankOf s.cfg a = 1 →
    exec (.bankWram .read a) s =
      .next (answer ((s.mem.wram.read (offOf a &&& (s.cfg.wramSize - 1))).setWidth 32) s) ∧
    ∃ t, exec (.bankWram (.write v) a) s = .next t ∧ t = s.withMem { s.mem with wram := t.mem.wram } ∧
      ∀ j, t.mem.wram.read j = if offOf a < s.cfg.wramSize ∧ j = offOf a then v else s.mem.wram.read j

/-- Bank 0xE: the offset is masked to the window; below `VRAM_SIZE` the byte is read or stored, beyond it a read
answers 0 and a write does nothing (R79). -/
def Obligations.VideoRamReadsAndWritesInsideItsWindow : Prop :=
  ∀ (s : State) (a : Addr) (v : Byte), s.provisioned = true → s.inv = true → inWindow s.cfg a = false →
    bankOf s.cfg a = 0xE →
    (offOf a &&& s.cfg.vramWinMask < s.cfg.vramSize → exec (.bankVram .read a) s =
      .next (answer ((s.mem.vram.read (offOf a &&& s.cfg.vramWinMask)).setWidth 32) s)) ∧
    (s.cfg.vramSize ≤ offOf a &&& s.cfg.vramWinMask → exec (.bankVram .read a) s = .next (answer 0 s)) ∧
    ∃ t, exec (.bankVram (.write v) a) s = .next t ∧ t = s.withMem { s.mem with vram := t.mem.vram } ∧
      ∀ j, t.mem.vram.read j =
        if offOf a &&& s.cfg.vramWinMask < s.cfg.vramSize ∧ j = offOf a &&& s.cfg.vramWinMask then v
        else s.mem.vram.read j

/-- Banks 0x3 to 0xD and 0xF: reads return 0, writes are no-ops (20_memory.md section 3). What a row does at an
address of another bank is the model's choice (log 12). -/
def Obligations.UnmappedBanksReadZeroAndIgnoreWrites : Prop :=
  ∀ (s : State) (a : Addr) (v : Byte), s.provisioned = true →
    exec (.bankNone3 .read a) s = .next (answer 0 s) ∧ exec (.bankNone3 (.write v) a) s = .next s ∧
    exec (.bankNone4 .read a) s = .next (answer 0 s) ∧ exec (.bankNone4 (.write v) a) s = .next s ∧
    exec (.bankNone5 .read a) s = .next (answer 0 s) ∧ exec (.bankNone5 (.write v) a) s = .next s ∧
    exec (.bankNone6 .read a) s = .next (answer 0 s) ∧ exec (.bankNone6 (.write v) a) s = .next s ∧
    exec (.bankNone7 .read a) s = .next (answer 0 s) ∧ exec (.bankNone7 (.write v) a) s = .next s ∧
    exec (.bankNone8 .read a) s = .next (answer 0 s) ∧ exec (.bankNone8 (.write v) a) s = .next s ∧
    exec (.bankNone9 .read a) s = .next (answer 0 s) ∧ exec (.bankNone9 (.write v) a) s = .next s ∧
    exec (.bankNoneA .read a) s = .next (answer 0 s) ∧ exec (.bankNoneA (.write v) a) s = .next s ∧
    exec (.bankNoneB .read a) s = .next (answer 0 s) ∧ exec (.bankNoneB (.write v) a) s = .next s ∧
    exec (.bankNoneC .read a) s = .next (answer 0 s) ∧ exec (.bankNoneC (.write v) a) s = .next s ∧
    exec (.bankNoneD .read a) s = .next (answer 0 s) ∧ exec (.bankNoneD (.write v) a) s = .next s ∧
    exec (.bankNoneF .read a) s = .next (answer 0 s) ∧ exec (.bankNoneF (.write v) a) s = .next s

/-- Bank 2: the offset selects a slot and a place within it; a present device is called, its answer cut to 8 bits; an
absent slot, or a slot number above 15, reads 0 and ignores writes (R77). The lists of answers and calls are the
model's own (logs 7, 8), and so is what the row does at an address of another bank (log 12). Rests on the spec's own
decisions D10, D11 (92_eei_decisions.md). -/
def Obligations.DeviceWindowCallsItsSlot : Prop :=
  ∀ (s : State) (a : Addr) (v : Byte), s.provisioned = true →
    (∀ slot : Fin 16, offOf a / s.cfg.devBlock = slot → s.cfg.dev[slot] = true →
      (∀ x xs, s.port.devAnswers = x :: xs → exec (.bankDev .read a) s = .next (s.withPort { s.port with
        devAnswers := xs, events := .devRead slot (offOf a % s.cfg.devBlock) :: s.port.events,
        result := BitVec.ofNat 32 (x % 256) })) ∧
      (s.port.devAnswers = [] → ∃ b : Byte, exec (.bankDev .read a) s = .next (s.withPort { s.port with
        draws := s.port.draws + 1, events := .devRead slot (offOf a % s.cfg.devBlock) :: s.port.events,
        result := b.setWidth 32 })) ∧
      exec (.bankDev (.write v) a) s = .next (s.withPort { s.port with
        events := .devWrite slot (offOf a % s.cfg.devBlock) v :: s.port.events })) ∧
    ((∀ slot : Fin 16, offOf a / s.cfg.devBlock = slot → s.cfg.dev[slot] = false) →
      exec (.bankDev .read a) s = .next (answer 0 s) ∧ exec (.bankDev (.write v) a) s = .next s)

/-! ## The bus operations -/

/-- A read of two or four bytes that is not the read of a native register is the byte reads in ascending address
order, each with all its effects before the next and each decoded on its own, the byte at the lowest address most
significant, addresses modulo 2^32: inside the window, outside it and across its edges. A read whose bytes lie outside
the window and the device window answers those bytes and changes nothing else (40_bus_access.md sections 2 and 5).
Rests on the spec's own decisions D5, D6, D7 (92_eei_decisions.md). -/
def Obligations.ReadsAreComposedMostSignificantByteFirst : Prop :=
  (∀ (s : State) (a : Addr), s.provisioned = true →
    (plainAddr s.cfg a → exec (.rd8 a) s = .next (answer ((plainByte s a).setWidth 32) s)) ∧
    (plainAddr s.cfg a → plainAddr s.cfg (a + 1) →
      exec (.rd16 a) s = .next (answer ((plainByte s a ++ plainByte s (a + 1)).setWidth 32) s)) ∧
    (plainAddr s.cfg a → plainAddr s.cfg (a + 1) → plainAddr s.cfg (a + 2) → plainAddr s.cfg (a + 3) →
      exec (.rd32 a) s = .next (answer
        (plainByte s a ++ plainByte s (a + 1) ++ plainByte s (a + 2) ++ plainByte s (a + 3)) s))) ∧
  (∀ (s : State) (a : Addr), s.provisioned = true → selectReg s.cfg a .word = none →
    ∃ t u, exec (.rd8 a) s = .next t ∧ exec (.rd8 (a + 1)) t = .next u ∧
      exec (.rd16 a) s = .next (answer (t.port.result <<< 8 ||| u.port.result) u)) ∧
  ∀ (s : State) (a : Addr), s.provisioned = true → selectReg s.cfg a .long = none →
    ∃ t u v w, exec (.rd8 a) s = .next t ∧ exec (.rd8 (a + 1)) t = .next u ∧ exec (.rd8 (a + 2)) u = .next v ∧
      exec (.rd8 (a + 3)) v = .next w ∧
      exec (.rd32 a) s = .next (answer (t.port.result <<< 24 ||| u.port.result <<< 16 ||| v.port.result <<< 8 |||
        w.port.result) w)

/-- A read at any address and width completes; beside its answer it changes at most the cached scan code and what
stands at the poll and device ports, and the only calls it makes there are polls and device reads (20_memory.md
section 6). The record of calls and the request queue are the model's own (logs 8 and 2). -/
def Obligations.ReadsChangeOnlyTheScanCodeAndThePorts : Prop :=
  ∀ (s : State) (a : Addr) (i : Instr), s.provisioned = true → i ∈ [.rd8 a, .rd16 a, .rd32 a] →
    ∃ t k p v new, exec i s = .next t ∧ t = (s.withIo { s.io with keyscan := k }).withPort p ∧
      p.requests = s.port.requests ∧ p.result = v ∧
      (i = .rd8 a → v.toNat < 2 ^ 8) ∧ (i = .rd16 a → v.toNat < 2 ^ 16) ∧
      p.events = new ++ s.port.events ∧ ∀ e ∈ new, isReadCall e

/-- A write whose bytes lie outside the window completes, stores the low bytes of its value most significant first
into the bytes of working RAM and video RAM it addresses (the last one where the video window's mask makes two bytes
meet), calls devices only, and none where no byte lies in the device window, and leaves every other byte of both RAMs,
every register, every channel and the engines as they were. A write of two or four bytes that is not the write of a
native register, inside the window, outside it or across its edges, is the byte writes in ascending address order,
each with all its effects, an engine it arms included, before the next (40_bus_access.md sections 3 and 5,
20_memory.md section 3). That a run may take more than one step is the model's choice (log 1), and the record of calls
is its own (log 8). Rests on the spec's own decisions D5, D6, D7, D39 (92_eei_decisions.md). -/
def Obligations.WritesStoreOnlyTheirOwnBytes : Prop :=
  (∀ (s : State) (a : Addr) (d : Long) (w : Width) (i : Instr), s.provisioned = true → s.inv = true →
    (w, i) ∈ [(Width.byte, Instr.wr8 a d), (.word, .wr16 a d), (.long, .wr32 a d)] → outsideWindow s.cfg a w.step →
    ∃ t new, exec i s = .next t ∧ t = (s.withMem { s.mem with wram := t.mem.wram, vram := t.mem.vram }).withPort
        { s.port with events := new ++ s.port.events } ∧
      (∀ e ∈ new, isStoreCall e) ∧
      ((∀ k, k < w.step → bankOf s.cfg (a + BitVec.ofNat 32 k) ≠ 2) → new = []) ∧
      (∀ k j, k < w.step → storesWram s.cfg (a + BitVec.ofNat 32 k) j →
        t.mem.wram.read j = d.extractLsb' (8 * (w.step - 1 - k)) 8) ∧
      (∀ j, (∀ k, k < w.step → ¬ storesWram s.cfg (a + BitVec.ofNat 32 k) j) →
        t.mem.wram.read j = s.mem.wram.read j) ∧
      (∀ k j, k < w.step → storesVram s.cfg (a + BitVec.ofNat 32 k) j →
        (∀ l, k < l → l < w.step → ¬ storesVram s.cfg (a + BitVec.ofNat 32 l) j) →
        t.mem.vram.read j = d.extractLsb' (8 * (w.step - 1 - k)) 8) ∧
      (∀ j, (∀ k, k < w.step → ¬ storesVram s.cfg (a + BitVec.ofNat 32 k) j) →
        t.mem.vram.read j = s.mem.vram.read j)) ∧
  (∀ (s t : State) (a : Addr) (d : Long), selectReg s.cfg a .word = none →
    (∀ u, leadsTo (.wr8 a (d >>> 8)) s t → leadsTo (.wr8 (a + 1) d) t u → leadsTo (.wr16 a d) s u) ∧
    (selectReg s.cfg a .byte ≠ some .dmaCtrl → exec (.wr8 a (d >>> 8)) s = .next t →
      exec (.wr16 a d) s = exec (.wr8 (a + 1) d) t)) ∧
  ∀ (s t u v : State) (a : Addr) (d : Long), selectReg s.cfg a .long = none →
    (∀ w, leadsTo (.wr8 a (d >>> 24)) s t → leadsTo (.wr8 (a + 1) (d >>> 16)) t u →
      leadsTo (.wr8 (a + 2) (d >>> 8)) u v → leadsTo (.wr8 (a + 3) d) v w → leadsTo (.wr32 a d) s w) ∧
    ((∀ k, k < 3 → selectReg s.cfg (a + BitVec.ofNat 32 k) .byte ≠ some .dmaCtrl) →
      exec (.wr8 a (d >>> 24)) s = .next t → exec (.wr8 (a + 1) (d >>> 16)) t = .next u →
      exec (.wr8 (a + 2) (d >>> 8)) u = .next v → exec (.wr32 a d) s = exec (.wr8 (a + 3) d) v)

/-- The round trip: where every byte of an access lies in working RAM or video RAM below its size and outside the
window, a write followed by the read of the same width answers the value cut to the width (20_memory.md section 6). -/
def Obligations.RamReadsBackWhatWasWritten : Prop :=
  ∀ (s : State) (a : Addr) (d : Long), s.provisioned = true → s.inv = true →
    (ramByte s.cfg a → ∃ t, exec (.wr8 a d) s = .next t ∧
      exec (.rd8 a) t = .next (answer (d &&& 0xFF) t)) ∧
    ((∀ i, i < 2 → ramByte s.cfg (a + BitVec.ofNat 32 i)) → ∃ t, exec (.wr16 a d) s = .next t ∧
      exec (.rd16 a) t = .next (answer (d &&& 0xFFFF) t)) ∧
    ((∀ i, i < 4 → ramByte s.cfg (a + BitVec.ofNat 32 i)) → ∃ t, exec (.wr32 a d) s = .next t ∧
      exec (.rd32 a) t = .next (answer d t))

/-- A 16-bit or 32-bit access to a device is two or four byte calls in ascending address order, most significant byte
first: of writes, and of reads whose answers, each cut to 8 bits, are composed (60_exceptions.md section 9,
40_bus_access.md sections 2 and 3). The lists of calls, newest first, and of answers are the model's own (logs 8 and
7). Rests on the spec's own decisions D5, D6, D7 (92_eei_decisions.md). -/
def Obligations.WideDeviceAccessesAreByteCallsInOrder : Prop :=
  ∀ (s : State) (a : Addr) (d : Long) (slot : Fin 16) (r n : Nat), s.provisioned = true → s.cfg.dev[slot] = true →
    outsideWindow s.cfg a n → (∀ i, i < n → bankOf s.cfg (a + BitVec.ofNat 32 i) = 2 ∧
      offOf (a + BitVec.ofNat 32 i) / s.cfg.devBlock = slot ∧ offOf (a + BitVec.ofNat 32 i) % s.cfg.devBlock = r + i) →
    (n = 2 →
      exec (.wr16 a d) s = .next (s.withPort { s.port with
        events := .devWrite slot (r + 1) (d.extractLsb' 0 8) :: .devWrite slot r (d.extractLsb' 8 8) ::
          s.port.events }) ∧
      (∀ x y rest, s.port.devAnswers = x :: y :: rest → exec (.rd16 a) s = .next (s.withPort { s.port with
        devAnswers := rest, events := .devRead slot (r + 1) :: .devRead slot r :: s.port.events,
        result := BitVec.ofNat 32 (x % 256 * 256 + y % 256) })) ∧
      (s.port.devAnswers = [] → ∃ v : Half, exec (.rd16 a) s = .next (s.withPort { s.port with
        draws := s.port.draws + 2, events := .devRead slot (r + 1) :: .devRead slot r :: s.port.events,
        result := v.setWidth 32 }))) ∧
    (n = 4 →
      exec (.wr32 a d) s = .next (s.withPort { s.port with
        events := .devWrite slot (r + 3) (d.extractLsb' 0 8) :: .devWrite slot (r + 2) (d.extractLsb' 8 8) ::
          .devWrite slot (r + 1) (d.extractLsb' 16 8) :: .devWrite slot r (d.extractLsb' 24 8) :: s.port.events }) ∧
      (∀ x y z w rest, s.port.devAnswers = x :: y :: z :: w :: rest →
        exec (.rd32 a) s = .next (s.withPort { s.port with
          devAnswers := rest, events := .devRead slot (r + 3) :: .devRead slot (r + 2) :: .devRead slot (r + 1) ::
            .devRead slot r :: s.port.events,
          result := BitVec.ofNat 32 (((x % 256 * 256 + y % 256) * 256 + z % 256) * 256 + w % 256) })) ∧
      (s.port.devAnswers = [] → ∃ v : Long, exec (.rd32 a) s = .next (s.withPort { s.port with
        draws := s.port.draws + 4, events := .devRead slot (r + 3) :: .devRead slot (r + 2) :: .devRead slot (r + 1) ::
          .devRead slot r :: s.port.events,
        result := v })))

/-! ## HDMA -/

/-- One channel on one line: nothing unless it is enabled and `START <= n < START + COUNT` as natural numbers; else
one unit from the indexed source, the index halved under double rate, to the fixed target (43_hdma.md section 2).
Rests on the spec's own decisions D19, D24, D25 (92_eei_decisions.md). -/
def Obligations.AChannelTransfersOneUnitOnItsLines : Prop :=
  ∀ (h : HdmaChannel) (n : Nat) (s : State),
    (h.en = false ∨ n < h.start.toNat ∨ h.start.toNat + h.count.toNat ≤ n → hdmaServe h n s = s) ∧
    (h.en = true → h.start.toNat ≤ n → n < h.start.toNat + h.count.toNat →
      (widthOf s.cfg h.width = none → hdmaServe h n s = s) ∧
      ∀ w, widthOf s.cfg h.width = some w → ∀ k, k = (if h.dbl then (n - h.start.toNat) / 2 else n - h.start.toNat) →
        hdmaServe h n s = busWrite w h.dst (busRead w (h.src + BitVec.ofNat 32 (k * w.step)) s).1
          (busRead w (h.src + BitVec.ofNat 32 (k * w.step)) s).2)

/-- A scanline event serves the eight channels in ascending order, each to completion before the next: where no active
channel's target reaches an arming register or an HDMA register, one after the other as they were configured at its
start; and in every case with the registers of a channel read when it is served, and with an engine that its write
arms run to completion before the next channel (43_hdma.md section 2). That a run may take more than one step is the
model's choice (log 1). Rests on the spec's own decisions D19, D24, D25 (92_eei_decisions.md). -/
def Obligations.ALineServesTheChannelsInOrder : Prop :=
  (∀ (s : State) (n : BitVec 32) (i : Instr), s.provisioned = true → i ∈ [.line n, .hdmaLine n] →
    (∀ (ch : Fin 8) (w : Width), hdmaActive s.hdma[ch] n.toNat = true → widthOf s.cfg s.hdma[ch].width = some w →
      ∀ r, reaches s.cfg s.hdma[ch].dst w r →
        r ≠ .dmaCtrl ∧ r ≠ .blitFunc ∧ ∀ c, r ≠ .hdmaCtrl c ∧ r ≠ .hdmaSrc c ∧ r ≠ .hdmaDst c) →
    exec i s = .next ((List.finRange 8).foldl (fun t ch => hdmaServe s.hdma[ch] n.toNat t) s)) ∧
  ∀ (s : State) (n : BitVec 32) (i : Instr) (served : Nat → State), s.provisioned = true → i ∈ [.line n, .hdmaLine n] →
    served 0 = s →
    (∀ ch : Fin 8, ∃ k, settle s.stack.length k (hdmaServe (served ch).hdma[ch] n.toNat (served ch)) = served (ch + 1) ∧
      (served (ch + 1)).stack = s.stack) →
    leadsTo i s (served 8)

/-- The usual use of a channel: alone on its line, with word width and a scroll register of either axis as target, it
stores the low 9 bits of the indexed source word there, and changes nothing else (43_hdma.md sections 2 and 3,
41_register_file.md section 2). Rests on the spec's own decisions D13, D19, D24, D25 (92_eei_decisions.md). -/
def Obligations.ALineMovesAWordIntoAScrollRegister : Prop :=
  ∀ (s : State) (n : BitVec 32) (ch : Fin 8) (x : Fin 4) (i : Instr), s.provisioned = true → s.inv = true →
    i ∈ [.line n, .hdmaLine n] → hdmaActive s.hdma[ch] n.toNat = true → s.hdma[ch].width = 1 →
    (∀ c : Fin 8, c ≠ ch → hdmaActive s.hdma[c] n.toNat = false) →
    ∀ k src, k = (if s.hdma[ch].dbl then (n.toNat - s.hdma[ch].start.toNat) / 2
        else n.toNat - s.hdma[ch].start.toNat) → src = s.hdma[ch].src + BitVec.ofNat 32 (2 * k) →
      plainAddr s.cfg src → plainAddr s.cfg (src + 1) →
      (s.hdma[ch].dst = regAddr s.cfg (.scrollX x) → exec i s = .next (s.withDisplay { s.display with
        scrollX := s.display.scrollX.set x ((plainByte s src ++ plainByte s (src + 1)).extractLsb' 0 9) })) ∧
      (s.hdma[ch].dst = regAddr s.cfg (.scrollY x) → exec i s = .next (s.withDisplay { s.display with
        scrollY := s.display.scrollY.set x ((plainByte s src ++ plainByte s (src + 1)).extractLsb' 0 9) }))

/-! ## DMA -/

/-- R261, for the control word as a command and for the write that carries it. -/
def Obligations.DmaNopDoesNothing : Prop :=
  ∀ s : State, s.provisioned = true → exec .dmaNop s = .next s ∧
    ∀ v : Byte, v.getLsbD 0 = false → exec (.dmaCtrlW v) s = .next s

/-- Width code 3. In a DMA control word: under `WIDTH3 = long` the long command with the same fields, under `WIDTH3 =
reject` a no-op (R275). In a function word: under `WIDTH3 = long` it is code 2 in every respect, under `WIDTH3 =
reject` the word does nothing, for every function, Invert and RLE included (30_encoding.md section 2, 42_dma.md
section 5, 44_blitter.md section 1). Rests on the spec's own decisions D19, D26 (92_eei_decisions.md). -/
def Obligations.WidthCodeThreeFollowsTheParameter : Prop :=
  (∀ (s : State) (si di : Bool), s.provisioned = true →
    (s.cfg.width3 = .long → exec (.dmaW3 false si di) s = exec (.dmaCopyL si di) s ∧
      exec (.dmaW3 true si di) s = exec (.dmaFillL si di) s) ∧
    (s.cfg.width3 = .reject → ∀ const, exec (.dmaW3 const si di) s = .next s)) ∧
  ∀ (s : State) (f : BlitFields) (skip : Bool) (op : BlitOp), s.provisioned = true → f.width = 3 →
    (s.cfg.width3 = .long → exec (blitCommand op skip f) s = exec (blitCommand op skip { f with width := 2 }) s ∧
      exec (.bltRle f skip) s = exec (.bltRle { f with width := 2 } skip) s) ∧
    (s.cfg.width3 = .reject → exec (blitCommand op skip f) s = .next s ∧ exec (.bltRle f skip) s = .next s)

/-- The end state of a transfer on the general path, of every width, in copy and constant mode, none of whose writes
reaches a DMA register or arms the blitter: it completes, `DMA_LEN` is 0 and the addresses stand advanced, modulo 2^32
(42_dma.md section 4). That the CPU port keeps its last answer is the model's choice (log 6). Rests on the spec's own
decision D21 (92_eei_decisions.md). -/
def Obligations.DmaTransfersEndWithLengthZero : Prop :=
  ∀ (s : State) (const : Bool) (code : BitVec 2) (w : Width) (si di : Bool) (i : Instr), s.provisioned = true →
    widthOf s.cfg code = some w → fastPath const w s = false →
    i ∈ [dmaCommand const code si di, .dmaCtrlW (dmacWord const code si di true)] →
    (∀ k, k < s.dma.len.toNat → ∀ r ∈ dmaDisturbers,
      ¬ reaches s.cfg (if di then s.dma.dst + BitVec.ofNat 32 (k * w.step) else s.dma.dst) w r) →
    ∃ t, exec i s = .next t ∧
      t.dma = {
        src := if si then s.dma.src + BitVec.ofNat 32 (s.dma.len.toNat * w.step) else s.dma.src,
        dst := if di then s.dma.dst + BitVec.ofNat 32 (s.dma.len.toNat * w.step) else s.dma.dst,
        len := 0 } ∧
      t.stack = s.stack ∧ t.port.result = s.port.result

/-- The frame of a transfer on the general path whose targets lie outside the window: every register but the DMA
registers and the cached scan code, every channel, and every byte of both RAMs outside the units stored is unchanged
(42_dma.md sections 2 and 4). Rests on the spec's own decision D21 (92_eei_decisions.md). -/
def Obligations.DmaTransfersTouchOnlyTheirTargets : Prop :=
  ∀ (s : State) (const : Bool) (code : BitVec 2) (w : Width) (si di : Bool), s.provisioned = true → s.inv = true →
    widthOf s.cfg code = some w → fastPath const w s = false →
    ∀ target, target = (fun k => if di then s.dma.dst + BitVec.ofNat 32 (k * w.step) else s.dma.dst) →
    (∀ k, k < s.dma.len.toNat → outsideWindow s.cfg (target k) w.step) →
    ∃ t, exec (dmaCommand const code si di) s = .next t ∧ t.display = s.display ∧ t.blit = s.blit ∧
      t.hdma = s.hdma ∧ t.io = { s.io with keyscan := t.io.keyscan } ∧
      (∀ j, (∀ k b, k < s.dma.len.toNat → b < w.step →
        ¬ storesWram s.cfg (target k + BitVec.ofNat 32 b) j) → t.mem.wram.read j = s.mem.wram.read j) ∧
      (∀ j, (∀ k b, k < s.dma.len.toNat → b < w.step →
        ¬ storesVram s.cfg (target k + BitVec.ofNat 32 b) j) → t.mem.vram.read j = s.mem.vram.read j)

/-- A copy whose units lie in working RAM, of every width and with either increment set or clear, moves its units one
at a time in ascending order, each read whole from what the one before left, so that an overlapping copy re-reads what
it has written; between ranges that do not overlap, with both increments, it moves the bytes; it changes nothing but
them and the DMA registers (42_dma.md sections 2 and 4). Rests on the spec's own decision D21 (92_eei_decisions.md).
-/
def Obligations.DmaCopiesItsUnits : Prop :=
  ∀ (s : State) (code : BitVec 2) (w : Width) (si di : Bool) (source target : Nat → Addr) (i : Instr) (n : Nat),
    s.provisioned = true → s.inv = true → widthOf s.cfg code = some w →
    i ∈ [dmaCommand false code si di, .dmaCtrlW (dmacWord false code si di true)] →
    source = (fun k => if si then s.dma.src + BitVec.ofNat 32 (k * w.step) else s.dma.src) →
    target = (fun k => if di then s.dma.dst + BitVec.ofNat 32 (k * w.step) else s.dma.dst) →
    (∀ k, k < s.dma.len.toNat → inWram s.cfg (source k) w.step ∧ inWram s.cfg (target k) w.step) →
    n = s.dma.len.toNat * w.step →
    ∃ t, exec i s = .next t ∧
      (∀ j, t.mem.wram.read j = unitsInOrder (fun k m =>
        unitStored w.step (offOf (target k)) (fun x => m (offOf (source k) + x)) m) s.dma.len.toNat s.mem.wram.read j) ∧
      (si = true → di = true → inWram s.cfg s.dma.src n → inWram s.cfg s.dma.dst n →
        (offOf s.dma.src + n ≤ offOf s.dma.dst ∨ offOf s.dma.dst + n ≤ offOf s.dma.src) →
        ∀ j, t.mem.wram.read j = if offOf s.dma.dst ≤ j ∧ j < offOf s.dma.dst + n
          then s.mem.wram.read (offOf s.dma.src + (j - offOf s.dma.dst)) else s.mem.wram.read j) ∧
      t = (s.withMem { s.mem with wram := t.mem.wram }).withDma {
        src := source s.dma.len.toNat, dst := target s.dma.len.toNat, len := 0 }

/-- A byte or word fill of working RAM writes the low byte or word of `DMA_SRC` into every unit, most significant byte
first; with the source increment set the value itself advances from unit to unit, with the target increment clear
every unit goes to one address and the last stays; nothing else changes but the DMA registers (42_dma.md sections 2
and 5). Rests on the spec's own decision D21 (92_eei_decisions.md). -/
def Obligations.DmaFillsWithItsValue : Prop :=
  ∀ (s : State) (w : Width) (si di : Bool) (n : Nat) (i : Instr), s.provisioned = true → s.inv = true →
    (w, i) ∈ [(Width.byte, Instr.dmaFillB si di), (.word, .dmaFillW si di)] →
    n = (if di then s.dma.len.toNat * w.step else w.step) → inWram s.cfg s.dma.dst n →
    ∃ t, exec i s = .next t ∧
      (∀ k j, k < s.dma.len.toNat → j < w.step → (di = false → k + 1 = s.dma.len.toNat) →
        t.mem.wram.read (offOf s.dma.dst + ((if di then k * w.step else 0) + j)) =
          (if si then s.dma.src + BitVec.ofNat 32 (k * w.step) else s.dma.src).extractLsb' (8 * (w.step - 1 - j)) 8) ∧
      (∀ j, s.dma.len = 0 ∨ j < offOf s.dma.dst ∨ offOf s.dma.dst + n ≤ j → t.mem.wram.read j = s.mem.wram.read j) ∧
      t = (s.withMem { s.mem with wram := t.mem.wram }).withDma {
        src := if si then s.dma.src + BitVec.ofNat 32 (s.dma.len.toNat * w.step) else s.dma.src,
        dst := if di then s.dma.dst + BitVec.ofNat 32 (s.dma.len.toNat * w.step) else s.dma.dst, len := 0 }

/-- A long fill of video RAM takes the general path: every unit is the whole of `DMA_SRC`, most significant byte
first; with the source increment set the value itself advances by 4, with the target increment clear every unit goes
to one address and the last stays (42_dma.md sections 2, 3 and 5). Rests on the spec's own decision D21
(92_eei_decisions.md). -/
def Obligations.ALongFillOutsideWorkingRamWritesWholeLongs : Prop :=
  ∀ (s : State) (si di : Bool) (n : Nat), s.provisioned = true → s.inv = true →
    n = (if di then s.dma.len.toNat * 4 else 4) → inVram s.cfg s.dma.dst n → bankOf s.cfg s.dma.dst = 0xE →
    ∃ t, exec (.dmaFillL si di) s = .next t ∧
      (∀ k j, k < s.dma.len.toNat → j < 4 → (di = false → k + 1 = s.dma.len.toNat) →
        t.mem.vram.read (offOf s.dma.dst + ((if di then k * 4 else 0) + j)) =
          (if si then s.dma.src + BitVec.ofNat 32 (k * 4) else s.dma.src).extractLsb' (8 * (3 - j)) 8) ∧
      (∀ j, s.dma.len = 0 ∨ j < offOf s.dma.dst ∨ offOf s.dma.dst + n ≤ j → t.mem.vram.read j = s.mem.vram.read j) ∧
      t = (s.withMem { s.mem with vram := t.mem.vram }).withDma {
        src := if si then s.dma.src + BitVec.ofNat 32 (s.dma.len.toNat * 4) else s.dma.src,
        dst := if di then s.dma.dst + BitVec.ofNat 32 (s.dma.len.toNat * 4) else s.dma.dst, len := 0 }

/-- R266: a long constant fill whose target lies in bank 1 and outside the window fills `DMA_LEN` bytes with the low
byte of `DMA_SRC`, drops those past the end of working RAM, and advances each pointer whose increment flag is set by
four times the length; the fill itself ignores the flags. Rests on the spec's own decision D20 (92_eei_decisions.md).
-/
def Obligations.TheFastFillStoresTheLowByte : Prop :=
  ∀ (s : State) (si di : Bool) (i : Instr), s.provisioned = true → s.inv = true →
    i ∈ [.dmaFillL si di, .dmaCtrlW (dmacWord true 2 si di true)] →
    bankOf s.cfg s.dma.dst = 1 → inWindow s.cfg s.dma.dst = false →
    ∃ t, exec i s = .next t ∧
      (∀ j, t.mem.wram.read j =
        if offOf s.dma.dst ≤ j ∧ j < offOf s.dma.dst + s.dma.len.toNat ∧ j < s.cfg.wramSize
        then s.dma.src.extractLsb' 0 8 else s.mem.wram.read j) ∧
      t = (s.withMem { s.mem with wram := t.mem.wram }).withDma {
        src := if si then s.dma.src + BitVec.ofNat 32 (4 * s.dma.len.toNat) else s.dma.src,
        dst := if di then s.dma.dst + BitVec.ofNat 32 (4 * s.dma.len.toNat) else s.dma.dst,
        len := 0 }

/-! ## The blitter -/

/-- R311, for the function word as a command and for the write that carries it. -/
def Obligations.BlitterNopDoesNothing : Prop :=
  ∀ (s : State) (f : BlitFields) (skip : Bool), s.provisioned = true → exec (.bltNop f skip) s = .next s ∧
    ∀ v : Long, v.extractLsb' 0 4 = 0 → exec (.blitFuncW v) s = .next s

/-- R312, for the function words as commands and for the write that carries them. Rests on the spec's own decision D26
(92_eei_decisions.md). -/
def Obligations.ReservedFunctionsDoNothing : Prop :=
  ∀ (s : State) (f : BlitFields) (skip : Bool), s.provisioned = true → exec (.bltRsvd5 f skip) s = .next s ∧
    (∀ low, exec (.bltRsvd6to7 f skip low) s = .next s) ∧ (∀ low, exec (.bltRsvd8to15 f skip low) s = .next s) ∧
    ∀ v : Long, 5 ≤ (v.extractLsb' 0 4).toNat → exec (.blitFuncW v) s = .next s

/-- The end state of Blit, Set and Invert without stride-skip, none of whose writes reaches a blitter register or arms
the DMA engine: they complete after `BLIT_LEN` units, `BLIT_B` advanced by one unit each (by one byte for Invert),
`BLIT_A` likewise for Blit and unchanged for the others (44_blitter.md sections 2, 3, 4, 6). That the CPU port keeps
its last answer is the model's choice (log 6). Rests on the spec's own decisions D27, D28, D30, D31, D38
(92_eei_decisions.md). -/
def Obligations.BlitterOperationsEndWithLengthZero : Prop :=
  ∀ (s : State) (op : BlitOp) (f : BlitFields) (l u : Width) (i : Instr), s.provisioned = true →
    widthOf s.cfg f.width = some l → u = (if op = .invert then .byte else l) →
    i ∈ [blitCommand op false f, .blitFuncW (blitfWord f false (blitNumber op))] →
    (∀ k, k < s.blit.len.toNat → ∀ r ∈ blitDisturbers,
      ¬ reaches s.cfg (s.blit.b + BitVec.ofNat 32 (k * u.step)) u r) →
    ∃ t, exec i s = .next t ∧
      t.blit = {
        a := if op = .blit then s.blit.a + BitVec.ofNat 32 (s.blit.len.toNat * u.step) else s.blit.a,
        b := s.blit.b + BitVec.ofNat 32 (s.blit.len.toNat * u.step), len := 0, key := s.blit.key } ∧
      t.stack = s.stack ∧ t.port.result = s.port.result

/-- The end state of Blit, Set and Invert with stride-skip and a source stride of at least 1: they complete after
`BLIT_LEN` units, and `BLIT_B` has also jumped by `(ds - ss)` units after each of the `ceil(BLIT_LEN / ss)` passes,
the last included (44_blitter.md sections 2, 3, 4, 6). That the CPU port keeps its last answer is the model's choice
(log 6). Rests on the spec's own decisions D29, D30, D31, D38 (92_eei_decisions.md). -/
def Obligations.StrideSkipOperationsEndWithLengthZero : Prop :=
  ∀ (s : State) (op : BlitOp) (f : BlitFields) (l u : Width) (ss : Nat) (jump : Long) (i : Instr), s.provisioned = true →
    widthOf s.cfg f.width = some l → u = (if op = .invert then .byte else l) →
    ss = f.srcStride.toNat → 1 ≤ ss →
    jump = BitVec.ofInt 32 (((f.dstStride.toNat : Int) - ss) * u.step) →
    i ∈ [blitCommand op true f, .blitFuncW (blitfWord f true (blitNumber op))] →
    (∀ k, k < s.blit.len.toNat → ∀ r ∈ blitDisturbers,
      ¬ reaches s.cfg (s.blit.b + BitVec.ofNat 32 (k * u.step) + BitVec.ofNat 32 (k / ss) * jump) u r) →
    ∃ t, exec i s = .next t ∧
      t.blit = {
        a := if op = .blit then s.blit.a + BitVec.ofNat 32 (s.blit.len.toNat * u.step) else s.blit.a,
        b := s.blit.b + BitVec.ofNat 32 (s.blit.len.toNat * u.step) +
          BitVec.ofNat 32 ((s.blit.len.toNat + ss - 1) / ss) * jump,
        len := 0, key := s.blit.key } ∧
      t.stack = s.stack ∧ t.port.result = s.port.result

/-- A Blit without stride-skip whose units lie in working RAM copies every unit but, with the colour key enabled,
those equal to the whole of `BLIT_KEY`, one at a time in ascending order, each read from what the one before left; a
skipped unit still advances both addresses. Between ranges that do not overlap it copies the source as it was
(44_blitter.md section 2). Rests on the spec's own decisions D27, D28 (92_eei_decisions.md). -/
def Obligations.BlitCopiesAllButKeyedUnits : Prop :=
  ∀ (s : State) (f : BlitFields) (w : Width) (source target : Nat → Addr) (n : Nat), s.provisioned = true →
    s.inv = true → widthOf s.cfg f.width = some w →
    source = (fun k => s.blit.a + BitVec.ofNat 32 (k * w.step)) →
    target = (fun k => s.blit.b + BitVec.ofNat 32 (k * w.step)) →
    (∀ k, k < s.blit.len.toNat → inWram s.cfg (source k) w.step ∧ inWram s.cfg (target k) w.step) →
    n = s.blit.len.toNat * w.step →
    ∃ t, exec (.bltBlit f) s = .next t ∧
      (∀ j, t.mem.wram.read j = unitsInOrder (fun k =>
        blitUnit .blit f.keyEn s.blit.key s.blit.a w.step (offOf (source k)) (offOf (target k)))
        s.blit.len.toNat s.mem.wram.read j) ∧
      (inWram s.cfg s.blit.a n → inWram s.cfg s.blit.b n →
        (offOf s.blit.a + n ≤ offOf s.blit.b ∨ offOf s.blit.b + n ≤ offOf s.blit.a) →
        (∀ k j, k < s.blit.len.toNat → j < w.step → t.mem.wram.read (offOf s.blit.b + (k * w.step + j)) =
          if f.keyEn ∧ longOfBytes ((List.range w.step).map fun x =>
              s.mem.wram.read (offOf s.blit.a + (k * w.step + x))) = s.blit.key
          then s.mem.wram.read (offOf s.blit.b + (k * w.step + j))
          else s.mem.wram.read (offOf s.blit.a + (k * w.step + j))) ∧
        ∀ j, j < offOf s.blit.b ∨ offOf s.blit.b + n ≤ j → t.mem.wram.read j = s.mem.wram.read j) ∧
      t = (s.withMem { s.mem with wram := t.mem.wram }).withBlit {
        a := s.blit.a + BitVec.ofNat 32 n, b := s.blit.b + BitVec.ofNat 32 n, len := 0, key := s.blit.key }

/-- Set without stride-skip over working RAM writes back what it reads: every byte of memory reads as before, `BLIT_B`
is advanced and `BLIT_LEN` is 0 (44_blitter.md section 3). Rests on the spec's own decision D30 (92_eei_decisions.md).
-/
def Obligations.SetWithoutStrideSkipLeavesMemoryAsItIs : Prop :=
  ∀ (s : State) (f : BlitFields) (w : Width) (n : Nat), s.provisioned = true → s.inv = true →
    widthOf s.cfg f.width = some w → n = s.blit.len.toNat * w.step → inWram s.cfg s.blit.b n →
    ∃ t, exec (.bltSet f) s = .next t ∧ (∀ j, t.mem.wram.read j = s.mem.wram.read j) ∧
      t = (s.withMem { s.mem with wram := t.mem.wram }).withBlit
        { s.blit with b := s.blit.b + BitVec.ofNat 32 n, len := 0 }

/-- Invert without stride-skip over working RAM complements `BLIT_LEN` bytes, whatever the width code, and changes
nothing else but `BLIT_B` and `BLIT_LEN` (44_blitter.md section 4). Rests on the spec's own decisions D30, D31
(92_eei_decisions.md). -/
def Obligations.InvertComplementsItsBytes : Prop :=
  ∀ (s : State) (f : BlitFields) (w : Width), s.provisioned = true → s.inv = true → widthOf s.cfg f.width = some w →
    inWram s.cfg s.blit.b s.blit.len.toNat →
    ∃ t, exec (.bltInv f) s = .next t ∧
      (∀ j, t.mem.wram.read j =
        if offOf s.blit.b ≤ j ∧ j < offOf s.blit.b + s.blit.len.toNat then ~~~ s.mem.wram.read j
        else s.mem.wram.read j) ∧
      t = (s.withMem { s.mem with wram := t.mem.wram }).withBlit
        { s.blit with b := s.blit.b + s.blit.len, len := 0 }

/-- With stride-skip and a source stride of at least 1, over working RAM, unit `k` goes to row `k / ss` of pitch `ds`,
whichever of the two strides is greater: Blit copies the contiguous source there, but for the units equal to the key
where the key is enabled, Set stores the low bytes of `BLIT_A`, Invert complements; the units are done one at a time
in ascending order, each on what the one before left. Where `ss <= ds` the rows do not overlap, and the units read
what was there before; every other byte is as before (44_blitter.md sections 2 to 4). Rests on the spec's own
decisions D29, D30, D31 (92_eei_decisions.md). -/
def Obligations.StrideSkipWorksOnARectangle : Prop :=
  ∀ (s : State) (op : BlitOp) (f : BlitFields) (l u : Width) (ss ds n : Nat) (place : Nat → Nat)
    (source target : Nat → Addr), s.provisioned = true → s.inv = true → widthOf s.cfg f.width = some l →
    u = (if op = .invert then .byte else l) → ss = f.srcStride.toNat → ds = f.dstStride.toNat → 1 ≤ ss →
    place = (fun k => (k / ss * ds + k % ss) * u.step) →
    source = (fun k => s.blit.a + BitVec.ofNat 32 (k * u.step)) →
    target = (fun k => s.blit.b + BitVec.ofNat 32 (place k)) →
    (∀ k, k < s.blit.len.toNat → inWram s.cfg (target k) u.step ∧
      (op = .blit → inWram s.cfg (source k) u.step)) →
    n = place (s.blit.len.toNat - 1) + u.step →
    ∃ t, exec (blitCommand op true f) s = .next t ∧
      (∀ j, t.mem.wram.read j = unitsInOrder (fun k =>
        blitUnit op f.keyEn s.blit.key s.blit.a u.step (offOf (source k)) (offOf (target k)))
        s.blit.len.toNat s.mem.wram.read j) ∧
      (ss ≤ ds → inWram s.cfg s.blit.b n →
        (op = .blit → inWram s.cfg s.blit.a (s.blit.len.toNat * u.step) ∧
          (offOf s.blit.a + s.blit.len.toNat * u.step ≤ offOf s.blit.b ∨ offOf s.blit.b + n ≤ offOf s.blit.a)) →
        (∀ k j, k < s.blit.len.toNat → j < u.step → t.mem.wram.read (offOf s.blit.b + (place k + j)) =
          match op with
          | .blit =>
            if f.keyEn ∧ longOfBytes ((List.range u.step).map fun x =>
                s.mem.wram.read (offOf s.blit.a + (k * u.step + x))) = s.blit.key
            then s.mem.wram.read (offOf s.blit.b + (place k + j))
            else s.mem.wram.read (offOf s.blit.a + (k * u.step + j))
          | .set => s.blit.a.extractLsb' (8 * (u.step - 1 - j)) 8
          | .invert => ~~~ s.mem.wram.read (offOf s.blit.b + (place k + j))) ∧
        ∀ j, (∀ k x, k < s.blit.len.toNat → x < u.step → j ≠ offOf s.blit.b + (place k + x)) →
          t.mem.wram.read j = s.mem.wram.read j) ∧
      t = (s.withMem { s.mem with wram := t.mem.wram }).withBlit t.blit

/-- Stride-skip with a source stride of 0 and a length that is not 0 never ends: the command's run stays in progress
for ever (44_blitter.md section 6, 60_exceptions.md section 5). A run in progress that hands back between steps is the
model's (log 1). Rests on the spec's own decision D38 (92_eei_decisions.md). -/
def Obligations.AZeroSourceStrideHangs : Prop :=
  ∀ (s : State) (op : BlitOp) (f : BlitFields) (w : Width), s.ready → widthOf s.cfg f.width = some w →
    f.srcStride = 0 → s.blit.len ≠ 0 → ∃ t, exec (blitCommand op true f) s = .next t ∧ hangs t

/-- R313: the jump after a pass is the signed difference of the two 12-bit counts times the step, added modulo 2^32.
Rests on the spec's own decision D29 (92_eei_decisions.md). -/
def Obligations.TheStrideJumpIsSigned : Prop :=
  ∀ (op : BlitOp) (l : BlitLatch) (s : State),
    (blitJump op l s).blit.b.toInt = ((s.blit.b.toInt +
      ((l.dstStride.toNat : Int) - (l.srcStride.toNat : Int)) * ((unitWidth op l).step : Int)).bmod (2 ^ 32)) ∧
    blitJump op l s = s.withBlit { s.blit with b := (blitJump op l s).blit.b }

/-! ## RLE -/

/-- A stream code as a command, its output in working RAM: a literal consumes one byte and writes it once; RUN
consumes two and writes its value `n` times, nothing for `n` = 0; the budget goes down by the bytes consumed, modulo
2^32, so that a budget of 1 becomes 2^32 - 1 under a two-byte code; END consumes its two bytes, writes nothing and
stops the RLE run it was read by (44_blitter.md section 5). That a code runs by itself as a command is the model's
(log 11). Rests on the spec's own decisions D31, D32 (92_eei_decisions.md). -/
def Obligations.StreamCodesConsumeTheirBytesAndWriteTheirOutput : Prop :=
  (∀ (s : State) (i : Instr) (code : RleCode), s.provisioned = true → s.inv = true →
    ((∃ n v, code = .run n v ∧ i = .rleRun n v ∧ ¬ (n = 0 ∧ v = 0xC0)) ∨
      (∃ v, code = .lit ((0 : BitVec 1) ++ v) ∧ i = .rleLit0 v) ∨
      (∃ v, code = .lit ((2 : BitVec 2) ++ v) ∧ i = .rleLit1 v)) →
    inWram s.cfg s.blit.b (codeOutput code).length →
    ∃ t, exec i s = .next t ∧
      (∀ j, j < (codeOutput code).length →
        t.mem.wram.read (offOf s.blit.b + j) = (codeOutput code).getD j 0) ∧
      (∀ j, j < offOf s.blit.b ∨ offOf s.blit.b + (codeOutput code).length ≤ j →
        t.mem.wram.read j = s.mem.wram.read j) ∧
      t = (s.withMem { s.mem with wram := t.mem.wram }).withBlit {
        a := s.blit.a + BitVec.ofNat 32 (codeBytes code).length,
        b := s.blit.b + BitVec.ofNat 32 (codeOutput code).length,
        len := s.blit.len - BitVec.ofNat 32 (codeBytes code).length, key := s.blit.key }) ∧
  ∀ s : State, s.provisioned = true →
    (∀ l rest, s.stack = .rle l :: rest → exec .rleEnd s = .next ((s.withBlit
      { s.blit with a := s.blit.a + 2, len := s.blit.len - 2 }).withStack rest)) ∧
    ((∀ l rest, s.stack ≠ .rle l :: rest) → exec .rleEnd s = .next (s.withBlit
      { s.blit with a := s.blit.a + 2, len := s.blit.len - 2 }))

/-- At its loop test an RLE run with budget left reads the next code through `BLIT_A`, the second byte too where the
first asks for it even when the budget is 1, and does what the decoded code does (44_blitter.md section 5,
30_encoding.md section 6). Rests on the spec's own decisions D31, D32 (92_eei_decisions.md). -/
def Obligations.AnRleRunFetchesWholeCodes : Prop :=
  ∀ (s : State) (l : BlitLatch) (rest : List Activation) (i : Instr) (more : List Byte),
    s.stack = .rle l :: rest → s.blit.len ≠ 0 → plainAddr s.cfg s.blit.a → plainAddr s.cfg (s.blit.a + 1) →
    decode s.cfg .rle (plainBytes s s.blit.a 2) = .ok (i, more) →
    (i = .rleEnd → tick s = rleEffect .stop s) ∧
    (∀ n v, i = .rleRun n v → tick s = rleEffect (.run n v) s) ∧
    (∀ v, i = .rleLit0 v → tick s = rleEffect (.lit ((0 : BitVec 1) ++ v)) s) ∧
    (∀ v, i = .rleLit1 v → tick s = rleEffect (.lit ((2 : BitVec 2) ++ v)) s)

/-- An RLE run over a stream of codes in working RAM, its output in working RAM too: it writes the codes' output in
order, each code read from what the ones before left, so that output over the stream changes the codes that follow; it
goes on, the budget counting modulo 2^32 past a code that is longer than what is left, as long as the budget is not 0
at a loop test, and ends where it is 0, or at an END code with the rest of the budget left (44_blitter.md section 5).
Rests on the spec's own decisions D31, D32 (92_eei_decisions.md). -/
def Obligations.RleDecompressesItsStream : Prop :=
  ∀ (s : State) (f : BlitFields) (skip ends : Bool) (w : Width) (codes all : List RleCode) (used : Nat → Nat)
    (wrote : Nat → List Byte) (i : Instr), s.provisioned = true → s.inv = true → widthOf s.cfg f.width = some w →
    i ∈ [.bltRle f skip, .blitFuncW (blitfWord f skip 4)] →
    (∀ code ∈ codes, codeRuns code = true) → all = codes ++ (if ends then [.stop] else []) →
    used = (fun k => ((all.take k).flatMap codeBytes).length) → wrote = (fun k => (all.take k).flatMap codeOutput) →
    (∀ k, k < all.length → s.blit.len ≠ BitVec.ofNat 32 (used k)) →
    (ends = false → s.blit.len = BitVec.ofNat 32 (used all.length)) →
    inWram s.cfg s.blit.a (used all.length) → inWram s.cfg s.blit.b (wrote all.length).length →
    (∀ k code x, all[k]? = some code → x < (codeBytes code).length →
      unitStored (wrote k).length (offOf s.blit.b) (fun j => (wrote k).getD j 0) s.mem.wram.read
        (offOf s.blit.a + used k + x) = (codeBytes code).getD x 0) →
    ∃ t, exec i s = .next t ∧
      (∀ j, t.mem.wram.read j = unitStored (wrote all.length).length (offOf s.blit.b)
        (fun x => (wrote all.length).getD x 0) s.mem.wram.read j) ∧
      t = (s.withMem { s.mem with wram := t.mem.wram }).withBlit {
        a := s.blit.a + BitVec.ofNat 32 (used all.length), b := s.blit.b + BitVec.ofNat 32 (wrote all.length).length,
        len := s.blit.len - BitVec.ofNat 32 (used all.length), key := s.blit.key }

/-! ## Nesting -/

/-- Nesting of engines. A unit of any engine, the byte of a stream code included, written to `DMA_CTRL` or `BLIT_FUNC`
with a word that arms puts the new activation on top of the one it belongs to, whose place is kept, and changes
nothing else; and however many micro-steps are run until the stack is back at a depth, the activations up to that
depth are as they were, until they are on top again (10_state.md section 9, 42_dma.md section 4, 44_blitter.md section
6). That the other work in progress stands on the same stack is the model's reading (log 14). Rests on the spec's own
decision D22 (92_eei_decisions.md). -/
def Obligations.NestedCommandsRunOnTopOfTheOuterOne : Prop :=
  (∀ (s : State) (r : Reg) (d : Long) (new : Activation), cfgWf s.cfg = true → r ∈ [.dmaCtrl, .blitFunc] →
    armedBy r d s = some new →
    (∀ l rest, s.stack = .dma l false :: rest → s.dma.len ≠ 0 → l.width = regWidth r →
      s.dma.dst = regAddr s.cfg r →
      (l.const = true ∧ truncTo l.width s.dma.src = d ∨ l.const = false ∧ busRead l.width s.dma.src s = (d, s)) →
      tick s = s.withStack (new :: .dma l true :: rest)) ∧
    (∀ op l i rest, s.stack = .blit op l (.pass i) :: rest ∧ i < l.srcStride.toNat ∨
        s.stack = .blit op l .test :: rest ∧ l.skip = false ∧ i = 0 → s.blit.len ≠ 0 →
      unitWidth op l = regWidth r → s.blit.b = regAddr s.cfg r →
      (op = .blit ∧ busRead l.width s.blit.a s = (d, s) ∧ ¬ (l.keyEn = true ∧ d = s.blit.key) ∨
        op = .set ∧ l.skip = true ∧ truncTo l.width s.blit.a = d ∨ op = .invert ∧ d = 0xFF) →
      tick s = s.withStack (new :: .blit op l (.moved i) :: rest)) ∧
    (∀ n v rest, s.stack = .rleOut (n + 1) v false :: rest → r = .dmaCtrl → v.setWidth 32 = d →
      s.blit.b = regAddr s.cfg r → tick s = s.withStack (new :: .rleOut n v true :: rest)) ∧
    (∀ (n : Nat) (c : Fin 8) (w : Width) (src : Addr) rest, s.stack = .hdma n c :: rest →
      hdmaActive s.hdma[c] n = true → widthOf s.cfg s.hdma[c].width = some w → w = regWidth r →
      s.hdma[c].dst = regAddr s.cfg r → src = s.hdma[c].src + BitVec.ofNat 32 (hdmaIndex s.hdma[c] n * w.step) →
      busRead w src s = (d, s) → tick s = s.withStack (new :: .hdma n (c + 1) :: rest))) ∧
  ∀ (s : State) (top base : List Activation) (k : Nat), s.stack = top ++ base →
    ∃ top', (settle base.length k s).stack = top' ++ base ∧
      ∀ x, top' = [] → settle base.length (k + x) s = settle base.length k s

end
end

