-- ==== Sys2Proof/Laws/Decode.lean ====
section
/-! SUPPORT. The fields of an encoded word are the fields it was built from, and a register's address selects that
register. -/

namespace Sys2Proof

/-! ## Bytes and words (R85) -/

theorem longOfBytes_bytesOf (v : Long) : longOfBytes (bytesOf .long v) = v := by
  simp only [longOfBytes, bytesOf, List.foldl, appendByte]
  apply BitVec.eq_of_getLsbD_eq
  intro i hi
  simp only [BitVec.getLsbD_or, BitVec.getLsbD_shiftLeft, BitVec.getLsbD_setWidth, BitVec.getLsbD_extractLsb']
  rcases (by omega : i < 8 ∨ (8 ≤ i ∧ i < 16) ∨ (16 ≤ i ∧ i < 24) ∨ (24 ≤ i ∧ i < 32)) with h | h | h | h
  · simp [show i < 32 by omega, show i < 8 by omega]
  · simp [show i < 32 by omega, show ¬ i < 8 by omega, show i - 8 < 8 by omega, show i - 8 < 32 by omega,
      show 8 + (i - 8) = i by omega]
  · simp [show i < 32 by omega, show ¬ i < 8 by omega, show ¬ i - 8 < 8 by omega, show i - 8 < 32 by omega,
      show i - 8 - 8 < 8 by omega, show i - 8 - 8 < 32 by omega, show 16 + (i - 8 - 8) = i by omega]
  · simp [show i < 32 by omega, show ¬ i < 8 by omega, show ¬ i - 8 < 8 by omega, show i - 8 < 32 by omega,
      show ¬ i - 8 - 8 < 8 by omega, show i - 8 - 8 < 32 by omega, show i - 8 - 8 - 8 < 8 by omega,
      show i - 8 - 8 - 8 < 32 by omega, show 24 + (i - 8 - 8 - 8) = i by omega]

/-! ## Control words (R135 to R137) -/

theorem dmac_fields (k : Bool) (w : BitVec 2) (i j st : Bool) :
    dmacStart (dmacWord k w i j st) = st ∧ dmacSrcInc (dmacWord k w i j st) = i ∧ dmacDstInc (dmacWord k w i j st) = j ∧
    dmacConst (dmacWord k w i j st) = k ∧ dmacWidth (dmacWord k w i j st) = w := by
  revert w
  cases k <;> cases i <;> cases j <;> cases st <;> decide

theorem extract_above {n m : Nat} (x : BitVec n) (y : BitVec m) (k len : Nat) (h : m ≤ k) :
    (x ++ y).extractLsb' k len = x.extractLsb' (k - m) len := by
  apply BitVec.eq_of_getLsbD_eq
  intro i hi
  simp only [BitVec.getLsbD_extractLsb', BitVec.getLsbD_append]
  rw [if_neg (by omega), show k + i - m = k - m + i by omega]

theorem extract_within {n m : Nat} (x : BitVec n) (y : BitVec m) : (x ++ y).extractLsb' 0 m = y := by
  apply BitVec.eq_of_getLsbD_eq
  intro i hi
  simp only [BitVec.getLsbD_extractLsb', BitVec.getLsbD_append, Nat.zero_add]
  rw [if_pos hi]
  simp [hi]

theorem extract_all {n : Nat} (x : BitVec n) : x.extractLsb' 0 n = x := by
  apply BitVec.eq_of_getLsbD_eq
  intro i hi
  simp [hi]

theorem hdmac_fields (en : Bool) (w : BitVec 2) (d : Bool) (s c : BitVec 10) :
    hdmacEn (hdmacWord en w d s c) = en ∧ hdmacWidth (hdmacWord en w d s c) = w ∧
    hdmacDbl (hdmacWord en w d s c) = d ∧ hdmacStart (hdmacWord en w d s c) = s ∧
    hdmacCount (hdmacWord en w d s c) = c := by
  refine ⟨?_, ?_, ?_, ?_, ?_⟩
  · simp only [hdmacEn, hdmacWord, BitVec.getLsbD_append]; simp
  · rw [hdmacWidth, hdmacWord, extract_above _ _ _ _ (by decide), extract_above _ _ _ _ (by decide)]
    exact extract_within _ _
  · simp only [hdmacDbl, hdmacWord, BitVec.getLsbD_append]; simp
  · rw [hdmacStart, hdmacWord, extract_above _ _ _ _ (by decide), extract_above _ _ _ _ (by decide),
      extract_above _ _ _ _ (by decide), extract_above _ _ _ _ (by decide), extract_above _ _ _ _ (by decide)]
    exact extract_within _ _
  · rw [hdmacCount, hdmacWord, extract_above _ _ _ _ (by decide), extract_above _ _ _ _ (by decide),
      extract_above _ _ _ _ (by decide), extract_above _ _ _ _ (by decide), extract_above _ _ _ _ (by decide),
      extract_above _ _ _ _ (by decide), extract_above _ _ _ _ (by decide)]
    exact extract_within _ _

theorem blitf_func (f : BlitFields) (skip : Bool) (func : BitVec 4) : blitfFunc (blitfWord f skip func) = func :=
  extract_within _ _

theorem blitf_skip (f : BlitFields) (skip : Bool) (func : BitVec 4) : blitfSkip (blitfWord f skip func) = skip := by
  simp only [blitfSkip, blitfWord, BitVec.getLsbD_append]; simp

theorem blitf_fields (f : BlitFields) (skip : Bool) (func : BitVec 4) : blitfFields (blitfWord f skip func) = f := by
  obtain ⟨ds, ss, w, k⟩ := f
  simp only [blitfFields, BlitFields.mk.injEq]
  refine ⟨?_, ?_, ?_, ?_⟩
  · rw [blitfWord, extract_above _ _ _ _ (by decide), extract_above _ _ _ _ (by decide),
      extract_above _ _ _ _ (by decide), extract_above _ _ _ _ (by decide), extract_above _ _ _ _ (by decide)]
    exact extract_all _
  · rw [blitfWord, extract_above _ _ _ _ (by decide), extract_above _ _ _ _ (by decide),
      extract_above _ _ _ _ (by decide), extract_above _ _ _ _ (by decide)]
    exact extract_within _ _
  · rw [blitfWord, extract_above _ _ _ _ (by decide), extract_above _ _ _ _ (by decide),
      extract_above _ _ _ _ (by decide)]
    exact extract_within _ _
  · simp only [blitfWord, BitVec.getLsbD_append]; simp

/-! ## Stream codes (R140, R155) -/

theorem rleTwoBytes_run (n : BitVec 6) : rleTwoBytes ((3 : BitVec 2) ++ n) = true := by revert n; decide
theorem rleTwoBytes_lit0 (v : BitVec 7) : rleTwoBytes ((0 : BitVec 1) ++ v) = false := by revert v; decide
theorem rleTwoBytes_lit1 (v : BitVec 6) : rleTwoBytes ((2 : BitVec 2) ++ v) = false := by revert v; decide

/-! ## The register map (R130) -/

theorem mem_allRegs (r : Reg) : r ∈ allRegs := by
  cases r
  case scrollX i => revert i; decide
  case scrollY i => revert i; decide
  case hdmaCtrl i => revert i; decide
  case hdmaSrc i => revert i; decide
  case hdmaDst i => revert i; decide
  all_goals decide

theorem cfgWf_sizes {c : Cfg} (h : cfgWf c = true) : cfgSizesOk c = true := by simp_all [cfgWf]

theorem cfgWf_window {c : Cfg} (h : cfgWf c = true) : c.regBase + c.regSize ≤ 2 ^ 32 := by
  have := cfgWf_sizes h
  simp_all [cfgSizesOk]

theorem cfgWf_offset_lt {c : Cfg} (h : cfgWf c = true) (r : Reg) : regOffset c r < c.regSize := by
  simp only [cfgWf, Bool.and_eq_true, cfgOffsetsInWindow, List.all_eq_true, decide_eq_true_eq] at h
  exact h.2 r (mem_allRegs r)

theorem cfgWf_distinct {c : Cfg} (h : cfgWf c = true) {r r' : Reg} (ho : regOffset c r = regOffset c r')
    (hw : regWidth r = regWidth r') : r = r' := by
  simp only [cfgWf, Bool.and_eq_true, cfgOffsetsDistinct, List.all_eq_true, Bool.or_eq_true, decide_eq_true_eq] at h
  have := h.1.2 r (mem_allRegs r) r' (mem_allRegs r')
  simpa [ho, hw] using this

theorem toNat_regAddr {c : Cfg} (h : cfgWf c = true) (r : Reg) : (regAddr c r).toNat = c.regBase + regOffset c r := by
  have h1 := cfgWf_window h
  have h2 := cfgWf_offset_lt h r
  rw [regAddr, BitVec.toNat_ofNat, Nat.mod_eq_of_lt (by omega)]

theorem inWindow_regAddr {c : Cfg} (h : cfgWf c = true) (r : Reg) : inWindow c (regAddr c r) = true := by
  have h2 := cfgWf_offset_lt h r
  simp [inWindow, toNat_regAddr h, h2]

/-- A register is selected by its offset at its width, and by nothing else (R130, R177). -/
theorem regAt_eq_some {c : Cfg} (h : cfgWf c = true) (o : Nat) (w : Width) (r : Reg) :
    regAt c o w = some r ↔ regOffset c r = o ∧ regWidth r = w := by
  constructor
  · intro hr
    have := List.find?_some hr
    simpa using this
  · rintro ⟨rfl, rfl⟩
    unfold regAt
    cases hf : allRegs.find? fun x => decide (regOffset c x = regOffset c r) && decide (regWidth x = regWidth r) with
    | none => simpa using List.find?_eq_none.mp hf r (mem_allRegs r)
    | some x =>
      have hx := List.find?_some hf
      simp only [Bool.and_eq_true, decide_eq_true_eq] at hx
      rw [cfgWf_distinct h hx.1 hx.2]

theorem selectReg_regAddr {c : Cfg} (h : cfgWf c = true) (r : Reg) : selectReg c (regAddr c r) (regWidth r) =
  some r := by
  simp only [selectReg, inWindow_regAddr h, if_true]
  rw [regAt_eq_some h]
  exact ⟨by rw [roffOf, toNat_regAddr h]; omega, rfl⟩

end Sys2Proof
end

