-- ==== Sys2Proof/Laws/Mem.lean ====
section
/-! SUPPORT. The laws of a memory region: a read after a write, and that every operation keeps the canonical form. -/

namespace Sys2Proof.Machine

theorem Memory.wfFrom_mono {lo lo' : Nat} {m : Memory} (h : lo' ≤ lo) (w : Memory.wfFrom lo m = true) :
    Memory.wfFrom lo' m = true := by
  cases m with
  | nil => rfl
  | cons kb m =>
    obtain ⟨k, b⟩ := kb
    simp only [Memory.wfFrom, Bool.and_eq_true, decide_eq_true_eq] at w ⊢
    exact ⟨⟨by omega, w.1.2⟩, w.2⟩

/-- Below the least admitted index nothing is listed. -/
theorem Memory.read_below {lo : Nat} {m : Memory} (w : Memory.wfFrom lo m = true) {i : Nat} (h : i < lo) :
    m.read i = 0 := by
  induction m generalizing lo with
  | nil => rfl
  | cons kb m ih =>
    obtain ⟨k, b⟩ := kb
    simp only [Memory.wfFrom, Bool.and_eq_true, decide_eq_true_eq] at w
    rw [Memory.read, if_neg (by omega)]
    exact ih w.2 (by omega)

theorem Memory.wfFrom_write {lo : Nat} {m : Memory} (w : Memory.wfFrom lo m = true) {i : Nat} (h : lo ≤ i) (v : Byte) :
    Memory.wfFrom lo (m.write i v) = true := by
  induction m generalizing lo with
  | nil =>
    unfold Memory.write
    split <;> simp_all [Memory.wfFrom]
  | cons kb m ih =>
    obtain ⟨k, b⟩ := kb
    have w' := w
    simp only [Memory.wfFrom, Bool.and_eq_true, decide_eq_true_eq] at w'
    unfold Memory.write
    split
    · split
      · exact w
      · simp only [Memory.wfFrom, Bool.and_eq_true, decide_eq_true_eq]
        exact ⟨⟨h, ‹_›⟩, ⟨by omega, w'.1.2⟩, w'.2⟩
    · split
      · split
        · exact Memory.wfFrom_mono (by omega) w'.2
        · simp only [Memory.wfFrom, Bool.and_eq_true, decide_eq_true_eq]
          refine ⟨⟨h, ‹_›⟩, ?_⟩
          subst i
          exact w'.2
      · simp only [Memory.wfFrom, Bool.and_eq_true, decide_eq_true_eq]
        exact ⟨w'.1, ih w'.2 (by omega)⟩

/-- A write keeps the canonical form. -/
theorem Memory.wf_write {m : Memory} (w : m.wf = true) (i : Nat) (v : Byte) : (m.write i v).wf = true :=
  Memory.wfFrom_write w (Nat.zero_le i) v

theorem Memory.read_write_from {lo : Nat} {m : Memory} (w : Memory.wfFrom lo m = true) (i : Nat) (v : Byte) (j : Nat) :
    (m.write i v).read j = if i = j then v else m.read j := by
  induction m generalizing lo with
  | nil =>
    unfold Memory.write
    split <;> simp_all [Memory.read]
  | cons kb m ih =>
    obtain ⟨k, b⟩ := kb
    simp only [Memory.wfFrom, Bool.and_eq_true, decide_eq_true_eq] at w
    unfold Memory.write
    split
    · split
      · subst v
        split
        · subst j
          rw [Memory.read, if_neg (by omega), Memory.read_below w.2 (by omega)]
        · rfl
      · rw [Memory.read]
    · split
      · subst i
        split
        · subst v
          by_cases hj : k = j
          · rw [if_pos hj, Memory.read_below w.2 (by omega)]
          · rw [if_neg hj, Memory.read, if_neg hj]
        · simp only [Memory.read]
          split <;> rfl
      · by_cases hk : k = j
        · rw [Memory.read, if_pos hk, if_neg (by omega), Memory.read, if_pos hk]
        · rw [Memory.read, if_neg hk, ih w.2, Memory.read, if_neg hk]

/-- A read after a write: the value written at its index, the old byte elsewhere. -/
theorem Memory.read_write {m : Memory} (w : m.wf = true) (i : Nat) (v : Byte) (j : Nat) :
    (m.write i v).read j = if i = j then v else m.read j :=
  Memory.read_write_from w i v j

/-- A write below the size keeps the region inside its size. -/
theorem Memory.within_write {size : Nat} {m : Memory} (w : m.within size = true) {i : Nat} (h : i < size) (v : Byte) :
    (m.write i v).within size = true := by
  induction m with
  | nil =>
    unfold Memory.write
    split <;> simp_all [Memory.within]
  | cons kb m ih =>
    obtain ⟨k, b⟩ := kb
    simp only [Memory.within, List.all_cons, Bool.and_eq_true, decide_eq_true_eq] at w
    have w' : Memory.within size ((k, b) :: m) = true := by
      simp only [Memory.within, List.all_cons, Bool.and_eq_true, decide_eq_true_eq]
      exact w
    unfold Memory.write
    split
    · split
      · exact w'
      · simp only [Memory.within, List.all_cons, Bool.and_eq_true, decide_eq_true_eq]
        exact ⟨h, w⟩
    · split
      · split
        · exact w.2
        · simp only [Memory.within, List.all_cons, Bool.and_eq_true, decide_eq_true_eq]
          exact ⟨h, w.2⟩
      · simp only [Memory.within, List.all_cons, Bool.and_eq_true, decide_eq_true_eq]
        exact ⟨w.1, ih w.2⟩

/-- A fill keeps the canonical form. -/
theorem Memory.wf_fill {m : Memory} (w : m.wf = true) (o : Nat) (v : Byte) (n : Nat) : (m.fill o v n).wf = true := by
  induction n with
  | zero => exact w
  | succ n ih => exact Memory.wf_write ih _ _

/-- A read after a fill. -/
theorem Memory.read_fill {m : Memory} (w : m.wf = true) (o : Nat) (v : Byte) (n j : Nat) :
    (m.fill o v n).read j = if o ≤ j ∧ j < o + n then v else m.read j := by
  induction n with
  | zero => simp [Memory.fill]
  | succ n ih =>
    rw [Memory.fill, Memory.read_write (Memory.wf_fill w o v n), ih]
    by_cases h : o + n = j
    · rw [if_pos h, if_pos (by omega)]
    · rw [if_neg h]
      by_cases h' : o ≤ j ∧ j < o + n
      · rw [if_pos h', if_pos (by omega)]
      · rw [if_neg h', if_neg (by omega)]

/-- A fill of bytes below the size keeps the region inside its size. -/
theorem Memory.within_fill {size : Nat} {m : Memory} (w : m.within size = true) (o : Nat) (v : Byte) (n : Nat)
    (h : n ≤ size - o) : (m.fill o v n).within size = true := by
  induction n with
  | zero => exact w
  | succ n ih => exact Memory.within_write (ih (by omega)) (by omega) v

end Sys2Proof.Machine
end

