-- ==== Sys2Proof/Laws/State.lean ====
section
/-! SUPPORT. One lemma per field per named record update of State, so that no proof unfolds an update. -/

namespace Sys2Proof.Machine

@[simp] theorem State.withMem_cfg (s : State) (m : Memories) : (s.withMem m).cfg = s.cfg := rfl
@[simp] theorem State.withMem_provisioned (s : State) (m : Memories) : (s.withMem m).provisioned = s.provisioned := rfl
@[simp] theorem State.withMem_mem (s : State) (m : Memories) : (s.withMem m).mem = m := rfl
@[simp] theorem State.withMem_display (s : State) (m : Memories) : (s.withMem m).display = s.display := rfl
@[simp] theorem State.withMem_io (s : State) (m : Memories) : (s.withMem m).io = s.io := rfl
@[simp] theorem State.withMem_dma (s : State) (m : Memories) : (s.withMem m).dma = s.dma := rfl
@[simp] theorem State.withMem_blit (s : State) (m : Memories) : (s.withMem m).blit = s.blit := rfl
@[simp] theorem State.withMem_hdma (s : State) (m : Memories) : (s.withMem m).hdma = s.hdma := rfl
@[simp] theorem State.withMem_stack (s : State) (m : Memories) : (s.withMem m).stack = s.stack := rfl
@[simp] theorem State.withMem_port (s : State) (m : Memories) : (s.withMem m).port = s.port := rfl
@[simp] theorem State.withMem_withMem (s : State) (m m' : Memories) : (s.withMem m).withMem m' = s.withMem m' := rfl
@[simp] theorem State.withMem_self (s : State) : s.withMem s.mem = s := rfl

@[simp] theorem State.withDisplay_cfg (s : State) (d : Display) : (s.withDisplay d).cfg = s.cfg := rfl
@[simp] theorem State.withDisplay_provisioned (s : State) (d : Display) : (s.withDisplay d).provisioned =
  s.provisioned := rfl
@[simp] theorem State.withDisplay_mem (s : State) (d : Display) : (s.withDisplay d).mem = s.mem := rfl
@[simp] theorem State.withDisplay_display (s : State) (d : Display) : (s.withDisplay d).display = d := rfl
@[simp] theorem State.withDisplay_io (s : State) (d : Display) : (s.withDisplay d).io = s.io := rfl
@[simp] theorem State.withDisplay_dma (s : State) (d : Display) : (s.withDisplay d).dma = s.dma := rfl
@[simp] theorem State.withDisplay_blit (s : State) (d : Display) : (s.withDisplay d).blit = s.blit := rfl
@[simp] theorem State.withDisplay_hdma (s : State) (d : Display) : (s.withDisplay d).hdma = s.hdma := rfl
@[simp] theorem State.withDisplay_stack (s : State) (d : Display) : (s.withDisplay d).stack = s.stack := rfl
@[simp] theorem State.withDisplay_port (s : State) (d : Display) : (s.withDisplay d).port = s.port := rfl
@[simp] theorem State.withDisplay_withDisplay (s : State) (d d' : Display) : (s.withDisplay d).withDisplay d' =
  s.withDisplay d' := rfl
@[simp] theorem State.withDisplay_self (s : State) : s.withDisplay s.display = s := rfl

@[simp] theorem State.withIo_cfg (s : State) (r : IoRegs) : (s.withIo r).cfg = s.cfg := rfl
@[simp] theorem State.withIo_provisioned (s : State) (r : IoRegs) : (s.withIo r).provisioned = s.provisioned := rfl
@[simp] theorem State.withIo_mem (s : State) (r : IoRegs) : (s.withIo r).mem = s.mem := rfl
@[simp] theorem State.withIo_display (s : State) (r : IoRegs) : (s.withIo r).display = s.display := rfl
@[simp] theorem State.withIo_io (s : State) (r : IoRegs) : (s.withIo r).io = r := rfl
@[simp] theorem State.withIo_dma (s : State) (r : IoRegs) : (s.withIo r).dma = s.dma := rfl
@[simp] theorem State.withIo_blit (s : State) (r : IoRegs) : (s.withIo r).blit = s.blit := rfl
@[simp] theorem State.withIo_hdma (s : State) (r : IoRegs) : (s.withIo r).hdma = s.hdma := rfl
@[simp] theorem State.withIo_stack (s : State) (r : IoRegs) : (s.withIo r).stack = s.stack := rfl
@[simp] theorem State.withIo_port (s : State) (r : IoRegs) : (s.withIo r).port = s.port := rfl
@[simp] theorem State.withIo_withIo (s : State) (r r' : IoRegs) : (s.withIo r).withIo r' = s.withIo r' := rfl
@[simp] theorem State.withIo_self (s : State) : s.withIo s.io = s := rfl

@[simp] theorem State.withDma_cfg (s : State) (r : DmaRegs) : (s.withDma r).cfg = s.cfg := rfl
@[simp] theorem State.withDma_provisioned (s : State) (r : DmaRegs) : (s.withDma r).provisioned = s.provisioned := rfl
@[simp] theorem State.withDma_mem (s : State) (r : DmaRegs) : (s.withDma r).mem = s.mem := rfl
@[simp] theorem State.withDma_display (s : State) (r : DmaRegs) : (s.withDma r).display = s.display := rfl
@[simp] theorem State.withDma_io (s : State) (r : DmaRegs) : (s.withDma r).io = s.io := rfl
@[simp] theorem State.withDma_dma (s : State) (r : DmaRegs) : (s.withDma r).dma = r := rfl
@[simp] theorem State.withDma_blit (s : State) (r : DmaRegs) : (s.withDma r).blit = s.blit := rfl
@[simp] theorem State.withDma_hdma (s : State) (r : DmaRegs) : (s.withDma r).hdma = s.hdma := rfl
@[simp] theorem State.withDma_stack (s : State) (r : DmaRegs) : (s.withDma r).stack = s.stack := rfl
@[simp] theorem State.withDma_port (s : State) (r : DmaRegs) : (s.withDma r).port = s.port := rfl
@[simp] theorem State.withDma_withDma (s : State) (r r' : DmaRegs) : (s.withDma r).withDma r' = s.withDma r' := rfl
@[simp] theorem State.withDma_self (s : State) : s.withDma s.dma = s := rfl

@[simp] theorem State.withBlit_cfg (s : State) (r : BlitRegs) : (s.withBlit r).cfg = s.cfg := rfl
@[simp] theorem State.withBlit_provisioned (s : State) (r : BlitRegs) : (s.withBlit r).provisioned =
  s.provisioned := rfl
@[simp] theorem State.withBlit_mem (s : State) (r : BlitRegs) : (s.withBlit r).mem = s.mem := rfl
@[simp] theorem State.withBlit_display (s : State) (r : BlitRegs) : (s.withBlit r).display = s.display := rfl
@[simp] theorem State.withBlit_io (s : State) (r : BlitRegs) : (s.withBlit r).io = s.io := rfl
@[simp] theorem State.withBlit_dma (s : State) (r : BlitRegs) : (s.withBlit r).dma = s.dma := rfl
@[simp] theorem State.withBlit_blit (s : State) (r : BlitRegs) : (s.withBlit r).blit = r := rfl
@[simp] theorem State.withBlit_hdma (s : State) (r : BlitRegs) : (s.withBlit r).hdma = s.hdma := rfl
@[simp] theorem State.withBlit_stack (s : State) (r : BlitRegs) : (s.withBlit r).stack = s.stack := rfl
@[simp] theorem State.withBlit_port (s : State) (r : BlitRegs) : (s.withBlit r).port = s.port := rfl
@[simp] theorem State.withBlit_withBlit (s : State) (r r' : BlitRegs) : (s.withBlit r).withBlit r' =
  s.withBlit r' := rfl
@[simp] theorem State.withBlit_self (s : State) : s.withBlit s.blit = s := rfl

@[simp] theorem State.withHdma_cfg (s : State) (h : Vector HdmaChannel 8) : (s.withHdma h).cfg = s.cfg := rfl
@[simp] theorem State.withHdma_provisioned (s : State) (h : Vector HdmaChannel 8) : (s.withHdma h).provisioned =
  s.provisioned := rfl
@[simp] theorem State.withHdma_mem (s : State) (h : Vector HdmaChannel 8) : (s.withHdma h).mem = s.mem := rfl
@[simp] theorem State.withHdma_display (s : State) (h : Vector HdmaChannel 8) : (s.withHdma h).display =
  s.display := rfl
@[simp] theorem State.withHdma_io (s : State) (h : Vector HdmaChannel 8) : (s.withHdma h).io = s.io := rfl
@[simp] theorem State.withHdma_dma (s : State) (h : Vector HdmaChannel 8) : (s.withHdma h).dma = s.dma := rfl
@[simp] theorem State.withHdma_blit (s : State) (h : Vector HdmaChannel 8) : (s.withHdma h).blit = s.blit := rfl
@[simp] theorem State.withHdma_hdma (s : State) (h : Vector HdmaChannel 8) : (s.withHdma h).hdma = h := rfl
@[simp] theorem State.withHdma_stack (s : State) (h : Vector HdmaChannel 8) : (s.withHdma h).stack = s.stack := rfl
@[simp] theorem State.withHdma_port (s : State) (h : Vector HdmaChannel 8) : (s.withHdma h).port = s.port := rfl
@[simp] theorem State.withHdma_withHdma (s : State) (h h' : Vector HdmaChannel 8) : (s.withHdma h).withHdma h' =
  s.withHdma h' := rfl
@[simp] theorem State.withHdma_self (s : State) : s.withHdma s.hdma = s := rfl

@[simp] theorem State.withStack_cfg (s : State) (k : List Activation) : (s.withStack k).cfg = s.cfg := rfl
@[simp] theorem State.withStack_provisioned (s : State) (k : List Activation) : (s.withStack k).provisioned =
  s.provisioned := rfl
@[simp] theorem State.withStack_mem (s : State) (k : List Activation) : (s.withStack k).mem = s.mem := rfl
@[simp] theorem State.withStack_display (s : State) (k : List Activation) : (s.withStack k).display = s.display := rfl
@[simp] theorem State.withStack_io (s : State) (k : List Activation) : (s.withStack k).io = s.io := rfl
@[simp] theorem State.withStack_dma (s : State) (k : List Activation) : (s.withStack k).dma = s.dma := rfl
@[simp] theorem State.withStack_blit (s : State) (k : List Activation) : (s.withStack k).blit = s.blit := rfl
@[simp] theorem State.withStack_hdma (s : State) (k : List Activation) : (s.withStack k).hdma = s.hdma := rfl
@[simp] theorem State.withStack_stack (s : State) (k : List Activation) : (s.withStack k).stack = k := rfl
@[simp] theorem State.withStack_port (s : State) (k : List Activation) : (s.withStack k).port = s.port := rfl
@[simp] theorem State.withStack_withStack (s : State) (k k' : List Activation) : (s.withStack k).withStack k' =
  s.withStack k' := rfl
@[simp] theorem State.withStack_self (s : State) : s.withStack s.stack = s := rfl

@[simp] theorem State.withPort_cfg (s : State) (p : Ports) : (s.withPort p).cfg = s.cfg := rfl
@[simp] theorem State.withPort_provisioned (s : State) (p : Ports) : (s.withPort p).provisioned = s.provisioned := rfl
@[simp] theorem State.withPort_mem (s : State) (p : Ports) : (s.withPort p).mem = s.mem := rfl
@[simp] theorem State.withPort_display (s : State) (p : Ports) : (s.withPort p).display = s.display := rfl
@[simp] theorem State.withPort_io (s : State) (p : Ports) : (s.withPort p).io = s.io := rfl
@[simp] theorem State.withPort_dma (s : State) (p : Ports) : (s.withPort p).dma = s.dma := rfl
@[simp] theorem State.withPort_blit (s : State) (p : Ports) : (s.withPort p).blit = s.blit := rfl
@[simp] theorem State.withPort_hdma (s : State) (p : Ports) : (s.withPort p).hdma = s.hdma := rfl
@[simp] theorem State.withPort_stack (s : State) (p : Ports) : (s.withPort p).stack = s.stack := rfl
@[simp] theorem State.withPort_port (s : State) (p : Ports) : (s.withPort p).port = p := rfl
@[simp] theorem State.withPort_withPort (s : State) (p p' : Ports) : (s.withPort p).withPort p' = s.withPort p' := rfl
@[simp] theorem State.withPort_self (s : State) : s.withPort s.port = s := rfl

end Sys2Proof.Machine
end

