-- ==== Sys2Proof/Laws/Ops.lean ====
section
/-! SUPPORT. One lemma per shared operation of Machine/Ops.lean: what a read may change, what a write outside the
register window may change, and what every operation keeps. -/

namespace Sys2Proof.Machine

/-! ## What a bus read may change (R96) -/

theorem readFrame.rfl' (s : State) : readFrame s s := ⟨s.io.keyscan, s.port, rfl, rfl, rfl, [], rfl, nofun⟩

theorem readFrame.trans {s t u : State} (h : readFrame s t) (g : readFrame t u) : readFrame s u := by
  obtain ⟨k, p, rfl, h1, h2, e, h3, h4⟩ := h
  obtain ⟨k', p', rfl, g1, g2, e', g3, g4⟩ := g
  exact ⟨k', p', rfl, g1.trans h1, g2.trans h2, e' ++ e, by rw [g3, State.withPort_port, h3, List.append_assoc],
    fun x hx => (List.mem_append.mp hx).elim (g4 x) (h4 x)⟩

/-- A call on a port, once made, is the newest event. -/
theorem isReadCall.single {e : PortEvent} (h : isReadCall e) : ∀ x ∈ [e], isReadCall x := fun _ hx =>
  List.mem_singleton.mp hx ▸ h

theorem readFrame.cfg {s t : State} (h : readFrame s t) : t.cfg = s.cfg := by obtain ⟨k, p, rfl, -⟩ := h; rfl
theorem readFrame.provisioned {s t : State} (h : readFrame s t) : t.provisioned = s.provisioned := by
  obtain ⟨k, p, rfl, -⟩ := h; rfl
theorem readFrame.mem {s t : State} (h : readFrame s t) : t.mem = s.mem := by obtain ⟨k, p, rfl, -⟩ := h; rfl
theorem readFrame.display {s t : State} (h : readFrame s t) : t.display = s.display := by
  obtain ⟨k, p, rfl, -⟩ := h; rfl
theorem readFrame.dma {s t : State} (h : readFrame s t) : t.dma = s.dma := by obtain ⟨k, p, rfl, -⟩ := h; rfl
theorem readFrame.blit {s t : State} (h : readFrame s t) : t.blit = s.blit := by obtain ⟨k, p, rfl, -⟩ := h; rfl
theorem readFrame.hdma {s t : State} (h : readFrame s t) : t.hdma = s.hdma := by obtain ⟨k, p, rfl, -⟩ := h; rfl
theorem readFrame.stack {s t : State} (h : readFrame s t) : t.stack = s.stack := by obtain ⟨k, p, rfl, -⟩ := h; rfl
theorem readFrame.requests {s t : State} (h : readFrame s t) : t.port.requests = s.port.requests := by
  obtain ⟨k, p, rfl, h, -⟩ := h; exact h
theorem readFrame.result {s t : State} (h : readFrame s t) : t.port.result = s.port.result := by
  obtain ⟨k, p, rfl, -, h, -⟩ := h; exact h

theorem poll_readFrame (s : State) : readFrame s (poll s).2 := by
  unfold poll
  split
  · exact ⟨s.io.keyscan, _, rfl, rfl, rfl, [.poll], rfl, isReadCall.single (.inl rfl)⟩
  · exact ⟨s.io.keyscan, _, rfl, rfl, rfl, [.poll], rfl, isReadCall.single (.inl rfl)⟩

theorem devRead_readFrame (slot off : Nat) (s : State) : readFrame s (devRead slot off s).2 := by
  unfold devRead
  split
  · exact ⟨s.io.keyscan, _, rfl, rfl, rfl, [.devRead slot off], rfl, isReadCall.single (.inr ⟨slot, off, rfl⟩)⟩
  · exact ⟨s.io.keyscan, _, rfl, rfl, rfl, [.devRead slot off], rfl, isReadCall.single (.inr ⟨slot, off, rfl⟩)⟩

theorem keyscanRead_readFrame (s : State) : readFrame s (keyscanRead s).2 :=
  (poll_readFrame s).trans ⟨(poll s).1, (poll s).2.port, rfl, rfl, rfl, [], rfl, nofun⟩

/-- Of all registers only `KEYSCAN` has a read that changes anything (R96). -/
theorem regRead_readFrame (r : Reg) (s : State) : readFrame s (regRead r s).2 := by
  cases r <;> first | exact keyscanRead_readFrame s | exact readFrame.rfl' s

theorem regRead_pure {r : Reg} (h : r ≠ .keyscan) (s : State) : (regRead r s).2 = s := by
  cases r <;> first | rfl | exact absurd rfl h

theorem windowRead_readFrame (a : Addr) (s : State) : readFrame s (windowRead a s).2 := by
  unfold windowRead
  split
  · exact regRead_readFrame _ s
  · exact readFrame.rfl' s

theorem regionRead_readFrame (g : Region) (o : Nat) (s : State) : readFrame s (regionRead g o s).2 := by
  cases g
  case dev =>
    simp only [regionRead, devWindowRead]
    split
    · exact devRead_readFrame _ _ s
    · exact readFrame.rfl' s
  all_goals exact readFrame.rfl' s

theorem byteRead_readFrame (a : Addr) (s : State) : readFrame s (byteRead a s).2 := by
  unfold byteRead
  split
  · exact windowRead_readFrame a s
  · exact regionRead_readFrame _ _ s

theorem readBytes_readFrame (n : Nat) (a : Addr) (acc : Long) (s : State) : readFrame s (readBytes n a acc s).2 := by
  induction n generalizing a acc s with
  | zero => exact readFrame.rfl' s
  | succ n ih => exact (byteRead_readFrame a s).trans (ih _ _ _)

/-- A bus read changes at most the cached scan code and what stands at the poll and device ports (R96). -/
theorem busRead_readFrame (w : Width) (a : Addr) (s : State) : readFrame s (busRead w a s).2 := by
  unfold busRead
  split
  · exact regRead_readFrame _ s
  · exact readBytes_readFrame _ _ _ s

/-! ## What a bus write outside the register window may change (R73 to R79) -/

theorem storeFrame.rfl' (s : State) : storeFrame s s := ⟨s.mem.wram, s.mem.vram, [], rfl, nofun⟩

theorem storeFrame.trans {s t u : State} (h : storeFrame s t) (g : storeFrame t u) : storeFrame s u := by
  obtain ⟨w, v, e, rfl, h⟩ := h
  obtain ⟨w', v', e', rfl, g⟩ := g
  exact ⟨w', v', e' ++ e, by rw [List.append_assoc]; rfl, fun x hx => (List.mem_append.mp hx).elim (g x) (h x)⟩

theorem storeFrame.cfg {s t : State} (h : storeFrame s t) : t.cfg = s.cfg := by obtain ⟨w, v, e, rfl, -⟩ := h; rfl
theorem storeFrame.provisioned {s t : State} (h : storeFrame s t) : t.provisioned = s.provisioned := by
  obtain ⟨w, v, e, rfl, -⟩ := h; rfl
theorem storeFrame.display {s t : State} (h : storeFrame s t) : t.display = s.display := by
  obtain ⟨w, v, e, rfl, -⟩ := h; rfl
theorem storeFrame.io {s t : State} (h : storeFrame s t) : t.io = s.io := by obtain ⟨w, v, e, rfl, -⟩ := h; rfl
theorem storeFrame.dma {s t : State} (h : storeFrame s t) : t.dma = s.dma := by obtain ⟨w, v, e, rfl, -⟩ := h; rfl
theorem storeFrame.blit {s t : State} (h : storeFrame s t) : t.blit = s.blit := by obtain ⟨w, v, e, rfl, -⟩ := h; rfl
theorem storeFrame.hdma {s t : State} (h : storeFrame s t) : t.hdma = s.hdma := by obtain ⟨w, v, e, rfl, -⟩ := h; rfl
theorem storeFrame.stack {s t : State} (h : storeFrame s t) : t.stack = s.stack := by obtain ⟨w, v, e, rfl, -⟩ := h; rfl

theorem regionWrite_storeFrame (g : Region) (o : Nat) (v : Byte) (s : State) : storeFrame s (regionWrite g o v s) := by
  cases g
  case wram =>
    simp only [regionWrite, wramWrite]
    split
    · exact ⟨s.mem.wram.write o v, s.mem.vram, [], rfl, nofun⟩
    · exact storeFrame.rfl' s
  case vram =>
    simp only [regionWrite, vramWrite]
    split
    · exact ⟨s.mem.wram, s.mem.vram.write (vramIndex o s) v, [], rfl, nofun⟩
    · exact storeFrame.rfl' s
  case dev =>
    simp only [regionWrite, devWindowWrite]
    split
    next slot r _ =>
      exact ⟨s.mem.wram, s.mem.vram, [.devWrite slot r v], rfl, fun x hx => ⟨slot, r, v, List.mem_singleton.mp hx⟩⟩
    · exact storeFrame.rfl' s
  all_goals exact storeFrame.rfl' s

theorem byteWrite_outside {a : Addr} {s : State} (h : inWindow s.cfg a = false) (v : Byte) :
    byteWrite a v s = regionWrite (regionOf (bankOf s.cfg a)) (offOf a) v s := by
  simp [byteWrite, h]

theorem byteRead_outside {a : Addr} {s : State} (h : inWindow s.cfg a = false) :
    byteRead a s = regionRead (regionOf (bankOf s.cfg a)) (offOf a) s := by
  simp [byteRead, h]

theorem selectReg_outside {c : Cfg} {a : Addr} (h : inWindow c a = false) (w : Width) : selectReg c a w = none := by
  simp [selectReg, h]

theorem nativeReg_outside {c : Cfg} {a : Addr} (h : inWindow c a = false) (w : Width) : nativeReg c a w = none := by
  cases w <;> simp [nativeReg, selectReg_outside h]

theorem outsideWindow.head {c : Cfg} {a : Addr} {n : Nat} (h : outsideWindow c a (n + 1)) : inWindow c a = false := by
  have := h 0 (Nat.succ_pos n)
  simpa using this

theorem outsideWindow.tail {c : Cfg} {a : Addr} {n : Nat} (h : outsideWindow c a (n + 1)) : outsideWindow c (a + 1) n
  := by
  intro i hi
  have := h (i + 1) (by omega)
  rwa [show a + BitVec.ofNat 32 (i + 1) = a + 1 + BitVec.ofNat 32 i by
    rw [BitVec.add_assoc, Nat.add_comm i 1, BitVec.ofNat_add]; rfl] at this

/-- Outside the window a composed write is its bytes one after the other, nothing waits (R173, R175). -/
theorem writeBytes_cons {a : Addr} {v : Byte} {vs : List Byte} {s : State} (h : inWindow s.cfg a = false) :
    writeBytes a (v :: vs) s = writeBytes (a + 1) vs (byteWrite a v s) := by
  simp [writeBytes, hitsDmaCtrl, selectReg_outside h]

theorem writeBytes_storeFrame {a : Addr} {vs : List Byte} {s : State} (h : outsideWindow s.cfg a vs.length) :
    storeFrame s (writeBytes a vs s) := by
  induction vs generalizing a s with
  | nil => exact storeFrame.rfl' s
  | cons v vs ih =>
    have h1 : storeFrame s (byteWrite a v s) := by
      rw [byteWrite_outside h.head]
      exact regionWrite_storeFrame _ _ _ s
    rw [writeBytes_cons h.head]
    exact h1.trans (ih (by rw [h1.cfg]; exact h.tail))

theorem bytesOf_length (w : Width) (v : Long) : (bytesOf w v).length = w.step := by cases w <;> rfl

theorem Width.step_pos (w : Width) : 0 < w.step := by cases w <;> decide

/-- A bus write outside the window is its bytes, most significant first (R171, R173, R175). -/
theorem busWrite_outside {w : Width} {a : Addr} {s : State} (h : inWindow s.cfg a = false) (v : Long) :
    busWrite w a v s = writeBytes a (bytesOf w v) s := by
  simp [busWrite, nativeReg_outside h]

/-- A bus read outside the window is its bytes, most significant first (R170, R172, R174). -/
theorem busRead_outside {w : Width} {a : Addr} {s : State} (h : inWindow s.cfg a = false) :
    busRead w a s = readBytes w.step a 0 s := by
  simp [busRead, nativeReg_outside h]

theorem outsideWindow.first {c : Cfg} {a : Addr} {w : Width} (h : outsideWindow c a w.step) : inWindow c a = false := by
  have := h 0 (Width.step_pos w)
  simpa using this

/-- A bus write whose bytes all lie outside the window changes at most the two RAMs and the record of device calls. -/
theorem busWrite_storeFrame {w : Width} {a : Addr} {s : State} (h : outsideWindow s.cfg a w.step) (v : Long) :
    storeFrame s (busWrite w a v s) := by
  rw [busWrite_outside h.first]
  exact writeBytes_storeFrame (by rwa [bytesOf_length])

/-! ## What every operation keeps -/

/-- The configuration, `PROVISIONED`, the ROMs, the waiting requests and the last answer are kept, and canonical
memories stay canonical. -/
structure Keeps (s t : State) : Prop where
  cfg : t.cfg = s.cfg
  provisioned : t.provisioned = s.provisioned
  boot : t.mem.boot = s.mem.boot
  cart : t.mem.cart = s.mem.cart
  requests : t.port.requests = s.port.requests
  result : t.port.result = s.port.result
  mem : memOk s.cfg s.mem = true → memOk t.cfg t.mem = true

theorem Keeps.rfl' (s : State) : Keeps s s := ⟨rfl, rfl, rfl, rfl, rfl, rfl, id⟩

theorem Keeps.trans {s t u : State} (h : Keeps s t) (g : Keeps t u) : Keeps s u :=
  ⟨g.cfg.trans h.cfg, g.provisioned.trans h.provisioned, g.boot.trans h.boot, g.cart.trans h.cart,
    g.requests.trans h.requests, g.result.trans h.result, g.mem ∘ h.mem⟩

/-- An update that leaves these fields alone keeps them. -/
theorem Keeps.of_eq {s t : State} (h1 : t.cfg = s.cfg) (h2 : t.provisioned = s.provisioned) (h3 : t.mem = s.mem)
    (h4 : t.port.requests = s.port.requests) (h5 : t.port.result = s.port.result) : Keeps s t :=
  ⟨h1, h2, by rw [h3], by rw [h3], h4, h5, by rw [h1, h3]; exact id⟩

theorem readFrame.keeps {s t : State} (h : readFrame s t) : Keeps s t :=
  Keeps.of_eq h.cfg h.provisioned h.mem h.requests h.result

theorem memOk_wram {c : Cfg} {m : Memories} (h : memOk c m = true) {w : Memory} (h1 : w.wf = true)
    (h2 : w.within c.wramSize = true) : memOk c { m with wram := w } = true := by
  simp_all [memOk]

theorem memOk_vram {c : Cfg} {m : Memories} (h : memOk c m = true) {v : Memory} (h1 : v.wf = true)
    (h2 : v.within c.vramSize = true) : memOk c { m with vram := v } = true := by
  simp_all [memOk]

theorem memOk.wram_wf {c : Cfg} {m : Memories} (h : memOk c m = true) : m.wram.wf = true := by simp_all [memOk]
theorem memOk.wram_within {c : Cfg} {m : Memories} (h : memOk c m = true) : m.wram.within c.wramSize = true := by
  simp_all [memOk]
theorem memOk.vram_wf {c : Cfg} {m : Memories} (h : memOk c m = true) : m.vram.wf = true := by simp_all [memOk]
theorem memOk.vram_within {c : Cfg} {m : Memories} (h : memOk c m = true) : m.vram.within c.vramSize = true := by
  simp_all [memOk]

theorem wramWrite_keeps (o : Nat) (v : Byte) (s : State) : Keeps s (wramWrite o v s) := by
  unfold wramWrite
  split
  · exact ⟨rfl, rfl, rfl, rfl, rfl, rfl, fun h =>
      memOk_wram h (Memory.wf_write (memOk.wram_wf h) _ _) (Memory.within_write (memOk.wram_within h) ‹_› _)⟩
  · exact Keeps.rfl' s

theorem vramWrite_keeps (o : Nat) (v : Byte) (s : State) : Keeps s (vramWrite o v s) := by
  unfold vramWrite
  split
  · exact ⟨rfl, rfl, rfl, rfl, rfl, rfl, fun h =>
      memOk_vram h (Memory.wf_write (memOk.vram_wf h) _ _) (Memory.within_write (memOk.vram_within h) ‹_› _)⟩
  · exact Keeps.rfl' s

theorem regionWrite_keeps (g : Region) (o : Nat) (v : Byte) (s : State) : Keeps s (regionWrite g o v s) := by
  cases g
  case wram => exact wramWrite_keeps o v s
  case vram => exact vramWrite_keeps o v s
  case dev =>
    simp only [regionWrite, devWindowWrite]
    split
    · exact Keeps.of_eq rfl rfl rfl rfl rfl
    · exact Keeps.rfl' s
  all_goals exact Keeps.rfl' s

/-- A fast fill keeps the canonical form (R266). -/
theorem dmaFastFill_keeps (i j : Bool) (s : State) : Keeps s (dmaFastFill i j s) :=
  ⟨rfl, rfl, rfl, rfl, rfl, rfl, fun h =>
    memOk_wram h (Memory.wf_fill (memOk.wram_wf h) _ _ _)
      (Memory.within_fill (memOk.wram_within h) _ _ _ (Nat.min_le_right _ _))⟩

/-- What arming may do: nothing, the fast fill, or one activation more on the stack (R260, R310). -/
theorem dmaStart_cases (k : Bool) (w : BitVec 2) (i j : Bool) (s : State) :
    dmaStart k w i j s = s ∨ dmaStart k w i j s = dmaFastFill i j s ∨ ∃ x, dmaStart k w i j s = push x s := by
  unfold dmaStart
  split
  · exact .inl rfl
  · split
    · exact .inr (.inl rfl)
    · exact .inr (.inr ⟨_, rfl⟩)

theorem blitArm_cases (v : Long) (s : State) : blitArm v s = s ∨ ∃ x, blitArm v s = push x s := by
  have start (op f skip) : blitStart op f skip s = s ∨ ∃ x, blitStart op f skip s = push x s := by
    unfold blitStart
    split
    · exact .inl rfl
    · exact .inr ⟨_, rfl⟩
  have rle (f skip) : rleStart f skip s = s ∨ ∃ x, rleStart f skip s = push x s := by
    unfold rleStart
    split
    · exact .inl rfl
    · exact .inr ⟨_, rfl⟩
  unfold blitArm
  split
  · exact start _ _ _
  split
  · exact start _ _ _
  split
  · exact start _ _ _
  split
  · exact rle _ _
  · exact .inl rfl

theorem push_keeps (x : Activation) (s : State) : Keeps s (push x s) := Keeps.of_eq rfl rfl rfl rfl rfl

theorem dmaStart_keeps (k : Bool) (w : BitVec 2) (i j : Bool) (s : State) : Keeps s (dmaStart k w i j s) := by
  obtain h | h | ⟨x, h⟩ := dmaStart_cases k w i j s
  · rw [h]; exact Keeps.rfl' s
  · rw [h]; exact dmaFastFill_keeps i j s
  · rw [h]; exact push_keeps x s

theorem dmaArm_keeps (v : Byte) (s : State) : Keeps s (dmaArm v s) := by
  unfold dmaArm
  split
  · exact dmaStart_keeps _ _ _ _ s
  · exact Keeps.rfl' s

theorem blitArm_keeps (v : Long) (s : State) : Keeps s (blitArm v s) := by
  obtain h | ⟨x, h⟩ := blitArm_cases v s
  · rw [h]; exact Keeps.rfl' s
  · rw [h]; exact push_keeps x s

theorem regWrite_keeps (r : Reg) (v : Long) (s : State) : Keeps s (regWrite r v s) := by
  cases r
  case dmaCtrl => exact dmaArm_keeps _ s
  case blitFunc => exact blitArm_keeps _ s
  all_goals exact Keeps.of_eq rfl rfl rfl rfl rfl

theorem windowWrite_keeps (a : Addr) (v : Byte) (s : State) : Keeps s (windowWrite a v s) := by
  unfold windowWrite
  split
  · exact regWrite_keeps _ _ s
  · exact Keeps.rfl' s

theorem byteWrite_keeps (a : Addr) (v : Byte) (s : State) : Keeps s (byteWrite a v s) := by
  unfold byteWrite
  split
  · exact windowWrite_keeps a v s
  · exact regionWrite_keeps _ _ _ s

theorem writeBytes_keeps (a : Addr) (vs : List Byte) (s : State) : Keeps s (writeBytes a vs s) := by
  induction vs generalizing a s with
  | nil => exact Keeps.rfl' s
  | cons v vs ih =>
    unfold writeBytes
    split
    · exact (push_keeps _ s).trans (byteWrite_keeps _ _ _)
    · exact (byteWrite_keeps _ _ s).trans (ih _ _)

/-- A bus write keeps what every operation keeps. -/
theorem busWrite_keeps (w : Width) (a : Addr) (v : Long) (s : State) : Keeps s (busWrite w a v s) := by
  unfold busWrite
  split
  · exact regWrite_keeps _ _ s
  · exact writeBytes_keeps _ _ s

theorem busRead_keeps (w : Width) (a : Addr) (s : State) : Keeps s (busRead w a s).2 := (busRead_readFrame w a s).keeps

/-! ## Writes only add to the activation stack (R52) -/

theorem push_stack (x : Activation) (s : State) : (push x s).stack = x :: s.stack := rfl

theorem regWrite_stack (r : Reg) (v : Long) (s : State) : s.stack <:+ (regWrite r v s).stack := by
  cases r
  case dmaCtrl =>
    simp only [regWrite, dmaArm]
    split
    · obtain h | h | ⟨x, h⟩ := dmaStart_cases (dmacConst (v.setWidth 8)) (dmacWidth (v.setWidth 8))
        (dmacSrcInc (v.setWidth 8)) (dmacDstInc (v.setWidth 8)) s
      · rw [h]
      · rw [h]; exact List.suffix_refl _
      · rw [h]; exact List.suffix_cons _ _
    · exact List.suffix_refl _
  case blitFunc =>
    simp only [regWrite]
    obtain h | ⟨x, h⟩ := blitArm_cases v s
    · rw [h]
    · rw [h]; exact List.suffix_cons _ _
  all_goals exact List.suffix_refl _

theorem byteWrite_stack (a : Addr) (v : Byte) (s : State) : s.stack <:+ (byteWrite a v s).stack := by
  unfold byteWrite
  split
  · unfold windowWrite
    split
    · exact regWrite_stack _ _ s
    · exact List.suffix_refl _
  · rw [(regionWrite_storeFrame _ _ _ s).stack]

theorem writeBytes_stack (a : Addr) (vs : List Byte) (s : State) : s.stack <:+ (writeBytes a vs s).stack := by
  induction vs generalizing a s with
  | nil => exact List.suffix_refl _
  | cons v vs ih =>
    unfold writeBytes
    split
    · exact (List.suffix_cons (Activation.bytes (a + 1) vs) s.stack).trans
        (byteWrite_stack a v (push (.bytes (a + 1) vs) s))
    · exact (byteWrite_stack a v s).trans (ih _ _)

theorem busWrite_stack (w : Width) (a : Addr) (v : Long) (s : State) : s.stack <:+ (busWrite w a v s).stack := by
  unfold busWrite
  split
  · exact regWrite_stack _ _ s
  · exact writeBytes_stack _ _ s

end Sys2Proof.Machine
end

