-- ==== Sys2Proof/Laws/Engines.lean ====
section
/-! SUPPORT. The micro-step and the run: what every micro-step keeps, how runs compose, and when a command is its own
effect. -/

namespace Sys2Proof.Machine

/-! ## What a micro-step keeps -/

theorem withStack_keeps (s : State) (k : List Activation) : Keeps s (s.withStack k) := Keeps.of_eq rfl rfl rfl rfl rfl
theorem withBlit_keeps (s : State) (r : BlitRegs) : Keeps s (s.withBlit r) := Keeps.of_eq rfl rfl rfl rfl rfl
theorem withDma_keeps (s : State) (r : DmaRegs) : Keeps s (s.withDma r) := Keeps.of_eq rfl rfl rfl rfl rfl
theorem withHdma_keeps (s : State) (h : Vector HdmaChannel 8) : Keeps s (s.withHdma h) :=
  Keeps.of_eq rfl rfl rfl rfl rfl

/-- What a micro-step does: it keeps what every operation keeps, and leaves the stack below its activation alone. -/
def Progress (rest : List Activation) (s t : State) : Prop := Keeps s t ∧ rest <:+ t.stack

/-- A read, then a write, on top of a stack. -/
theorem progress_busWrite {rest k : List Activation} {s : State} (hk : rest <:+ k) (w : Width) (a : Addr) (v : Long)
    (h : Keeps s (s.withStack k)) : Progress rest s (busWrite w a v (s.withStack k)) :=
  ⟨h.trans (busWrite_keeps _ _ _ _), hk.trans (busWrite_stack w a v (s.withStack k))⟩

theorem dmaTick_progress (l : DmaLatch) (moved : Bool) (rest : List Activation) (s : State) :
    Progress rest s (dmaTick l moved rest s) := by
  unfold dmaTick
  split
  · exact ⟨(withDma_keeps s _).trans (withStack_keeps _ _), List.suffix_cons _ _⟩
  split
  · exact ⟨withStack_keeps _ _, List.suffix_refl _⟩
  · have h : readFrame s (dmaDatum l s).2 := by
      unfold dmaDatum
      split
      · exact readFrame.rfl' s
      · exact busRead_readFrame _ _ s
    exact ⟨h.keeps.trans ((withStack_keeps _ _).trans (busWrite_keeps _ _ _ _)),
      (List.suffix_cons _ rest).trans (busWrite_stack _ _ _ ((dmaDatum l s).2.withStack _))⟩

theorem blitMove_progress (op : BlitOp) (l : BlitLatch) (s : State) : Progress s.stack s (blitMove op l s) := by
  have rw1 (w w' : Width) (a : Addr) (b : State → Addr) (v : Long → Long) :
      Progress s.stack s (busWrite w' (b (busRead w a s).2) (v (busRead w a s).1) (busRead w a s).2) :=
    ⟨(busRead_keeps w a s).trans (busWrite_keeps _ _ _ _),
      (busRead_readFrame w a s).stack ▸ busWrite_stack w' _ _ (busRead w a s).2⟩
  cases op
  case blit =>
    simp only [blitMove]
    split
    · exact ⟨busRead_keeps _ _ s, (busRead_readFrame _ _ s).stack ▸ List.suffix_refl _⟩
    · exact rw1 _ _ _ (fun t => t.blit.b) id
  case set =>
    simp only [blitMove]
    split
    · exact ⟨busWrite_keeps _ _ _ _, busWrite_stack _ _ _ s⟩
    · exact rw1 _ _ _ (fun t => t.blit.b) id
  case invert => exact rw1 .byte .byte _ (fun t => t.blit.b) (~~~ ·)

theorem blitTick_progress (op : BlitOp) (l : BlitLatch) (place : BlitPlace) (rest : List Activation) (s : State) :
    Progress rest s (blitTick op l place rest s) := by
  have move (x : Activation) : Progress rest s (blitMove op l (s.withStack (x :: rest))) :=
    ⟨(withStack_keeps s _).trans (blitMove_progress op l _).1,
      (List.suffix_cons x rest).trans (blitMove_progress op l (s.withStack (x :: rest))).2⟩
  cases place
  case test =>
    simp only [blitTick]
    split
    · exact ⟨withStack_keeps _ _, List.suffix_refl _⟩
    split
    · exact ⟨withStack_keeps _ _, List.suffix_cons _ _⟩
    · exact move _
  case pass i =>
    simp only [blitTick]
    split
    · exact move _
    · exact ⟨(withBlit_keeps s _).trans (withStack_keeps _ _), List.suffix_cons _ _⟩
  case moved i => exact ⟨(withBlit_keeps s _).trans (withStack_keeps _ _), List.suffix_cons _ _⟩

theorem rleFetch_readFrame (s : State) : readFrame s (rleFetch s).2 := by
  unfold rleFetch
  simp only
  split
  · exact (busRead_readFrame _ _ s).trans (busRead_readFrame _ _ _)
  · exact busRead_readFrame _ _ s

theorem rleEffect_keeps (code : RleCode) (s : State) : Keeps s (rleEffect code s) := by
  cases code
  case stop =>
    simp only [rleEffect, rleStop]
    split
    · exact (withBlit_keeps s _).trans (withStack_keeps _ _)
    · exact withBlit_keeps s _
  all_goals exact (withBlit_keeps s _).trans (push_keeps _ _)

theorem rleTick_progress (l : BlitLatch) (rest : List Activation) (s : State) (hs : s.stack = .rle l :: rest) :
    Progress rest s (rleTick rest s) := by
  unfold rleTick
  split
  · exact ⟨withStack_keeps _ _, List.suffix_refl _⟩
  · have h := rleFetch_readFrame s
    refine ⟨h.keeps.trans (rleEffect_keeps _ _), ?_⟩
    generalize rleFetch s = x at h ⊢
    obtain ⟨code, t⟩ := x
    have ht : t.stack = .rle l :: rest := h.stack.trans hs
    cases code <;> simp only [rleEffect, rleStop, rleConsume, push, State.withBlit_stack, ht]
    · exact List.suffix_refl _
    · exact (List.suffix_cons _ _).trans (List.suffix_cons _ _)
    · exact (List.suffix_cons _ _).trans (List.suffix_cons _ _)

theorem rleOutTick_progress (left : Nat) (v : Byte) (wrote : Bool) (rest : List Activation) (s : State) :
    Progress rest s (rleOutTick left v wrote rest s) := by
  unfold rleOutTick
  split
  · exact ⟨(withBlit_keeps s _).trans (withStack_keeps _ _), List.suffix_cons _ _⟩
  · cases left
    · exact ⟨withStack_keeps _ _, List.suffix_refl _⟩
    · exact progress_busWrite (List.suffix_cons _ _) _ _ _ (withStack_keeps _ _)

theorem hdmaServe_progress (h : HdmaChannel) (n : Nat) (s : State) : Progress s.stack s (hdmaServe h n s) := by
  unfold hdmaServe
  split
  · split
    · exact ⟨Keeps.rfl' s, List.suffix_refl _⟩
    · exact ⟨(busRead_keeps _ _ s).trans (busWrite_keeps _ _ _ _),
        (busRead_readFrame _ _ s).stack ▸ busWrite_stack _ _ _ (busRead _ _ s).2⟩
  · exact ⟨Keeps.rfl' s, List.suffix_refl _⟩

theorem hdmaTick_progress (n next : Nat) (rest : List Activation) (s : State) :
    Progress rest s (hdmaTick n next rest s) := by
  unfold hdmaTick
  split
  · exact ⟨(withStack_keeps s _).trans (hdmaServe_progress _ _ _).1,
      (List.suffix_cons (Activation.hdma n (next + 1)) rest).trans
        (hdmaServe_progress _ n (s.withStack (.hdma n (next + 1) :: rest))).2⟩
  · exact ⟨withStack_keeps _ _, List.suffix_refl _⟩

/-- Everything a micro-step can do, said once. -/
theorem tick_progress (s : State) : Progress s.stack.tail s (tick s) := by
  unfold tick
  split
  next h => rw [h]; exact ⟨Keeps.rfl' s, List.nil_suffix⟩
  next l moved rest h => rw [h]; exact dmaTick_progress l moved rest s
  next op l place rest h => rw [h]; exact blitTick_progress op l place rest s
  next l rest h => rw [h]; exact rleTick_progress l rest s h
  next left v wrote rest h => rw [h]; exact rleOutTick_progress left v wrote rest s
  next a vs rest h =>
    rw [h]
    exact ⟨(withStack_keeps s rest).trans (writeBytes_keeps _ _ _), writeBytes_stack a vs (s.withStack rest)⟩
  next n next rest h => rw [h]; exact hdmaTick_progress n next rest s

theorem tick_keeps (s : State) : Keeps s (tick s) := (tick_progress s).1

/-- A micro-step on a stack deeper than `depth` leaves it at least `depth` deep. -/
theorem tick_depth {depth : Nat} {s : State} (h : depth < s.stack.length) : depth ≤ (tick s).stack.length := by
  have := (tick_progress s).2.length_le
  simp only [List.length_tail] at this
  omega

/-! ## The run -/

theorem settle_zero (depth : Nat) (s : State) : settle depth 0 s = s := rfl

theorem settle_done {depth : Nat} {s : State} (h : s.stack.length ≤ depth) (fuel : Nat) : settle depth fuel s = s := by
  cases fuel with
  | zero => rfl
  | succ n => simp [settle, h]

theorem settle_succ {depth fuel : Nat} {s : State} (h : depth < s.stack.length) :
    settle depth (fuel + 1) s = settle depth fuel (tick s) := by
  simp [settle, h]

theorem settle_add (depth m n : Nat) (s : State) : settle depth (m + n) s = settle depth n (settle depth m s) := by
  induction m generalizing s with
  | zero => rw [Nat.zero_add]; rfl
  | succ m ih =>
    by_cases h : s.stack.length ≤ depth
    · rw [settle_done h, settle_done h, settle_done h]
    · have h := Nat.lt_of_not_le h
      rw [Nat.add_right_comm, settle_succ h, settle_succ h, ih]

/-- A property every micro-step keeps holds after a run. -/
theorem settle_induction {P : State → Prop} (step : ∀ t, P t → P (tick t)) (depth fuel : Nat) {s : State} (h : P s) :
    P (settle depth fuel s) := by
  induction fuel generalizing s with
  | zero => exact h
  | succ n ih =>
    unfold settle
    split
    · exact h
    · exact ih (step s h)

theorem settle_keeps (depth fuel : Nat) (s : State) : Keeps s (settle depth fuel s) :=
  settle_induction (P := Keeps s) (fun t h => h.trans (tick_keeps t)) depth fuel (Keeps.rfl' s)

/-- A run ends no shallower than it is told to. -/
theorem settle_depth {depth fuel : Nat} {s : State} (h : depth ≤ s.stack.length) :
    depth ≤ (settle depth fuel s).stack.length := by
  induction fuel generalizing s with
  | zero => exact h
  | succ n ih =>
    unfold settle
    split
    · exact h
    · exact ih (tick_depth (Nat.lt_of_not_le ‹_›))

/-- A run that is done after `m` micro-steps, none of which came back to `depth` before, ends there under any greater
fuel: give the states in between by an invariant indexed by the number of micro-steps left. -/
theorem settle_countdown {depth : Nat} {P : Nat → State → Prop} {t : State}
    (go : ∀ m s, P (m + 1) s → depth < s.stack.length ∧ P m (tick s))
    (stop : ∀ s, P 0 s → s = t ∧ s.stack.length ≤ depth) {m fuel : Nat} (hm : m ≤ fuel) {s : State} (h : P m s) :
    settle depth fuel s = t := by
  induction m generalizing s fuel with
  | zero =>
    obtain ⟨rfl, h⟩ := stop s h
    exact settle_done h _
  | succ m ih =>
    obtain ⟨fuel, rfl⟩ := Nat.exists_eq_add_of_le' (show 1 ≤ fuel by omega)
    obtain ⟨hd, hp⟩ := go m s h
    rw [settle_succ hd]
    exact ih (by omega) hp

/-! ## Commands -/

theorem command_provisioned {s : State} (h : s.provisioned = true) (f : State → State) :
    command f s = .next (settle s.stack.length Config.burst (f s)) := by
  simp [command, h]

theorem command_refused {s : State} (h : s.provisioned = false) (f : State → State) :
    command f s = .refused .notProvisioned := by
  simp [command, h]

/-- A command that arms nothing is its own effect. -/
theorem command_quiet {s : State} (h : s.provisioned = true) {f : State → State}
    (hf : (f s).stack.length ≤ s.stack.length) : command f s = .next (f s) := by
  rw [command_provisioned h, settle_done hf]

/-- Everything a command can do, said once. -/
theorem command_cases {f : State → State} {s t : State} (h : command f s = .next t) :
    s.provisioned = true ∧ t = settle s.stack.length Config.burst (f s) := by
  unfold command at h
  split at h
  · exact ⟨‹_›, (Host.Outcome.next.inj h).symm⟩
  · cases h

theorem command_keeps {f : State → State} {s t : State} (h : command f s =
  .next t) (hf : Keeps s (f s)) : Keeps s t := by
  obtain ⟨-, rfl⟩ := command_cases h
  exact hf.trans (settle_keeps _ _ _)

/-- A read command answers and changes at most what a read may change (R96). -/
theorem command_read {f : State → Long × State} {s : State} (h : s.provisioned = true) (hf : readFrame s (f s).2) :
    command (readCommand f) s = .next (answer (f s).1 (f s).2) := by
  rw [command_quiet h]
  · rfl
  · simp [readCommand, answer, hf.stack]

theorem answer_requests (v : Long) (s : State) : (answer v s).port.requests = s.port.requests := rfl

end Sys2Proof.Machine
end

