-- ==== Sys2Proof/Laws/Bus.lean ====
section
/-! SUPPORT. Bus accesses, byte by byte: the value a read outside the register window composes, the bytes a write there
stores, and what a write into the window leaves alone. -/

namespace Sys2Proof.Machine

/-! ## Values and bytes (R85) -/

theorem appendByte_zero (b : Byte) : appendByte 0 b = b.setWidth 32 := by
  apply BitVec.eq_of_getLsbD_eq
  intro i _
  simp [appendByte]

theorem setWidth_append {n m : Nat} (x : BitVec n) (y : BitVec m) (k : Nat) :
    (x ++ y).setWidth k = (x.setWidth k <<< m) ||| y.setWidth k := by
  apply BitVec.eq_of_getLsbD_eq
  intro i hi
  simp only [BitVec.getLsbD_or, BitVec.getLsbD_shiftLeft, BitVec.getLsbD_setWidth, BitVec.getLsbD_append]
  by_cases h : i < m
  · simp [h, hi]
  · have : y.getLsbD i = false := BitVec.getLsbD_of_ge _ _ (by omega)
    simp [h, hi, this, show i - m < k by omega]

theorem appendByte_two (a b : Byte) : appendByte (appendByte 0 a) b = (a ++ b).setWidth 32 := by
  rw [setWidth_append, appendByte_zero]; rfl

theorem appendByte_four (a b c d : Byte) :
    appendByte (appendByte (appendByte (appendByte 0 a) b) c) d = a ++ b ++ c ++ d := by
  have : (a ++ b ++ c ++ d) = (a ++ b ++ c ++ d).setWidth 32 := by rw [BitVec.setWidth_eq]
  rw [this, setWidth_append, setWidth_append, setWidth_append, appendByte_zero]; rfl

theorem add_ofNat_succ (a : Addr) (i : Nat) : a + BitVec.ofNat 32 (i + 1) = a + 1 + BitVec.ofNat 32 i := by
  rw [BitVec.add_assoc, Nat.add_comm i 1, BitVec.ofNat_add]; rfl

theorem add_ofNat_add (a : Addr) (i j : Nat) : a + BitVec.ofNat 32 (i + j) =
  a + BitVec.ofNat 32 i + BitVec.ofNat 32 j := by
  rw [BitVec.add_assoc, BitVec.ofNat_add]

theorem add_ofNat_zero (a : Addr) : a + BitVec.ofNat 32 0 = a := by simp

/-! ## Byte accesses are single bytes (R170, R171) -/

theorem busRead_byte (a : Addr) (s : State) : busRead .byte a s = ((byteRead a s).1.setWidth 32, (byteRead a s).2) := by
  simp only [busRead, nativeReg, readBytes, Width.step, appendByte_zero]

theorem busWrite_byte (a : Addr) (d : Long) (s : State) : busWrite .byte a d s = byteWrite a (d.setWidth 8) s := by
  simp only [busWrite, nativeReg, bytesOf, writeBytes, List.isEmpty_nil, Bool.not_true, Bool.and_false,
    Bool.false_eq_true,
    if_false]
  congr 1

/-! ## Reads without side effect (R96) -/

/-- A byte outside the window and the device window is read without changing anything. -/
theorem byteRead_plain {s : State} {a : Addr} (h : plainAddr s.cfg a) : byteRead a s = (plainByte s a, s) := by
  rw [byteRead_outside h.1]
  unfold plainByte regionOf
  by_cases h0 : bankOf s.cfg a = 0
  · simp [h0, regionRead]
  by_cases h1 : bankOf s.cfg a = 1
  · simp [h1, regionRead]
  by_cases he : bankOf s.cfg a = 0xE
  · simp [he, regionRead]
  · have h2 := h.2
    simp only [h0, h1, h2, he, if_false, regionRead]

theorem readBytes_plain {n : Nat} {a : Addr} {s : State} (h : ∀ i, i < n → plainAddr s.cfg (a + BitVec.ofNat 32 i))
    (acc : Long) : readBytes n a acc s = ((plainBytes s a n).foldl appendByte acc, s) := by
  induction n generalizing a acc with
  | zero => rfl
  | succ n ih =>
    have h0 : plainAddr s.cfg a := by simpa using h 0 (Nat.succ_pos n)
    have hb : plainBytes s a (n + 1) = plainByte s a :: plainBytes s (a + 1) n := by
      simp only [plainBytes, List.range_succ_eq_map, List.map_cons, List.map_map, add_ofNat_zero]
      congr 1
      apply List.map_congr_left
      intro i _
      simp only [Function.comp_apply, Nat.succ_eq_add_one, add_ofNat_succ]
    rw [readBytes, byteRead_plain h0, ih fun i hi => by rw [← add_ofNat_succ]; exact h (i + 1) (by omega), hb]
    rfl

/-- A read whose bytes are plain answers them composed, and changes nothing (R170, R172, R174). -/
theorem busRead_plain {w : Width} {a : Addr} {s : State}
    (h : ∀ i, i < w.step → plainAddr s.cfg (a + BitVec.ofNat 32 i)) :
    busRead w a s = (longOfBytes (plainBytes s a w.step), s) := by
  have h0 : plainAddr s.cfg a := by simpa using h 0 (Width.step_pos w)
  rw [busRead_outside h0.1, readBytes_plain h]
  rfl

/-! ## What a byte write outside the window stores (R73 to R79) -/

theorem byteWrite_storeFrame {a : Addr} {s : State} (h : inWindow s.cfg a = false) (v : Byte) :
    storeFrame s (byteWrite a v s) := by
  rw [byteWrite_outside h]
  exact regionWrite_storeFrame _ _ _ s

theorem byteWrite_wram {a : Addr} {s : State} (h : inWindow s.cfg a = false) (wf : s.mem.wram.wf = true) (v : Byte)
    (j : Nat) :
    (storesWram s.cfg a j → (byteWrite a v s).mem.wram.read j = v) ∧
    (¬ storesWram s.cfg a j → (byteWrite a v s).mem.wram.read j = s.mem.wram.read j) := by
  rw [byteWrite_outside h]
  unfold regionOf
  by_cases h1 : bankOf s.cfg a = 1
  · simp only [h1, regionWrite, wramWrite]
    by_cases ho : offOf a < s.cfg.wramSize
    · simp only [show (1 : BitVec 4) ≠ 0 by decide, if_false, if_true, ho, State.withMem_mem, Memory.read_write wf]
      refine ⟨fun hs => if_pos hs.2.2.1, fun hs => if_neg fun e => hs ⟨h, h1, e, e ▸ ho⟩⟩
    · simp only [show (1 : BitVec 4) ≠ 0 by decide, if_false, if_true, ho]
      exact ⟨fun hs => absurd (hs.2.2.1 ▸ hs.2.2.2) ho, fun _ => trivial⟩
  · refine ⟨fun hs => absurd hs.2.1 h1, fun _ => ?_⟩
    by_cases h0 : bankOf s.cfg a = 0
    · simp [h0, regionWrite]
    by_cases h2 : bankOf s.cfg a = 2
    · simp only [h2, regionWrite, devWindowWrite]
      simp only [show (2 : BitVec 4) ≠ 0 by decide, show (2 : BitVec 4) ≠ 1 by decide, if_false, if_true]
      split <;> rfl
    by_cases he : bankOf s.cfg a = 0xE
    · simp only [he, regionWrite, vramWrite]
      simp only [show (0xE : BitVec 4) ≠ 0 by decide, show (0xE : BitVec 4) ≠ 1 by decide,
        show (0xE : BitVec 4) ≠ 2 by decide, if_false, if_true]
      split <;> rfl
    · simp only [h0, h1, h2, he, if_false, regionWrite]

theorem byteWrite_vram {a : Addr} {s : State} (h : inWindow s.cfg a = false) (wf : s.mem.vram.wf = true) (v : Byte)
    (j : Nat) :
    (storesVram s.cfg a j → (byteWrite a v s).mem.vram.read j = v) ∧
    (¬ storesVram s.cfg a j → (byteWrite a v s).mem.vram.read j = s.mem.vram.read j) := by
  rw [byteWrite_outside h]
  unfold regionOf
  by_cases he : bankOf s.cfg a = 0xE
  · have hv : vramIndex (offOf a) s = offOf a &&& s.cfg.vramWinMask := rfl
    simp only [he, regionWrite, vramWrite, hv]
    simp only [show (0xE : BitVec 4) ≠ 0 by decide, show (0xE : BitVec 4) ≠ 1 by decide,
      show (0xE : BitVec 4) ≠ 2 by decide, if_false, if_true]
    by_cases ho : offOf a &&& s.cfg.vramWinMask < s.cfg.vramSize
    · simp only [if_true, ho, State.withMem_mem, Memory.read_write wf]
      refine ⟨fun hs => if_pos hs.2.2.1, fun hs => if_neg fun e => hs ⟨h, he, e, e ▸ ho⟩⟩
    · simp only [if_false, ho]
      exact ⟨fun hs => absurd (hs.2.2.1 ▸ hs.2.2.2) ho, fun _ => trivial⟩
  · refine ⟨fun hs => absurd hs.2.1 he, fun _ => ?_⟩
    by_cases h0 : bankOf s.cfg a = 0
    · simp [h0, regionWrite]
    by_cases h1 : bankOf s.cfg a = 1
    · simp only [h1, regionWrite, wramWrite]
      simp only [show (1 : BitVec 4) ≠ 0 by decide, if_false, if_true]
      split <;> rfl
    by_cases h2 : bankOf s.cfg a = 2
    · simp only [h2, regionWrite, devWindowWrite]
      simp only [show (2 : BitVec 4) ≠ 0 by decide, show (2 : BitVec 4) ≠ 1 by decide, if_false, if_true]
      split <;> rfl
    · simp only [h0, h1, h2, he, if_false, regionWrite]

/-! ## What a composed write outside the window stores -/

/-- The bytes of a composed write are at distinct offsets (R70). -/
theorem offOf_add_inj {a : Addr} {i j : Nat} (hi : i < 2 ^ 24) (hj : j < 2 ^ 24)
    (h : offOf (a + BitVec.ofNat 32 i) = offOf (a + BitVec.ofNat 32 j)) : i = j := by
  simp only [offOf, BitVec.toNat_add, BitVec.toNat_ofNat] at h
  omega

theorem writeBytes_wf {a : Addr} {vs : List Byte} {s : State} (h : memOk s.cfg s.mem = true) :
    memOk (writeBytes a vs s).cfg (writeBytes a vs s).mem = true := (writeBytes_keeps a vs s).mem h

theorem writeBytes_wram {a : Addr} {vs : List Byte} {s : State} (h : outsideWindow s.cfg a vs.length)
    (ok : memOk s.cfg s.mem = true) (hn : vs.length ≤ 2 ^ 24) (j : Nat) :
    (∀ k (hk : k < vs.length), storesWram s.cfg (a + BitVec.ofNat 32 k) j →
      (writeBytes a vs s).mem.wram.read j = vs[k]) ∧
    ((∀ k, k < vs.length → ¬ storesWram s.cfg (a + BitVec.ofNat 32 k) j) →
      (writeBytes a vs s).mem.wram.read j = s.mem.wram.read j) := by
  induction vs generalizing a s with
  | nil => exact ⟨fun k hk => absurd hk (Nat.not_lt_zero k), fun _ => rfl⟩
  | cons v vs ih =>
    have hc := (byteWrite_storeFrame h.head v).cfg
    have hw := byteWrite_wram h.head (memOk.wram_wf ok) v j
    have hk := (byteWrite_keeps a v s).mem ok
    simp only [List.length_cons] at hn
    have ih := ih (a := a + 1) (s := byteWrite a v s) (by rw [hc]; exact h.tail) hk (by omega)
    rw [hc] at ih
    rw [writeBytes_cons h.head]
    refine ⟨fun k hkl hs => ?_, fun hs => ?_⟩
    · cases k with
      | zero =>
        rw [add_ofNat_zero] at hs
        rw [ih.2, hw.1 hs]
        · rfl
        · intro k hk' hs'
          rw [← add_ofNat_succ] at hs'
          rw [← add_ofNat_zero a] at hs
          have := offOf_add_inj (a := a) (i := 0) (j := k + 1) (by omega) (by omega) (hs.2.2.1.trans hs'.2.2.1.symm)
          omega
      | succ k =>
        rw [add_ofNat_succ] at hs
        exact ih.1 k (by simpa using hkl) hs
    · rw [ih.2 fun k hk' hs' => hs (k + 1) (by simpa using hk') (by rw [add_ofNat_succ]; exact hs')]
      exact hw.2 (by simpa using hs 0 (by simp))

theorem writeBytes_vram_frame {a : Addr} {vs : List Byte} {s : State} (h : outsideWindow s.cfg a vs.length)
    (ok : memOk s.cfg s.mem = true) {j : Nat}
    (hs : ∀ k, k < vs.length → ¬ storesVram s.cfg (a + BitVec.ofNat 32 k) j) :
    (writeBytes a vs s).mem.vram.read j = s.mem.vram.read j := by
  induction vs generalizing a s with
  | nil => rfl
  | cons v vs ih =>
    have hc := (byteWrite_storeFrame h.head v).cfg
    rw [writeBytes_cons h.head, ih (by rw [hc]; exact h.tail) ((byteWrite_keeps a v s).mem ok)]
    · exact (byteWrite_vram h.head (memOk.vram_wf ok) v j).2 (by simpa using hs 0 (by simp))
    · intro k hk
      rw [hc, ← add_ofNat_succ]
      exact hs (k + 1) (by simpa using hk)

/-- The last byte of a composed write that names a video-RAM index is the one stored there (offsets are masked). -/
theorem writeBytes_vram {a : Addr} {vs : List Byte} {s : State} (h : outsideWindow s.cfg a vs.length)
    (ok : memOk s.cfg s.mem = true) {j k : Nat} (hk : k < vs.length)
    (hs : storesVram s.cfg (a + BitVec.ofNat 32 k) j)
    (hl : ∀ i, k < i → i < vs.length → ¬ storesVram s.cfg (a + BitVec.ofNat 32 i) j) :
    (writeBytes a vs s).mem.vram.read j = vs[k] := by
  induction vs generalizing a s k with
  | nil => exact absurd hk (Nat.not_lt_zero k)
  | cons v vs ih =>
    have hc := (byteWrite_storeFrame h.head v).cfg
    have ok' := (byteWrite_keeps a v s).mem ok
    have ht : outsideWindow (byteWrite a v s).cfg (a + 1) vs.length := by rw [hc]; exact h.tail
    rw [writeBytes_cons h.head]
    cases k with
    | zero =>
      rw [add_ofNat_zero] at hs
      rw [writeBytes_vram_frame ht ok' fun i hi => by
        rw [hc, ← add_ofNat_succ]; exact hl (i + 1) (Nat.succ_pos i) (by simpa using hi)]
      exact (byteWrite_vram h.head (memOk.vram_wf ok) v j).1 hs
    | succ k =>
      rw [add_ofNat_succ] at hs
      exact ih ht ok' (by simpa using hk) (by rw [hc]; exact hs) fun i hi hi' => by
        rw [hc, ← add_ofNat_succ]; exact hl (i + 1) (by omega) (by simpa using hi')

/-! ## Ranges of working RAM (R75, R76) -/

theorem inWram.sub {c : Cfg} {a : Addr} {n i k : Nat} (h : inWram c a n) (hi : i + k ≤ n) :
    inWram c (a + BitVec.ofNat 32 i) k := by
  obtain ⟨h1, h2, h3⟩ := h
  have e (x : Nat) : a + BitVec.ofNat 32 i + BitVec.ofNat 32 x =
    a + BitVec.ofNat 32 (i + x) := (add_ofNat_add a i x).symm
  rcases Nat.eq_zero_or_pos k with rfl | hk
  · rcases Nat.lt_or_ge i n with hlt | hge
    · exact ⟨by rw [(h3 i hlt).2]; omega, fun _ h => absurd h (Nat.not_lt_zero _), fun _ h => absurd h
      (Nat.not_lt_zero _)⟩
    · refine ⟨?_, fun _ h => absurd h (Nat.not_lt_zero _), fun _ h => absurd h (Nat.not_lt_zero _)⟩
      have : i = n := by omega
      subst this
      have : offOf (a + BitVec.ofNat 32 i) ≤ offOf a + i := by
        simp only [offOf, BitVec.toNat_add, BitVec.toNat_ofNat]
        omega
      omega
  · have h0 := (h3 i (by omega)).2
    refine ⟨by rw [h0]; omega, fun x hx => ?_, fun x hx => ?_⟩
    · rw [e]; exact h2 _ (by omega)
    · rw [e, h0]
      exact ⟨(h3 _ (by omega)).1, by rw [(h3 _ (by omega)).2]; omega⟩

theorem inWram.head {c : Cfg} {a : Addr} {n : Nat} (h : inWram c a (n + 1)) : bankOf c a = 1 ∧
  offOf a < c.wramSize := by
  have := h.2.2 0 (Nat.succ_pos n)
  rw [add_ofNat_zero] at this
  exact ⟨this.1, by have := h.1; omega⟩

theorem byteWrite_inWram {a : Addr} {n : Nat} {s : State} (h : inWram s.cfg a (n + 1)) (v : Byte) :
    byteWrite a v s = s.withMem { s.mem with wram := s.mem.wram.write (offOf a) v } := by
  rw [byteWrite_outside h.2.1.head]
  simp [h.head.1, regionOf, regionWrite, wramWrite, h.head.2]

/-- A composed write into working RAM stores its bytes one after the other and changes nothing else. -/
theorem writeBytes_inWram {a : Addr} {vs : List Byte} {s : State} (h : inWram s.cfg a vs.length) :
    writeBytes a vs s = s.withMem { s.mem with wram := storeFrom s.mem.wram (offOf a) vs } := by
  induction vs generalizing a s with
  | nil => rfl
  | cons v vs ih =>
    have h' : inWram s.cfg (a + 1) vs.length := h.sub (i := 1) (k := vs.length) (by simp; omega)
    rw [writeBytes_cons h.2.1.head, byteWrite_inWram h, ih (by simpa using h')]
    simp only [State.withMem_mem, storeFrom, State.withMem_withMem]
    rcases Nat.eq_zero_or_pos vs.length with h0 | h0
    · rw [List.length_eq_zero_iff] at h0
      subst h0
      rfl
    · have := (h.2.2 1 (by simp; omega)).2
      rw [show offOf (a + 1) = offOf a + 1 from this]

theorem busWrite_inWram {w : Width} {a : Addr} {s : State} (h : inWram s.cfg a w.step) (v : Long) :
    busWrite w a v s = s.withMem { s.mem with wram := storeFrom s.mem.wram (offOf a) (bytesOf w v) } := by
  rw [busWrite_outside h.2.1.first]
  exact writeBytes_inWram (by rwa [bytesOf_length])

theorem storeFrom_wf {m : Memory} (h : m.wf = true) (i : Nat) (bs : List Byte) : (storeFrom m i bs).wf = true := by
  induction bs generalizing m i with
  | nil => exact h
  | cons b bs ih => exact ih (Memory.wf_write h i b) (i + 1)

/-- A read after a run of bytes is stored. -/
theorem storeFrom_read {m : Memory} (h : m.wf = true) (i : Nat) (bs : List Byte) (j : Nat) :
    (storeFrom m i bs).read j = if i ≤ j ∧ j < i + bs.length then bs.getD (j - i) 0 else m.read j := by
  induction bs generalizing m i with
  | nil => simp [storeFrom]
  | cons b bs ih =>
    rw [storeFrom, ih (Memory.wf_write h i b), Memory.read_write h]
    simp only [List.length_cons]
    rcases Nat.lt_trichotomy j i with hj | hj | hj
    · rw [if_neg (by omega), if_neg (by omega), if_neg (by omega)]
    · subst hj
      rw [if_neg (by omega), if_pos rfl, if_pos (by omega)]
      simp
    · by_cases hl : j < i + 1 + bs.length
      · rw [if_pos (by omega), if_pos (by omega), show j - i = j - (i + 1) + 1 by omega]
        simp
      · rw [if_neg (by omega), if_neg (by omega), if_neg (by omega)]

theorem inWram.plain {c : Cfg} {a : Addr} {n : Nat} (h : inWram c a n) {i : Nat} (hi : i < n) :
    plainAddr c (a + BitVec.ofNat 32 i) := by
  refine ⟨h.2.1 i hi, ?_⟩
  rw [(h.2.2 i hi).1]
  decide

theorem isPow2_pow {n : Nat} (h : isPow2 n = true) : ∃ k, n = 2 ^ k := ⟨_, beq_iff_eq.mp h⟩

theorem isPow2_two_pow (k : Nat) : isPow2 (2 ^ k) = true := by rw [isPow2, Nat.log2_two_pow, beq_self_eq_true]

theorem isPow2_and {n i : Nat} (h : isPow2 n = true) (hi : i < n) : i &&& (n - 1) = i := by
  obtain ⟨k, rfl⟩ := isPow2_pow h
  rw [Nat.and_two_pow_sub_one_eq_mod, Nat.mod_eq_of_lt hi]

theorem cfgWf_wramSize {c : Cfg} (h : cfgWf c = true) : isPow2 c.wramSize = true := by
  have := cfgWf_sizes h
  simp only [cfgSizesOk, Bool.and_eq_true] at this
  exact this.1.1.1.1.1.1.2

theorem cfgWf_vramWinMask {c : Cfg} (h : cfgWf c = true) :
    isPow2 (c.vramWinMask + 1) = true ∧ c.vramSize ≤ c.vramWinMask + 1 := by
  have := cfgWf_sizes h
  simp only [cfgSizesOk, Bool.and_eq_true, decide_eq_true_eq] at this
  exact ⟨this.1.1.1.1.2, this.1.1.1.2⟩

/-- Below `VRAM_SIZE` the window's mask changes nothing (R79). -/
theorem vramWinMask_and {c : Cfg} (h : cfgWf c = true) {i : Nat} (hi : i < c.vramSize) : i &&& c.vramWinMask = i := by
  have := cfgWf_vramWinMask h
  exact isPow2_and this.1 (by omega)

/-- A byte of working RAM reads as its index, not as a mirror (R75). -/
theorem plainByte_inWram {s : State} {a : Addr} {n : Nat} (hc : cfgWf s.cfg = true) (h : inWram s.cfg a n) {i : Nat}
    (hi : i < n) : plainByte s (a + BitVec.ofNat 32 i) = s.mem.wram.read (offOf a + i) := by
  have hb := h.2.2 i hi
  have hlt : offOf a + i < s.cfg.wramSize := by have := h.1; omega
  have hm := isPow2_and (cfgWf_wramSize hc) hlt
  simp only [plainByte, hb.1, hb.2, wramRead, hm]
  simp

theorem plainBytes_inWram {s : State} {a : Addr} {n : Nat} (hc : cfgWf s.cfg = true) (h : inWram s.cfg a n) :
    plainBytes s a n = (List.range n).map fun i => s.mem.wram.read (offOf a + i) :=
  List.map_congr_left fun _ hi => plainByte_inWram hc h (List.mem_range.mp hi)

/-- A read of working RAM answers its bytes, most significant first, and changes nothing. -/
theorem busRead_inWram {w : Width} {s : State} {a : Addr} (hc : cfgWf s.cfg = true) (h : inWram s.cfg a w.step) :
    busRead w a s = (longOfBytes ((List.range w.step).map fun i => s.mem.wram.read (offOf a + i)), s) := by
  rw [busRead_plain fun i hi => h.plain hi, plainBytes_inWram hc h]

/-- The bytes of a value composed from bytes are those bytes. -/
theorem bytesOf_longOfBytes (w : Width) (bs : List Byte) (h : bs.length = w.step) :
    bytesOf w (longOfBytes bs) = bs := by
  cases w
  · obtain ⟨a, rfl⟩ := List.length_eq_one_iff.mp h
    simp only [longOfBytes, List.foldl, appendByte_zero, bytesOf]
    congr 1
    apply BitVec.eq_of_getLsbD_eq
    intro i hi
    simp [hi]
    omega
  · obtain ⟨a, b, rfl⟩ := List.length_eq_two.mp h
    simp only [longOfBytes, List.foldl, appendByte_two, bytesOf]
    congr 1
    · apply BitVec.eq_of_getLsbD_eq
      intro i hi
      simp only [BitVec.getLsbD_extractLsb', BitVec.getLsbD_setWidth, BitVec.getLsbD_append]
      simp [hi, show 8 + i < 32 by omega, show 8 + i - 8 = i by omega]
    · congr 1
      apply BitVec.eq_of_getLsbD_eq
      intro i hi
      simp only [BitVec.getLsbD_extractLsb', BitVec.getLsbD_setWidth, BitVec.getLsbD_append, Nat.zero_add]
      simp [hi, show i < 32 by omega]
  · obtain ⟨a, b, c, d, rfl⟩ : ∃ a b c d, bs = [a, b, c, d] := by
      match bs, h with
      | [a, b, c, d], _ => exact ⟨a, b, c, d, rfl⟩
    simp only [longOfBytes, List.foldl, appendByte_four, bytesOf]
    rw [extract_above (a ++ b ++ c) d 24 8 (by decide), extract_above (a ++ b) c (24 - 8) 8 (by decide),
      extract_above a b (24 - 8 - 8) 8 (by decide), extract_above (a ++ b ++ c) d 16 8 (by decide),
      extract_above (a ++ b) c (16 - 8) 8 (by decide), extract_above (a ++ b ++ c) d 8 8 (by decide)]
    rw [show 24 - 8 - 8 - 8 = 0 from rfl, extract_all, extract_within, extract_within, extract_within]

end Sys2Proof.Machine
end

