-- ==== Sys2Proof/Laws/Loops.lean ====
section
/-! SUPPORT. Runs of micro-steps as facts that compose, what a write that reaches no engine register leaves alone, and one
unit of each engine as a run. -/

namespace Sys2Proof.Machine

/-! ## Runs -/

/-- `m` micro-steps lead from `s` to `t` without coming back to `depth` before the last of them. -/
def Runs (depth : Nat) : Nat → State → State → Prop
  | 0, s, t => s = t
  | m + 1, s, t => depth < s.stack.length ∧ Runs depth m (tick s) t

theorem Runs.refl (depth : Nat) (s : State) : Runs depth 0 s s := rfl

theorem Runs.trans {depth m n : Nat} {s t u : State} (h : Runs depth m s t) (g : Runs depth n t u) :
    Runs depth (m + n) s u := by
  induction m generalizing s with
  | zero => rw [Nat.zero_add]; exact h ▸ g
  | succ m ih => rw [Nat.succ_add]; exact ⟨h.1, ih h.2⟩

theorem Runs.tick {depth : Nat} {s t : State} (h : depth < s.stack.length) (e : Machine.tick s = t) :
    Runs depth 1 s t := ⟨h, e⟩

theorem Runs.cast {depth m : Nat} {s t u : State} (h : Runs depth m s t) (e : t = u) : Runs depth m s u := e ▸ h

/-- A run that stays above a depth stays above every smaller one. -/
theorem Runs.mono {depth depth' m : Nat} {s t : State} (h : Runs depth m s t) (hd : depth' ≤ depth) :
    Runs depth' m s t := by
  induction m generalizing s with
  | zero => exact h
  | succ m ih => exact ⟨Nat.lt_of_le_of_lt hd h.1, ih h.2⟩

theorem Runs.fuel {depth m : Nat} {s t : State} (h : Runs depth m s t) (fuel : Nat) :
    Machine.settle depth (m + fuel) s = Machine.settle depth fuel t := by
  induction m generalizing s with
  | zero => rw [Nat.zero_add, h]
  | succ m ih => rw [Nat.succ_add, settle_succ h.1, ih h.2]

/-- A loop whose `n` rounds take at most `c` micro-steps each. -/
theorem Runs.loop {depth c n : Nat} {P : Nat → State → Prop}
    (round : ∀ k s, k < n → P k s → ∃ m t, m ≤ c ∧ Runs depth m s t ∧ P (k + 1) t) {s : State} (h : P 0 s) :
    ∃ m t, m ≤ n * c ∧ Runs depth m s t ∧ P n t := by
  have go : ∀ k, k ≤ n → ∃ m t, m ≤ k * c ∧ Runs depth m s t ∧ P k t := by
    intro k
    induction k with
    | zero => exact fun _ => ⟨0, s, Nat.zero_le _, Runs.refl depth s, h⟩
    | succ k ih =>
      intro hk
      obtain ⟨m, t, hm, ht, hp⟩ := ih (by omega)
      obtain ⟨m', u, hm', hu, hq⟩ := round k t hk hp
      exact ⟨m + m', u, by rw [Nat.succ_mul]; omega, ht.trans hu, hq⟩
  exact go n (Nat.le_refl n)

/-- A run that comes back to `depth` within the fuel is the whole run. -/
theorem Runs.settle {depth m fuel : Nat} {s t : State} (h : Runs depth m s t) (ht : t.stack.length ≤ depth)
    (hm : m ≤ fuel) : Machine.settle depth fuel s = t := by
  obtain ⟨k, rfl⟩ := Nat.exists_eq_add_of_le hm
  rw [h.fuel, settle_done ht]

/-- A command whose run comes back within one burst answers the state it comes back in. -/
theorem command_runs {f : State → State} {s t : State} {m : Nat} (hp : s.provisioned = true)
    (h : Runs s.stack.length m (f s) t) (ht : t.stack = s.stack) (hm : m ≤ Config.burst) : command f s = .next t := by
  rw [command_provisioned hp, h.settle (by rw [ht]) hm]

/-! ## What a write that reaches no engine register leaves alone -/

theorem selectReg_inWindow {c : Cfg} {a : Addr} (h : inWindow c a = true) (w : Width) :
    selectReg c a w = regAt c (roffOf c a) w := by
  simp [selectReg, h]

theorem windowWrite_select {s : State} {a : Addr} (h : inWindow s.cfg a = true) (v : Byte) :
    windowWrite a v s = match selectReg s.cfg a .byte with
      | some r => regWrite r (v.setWidth 32) s
      | none => s := by
  rw [selectReg_inWindow h]; rfl

theorem byteWrite_preserves {α : Type} {f : State → α} {s : State} {a : Addr} {v : Byte}
    (store : ∀ s t, storeFrame s t → f t = f s)
    (reg : ∀ r, selectReg s.cfg a .byte = some r → f (regWrite r (v.setWidth 32) s) = f s) :
    f (byteWrite a v s) = f s := by
  unfold byteWrite
  split
  · rw [windowWrite_select ‹_›]
    split
    · exact reg _ ‹_›
    · rfl
  · exact store _ _ (regionWrite_storeFrame _ _ _ s)

theorem writeBytes_preserves {α : Type} {f : State → α} (store : ∀ s t, storeFrame s t → f t = f s) {a : Addr}
    {vs : List Byte} {s : State}
    (reg : ∀ i r, i < vs.length → selectReg s.cfg (a + BitVec.ofNat 32 i) .byte = some r →
      r ≠ .dmaCtrl ∧ ∀ v t, f (regWrite r v t) = f t) :
    f (writeBytes a vs s) = f s := by
  induction vs generalizing a s with
  | nil => rfl
  | cons v vs ih =>
    have h0 : ∀ r, selectReg s.cfg a .byte = some r → r ≠ .dmaCtrl ∧ ∀ v t, f (regWrite r v t) = f t := fun r hr =>
      reg 0 r (Nat.succ_pos _) (by rw [add_ofNat_zero]; exact hr)
    have hit : hitsDmaCtrl s.cfg a = false := by
      simp only [hitsDmaCtrl, decide_eq_false_iff_not]
      exact fun h => (h0 _ h).1 rfl
    simp only [writeBytes, hit, Bool.false_and, Bool.false_eq_true, if_false]
    rw [ih, byteWrite_preserves store fun r hr => (h0 r hr).2 _ s]
    intro i r hi hr
    rw [(byteWrite_keeps a v s).cfg] at hr
    exact reg (i + 1) r (by simp; omega) (by rwa [add_ofNat_succ])

/-- A bus write leaves alone whatever neither a store nor a register it reaches changes, when it does not reach
`DMA_CTRL`. -/
theorem busWrite_preserves {α : Type} {f : State → α} (store : ∀ s t, storeFrame s t → f t = f s) {w : Width} {a : Addr}
    {v : Long} {s : State} (reg : ∀ r, reaches s.cfg a w r → r ≠ .dmaCtrl ∧ ∀ v t, f (regWrite r v t) = f t) :
    f (busWrite w a v s) = f s := by
  unfold busWrite
  split
  next r hr => exact (reg r (.inl hr)).2 _ s
  next hn =>
    refine writeBytes_preserves store fun i r hi hr => reg r (.inr ⟨hn, i, ?_, hr⟩)
    rwa [bytesOf_length] at hi

theorem regWrite_stack_eq {r : Reg} (h1 : r ≠ .dmaCtrl) (h2 : r ≠ .blitFunc) (v : Long) (s : State) :
    (regWrite r v s).stack = s.stack := by
  cases r <;> first | rfl | exact absurd rfl h1 | exact absurd rfl h2

theorem regWrite_dma_eq {r : Reg} (h : r ∉ dmaDisturbers) (v : Long) (s : State) : (regWrite r v s).dma = s.dma := by
  cases r <;> first | rfl | exact absurd (by decide) h

theorem regWrite_blit_eq {r : Reg} (h : r ∉ blitDisturbers) (v : Long) (s : State) : (regWrite r v s).blit =
  s.blit := by
  cases r <;> first | rfl | exact absurd (by decide) h

theorem regWrite_hdma_eq {r : Reg} (h0 : r ≠ .dmaCtrl) (h1 : r ≠ .blitFunc)
    (h : ∀ c, r ≠ .hdmaCtrl c ∧ r ≠ .hdmaSrc c ∧ r ≠ .hdmaDst c) (v : Long)
    (s : State) : (regWrite r v s).hdma = s.hdma := by
  cases r
  case dmaCtrl => exact absurd rfl h0
  case blitFunc => exact absurd rfl h1
  case hdmaCtrl c => exact absurd rfl (h c).1
  case hdmaSrc c => exact absurd rfl (h c).2.1
  case hdmaDst c => exact absurd rfl (h c).2.2
  all_goals rfl

/-- A write that reaches neither arming register arms nothing. -/
theorem busWrite_stack_eq {w : Width} {a : Addr} {v : Long} {s : State}
    (h : ∀ r, reaches s.cfg a w r → r ≠ .dmaCtrl ∧ r ≠ .blitFunc) : (busWrite w a v s).stack = s.stack :=
  busWrite_preserves (f := State.stack) (fun _ _ h => h.stack)
    fun r hr => ⟨(h r hr).1, regWrite_stack_eq (h r hr).1 (h r hr).2⟩

theorem busWrite_dma_eq {w : Width} {a : Addr} {v : Long} {s : State} (h : ∀ r ∈ dmaDisturbers, ¬ reaches s.cfg a w r) :
    (busWrite w a v s).dma = s.dma :=
  busWrite_preserves (f := State.dma) (fun _ _ h => h.dma) fun r hr =>
    ⟨fun e => h .dmaCtrl (by decide) (e ▸ hr), regWrite_dma_eq fun e => h r e hr⟩

theorem busWrite_blit_eq {w : Width} {a : Addr} {v : Long} {s : State} (h : ∀ r ∈ blitDisturbers, ¬ reaches s.cfg a w
  r) :
    (busWrite w a v s).blit = s.blit :=
  busWrite_preserves (f := State.blit) (fun _ _ h => h.blit) fun r hr =>
    ⟨fun e => h .dmaCtrl (by decide) (e ▸ hr), regWrite_blit_eq fun e => h r e hr⟩

theorem busWrite_hdma_eq {w : Width} {a : Addr} {v : Long} {s : State}
    (h : ∀ r, reaches s.cfg a w r →
      r ≠ .dmaCtrl ∧ r ≠ .blitFunc ∧ ∀ c, r ≠ .hdmaCtrl c ∧ r ≠ .hdmaSrc c ∧ r ≠ .hdmaDst c) :
    (busWrite w a v s).hdma = s.hdma :=
  busWrite_preserves (f := State.hdma) (fun _ _ h => h.hdma) fun r hr =>
    ⟨(h r hr).1, regWrite_hdma_eq (h r hr).1 (h r hr).2.1 (h r hr).2.2⟩

/-- A write outside the window reaches no register. -/
theorem not_reaches_outside {c : Cfg} {a : Addr} {w : Width} (h : outsideWindow c a w.step) (r : Reg) :
    ¬ reaches c a w r := by
  rintro (h1 | ⟨-, i, hi, h1⟩)
  · rw [nativeReg_outside h.first] at h1; cases h1
  · rw [selectReg_outside (h i hi)] at h1; cases h1

theorem not_disturbed {c : Cfg} {a : Addr} {w : Width} {rs : List Reg} (h1 : .dmaCtrl ∈ rs) (h2 : .blitFunc ∈ rs)
    (h : ∀ r ∈ rs, ¬ reaches c a w r) (r : Reg) (hr : reaches c a w r) : r ≠ .dmaCtrl ∧ r ≠ .blitFunc :=
  ⟨fun e => h .dmaCtrl h1 (e ▸ hr), fun e => h .blitFunc h2 (e ▸ hr)⟩

/-! ## One unit of a DMA transfer -/

theorem dmaDatum_readFrame (l : DmaLatch) (s : State) : readFrame s (dmaDatum l s).2 := by
  unfold dmaDatum
  split
  · exact readFrame.rfl' s
  · exact busRead_readFrame _ _ s

/-- The state after the accesses of one unit, its registers not yet updated. -/
def dmaMoved (l : DmaLatch) (rest : List Activation) (s : State) : State :=
  busWrite l.width s.dma.dst (dmaDatum l s).1 ((dmaDatum l s).2.withStack (.dma l true :: rest))

/-- One unit of a transfer whose write arms nothing and leaves the DMA registers alone (R264). -/
theorem dma_unit {l : DmaLatch} {rest : List Activation} {s : State} (hs : s.stack = .dma l false :: rest)
    (hlen : s.dma.len ≠ 0) (hw : ∀ r ∈ dmaDisturbers, ¬ reaches s.cfg s.dma.dst l.width r) :
    (dmaMoved l rest s).dma = s.dma ∧
      Runs rest.length 2 s ((dmaUpdate l (dmaMoved l rest s)).withStack (.dma l false :: rest)) := by
  have hf := dmaDatum_readFrame l s
  rw [← hf.cfg, ← State.withStack_cfg (dmaDatum l s).2 (.dma l true :: rest)] at hw
  have hk : (dmaMoved l rest s).stack = .dma l true :: rest :=
    (busWrite_stack_eq (not_disturbed (by decide) (by decide) hw)).trans (State.withStack_stack _ _)
  refine ⟨(busWrite_dma_eq hw).trans hf.dma, Runs.trans (m := 1) (n := 1) (t := dmaMoved l rest s)
    (Runs.tick (by rw [hs]; simp) ?_) (Runs.tick (by rw [hk]; simp) (by simp [tick, hk, dmaTick]))⟩
  simp only [tick, hs, dmaTick, hlen, Bool.false_eq_true, if_false, hf.dma]
  rfl

/-- A transfer with nothing left leaves the stack. -/
theorem dma_done {l : DmaLatch} {rest : List Activation} {s : State} (hs : s.stack = .dma l false :: rest)
    (hlen : s.dma.len = 0) : Runs rest.length 1 s (s.withStack rest) :=
  Runs.tick (by rw [hs]; simp) (by simp [tick, hs, dmaTick, hlen])

/-! ## One unit of Blit, Set or Invert -/

/-- The accesses of a unit whose write reaches no register that disturbs the blitter leave its registers and the stack
alone. -/
theorem blitMove_eq {op : BlitOp} {l : BlitLatch} {s : State}
    (hw : ∀ r ∈ blitDisturbers, ¬ reaches s.cfg s.blit.b (unitWidth op l) r) :
    (blitMove op l s).blit = s.blit ∧ (blitMove op l s).stack = s.stack := by
  have rw1 (w : Width) (a : Addr) (d : Long) (hu : ∀ r ∈ blitDisturbers, ¬ reaches s.cfg s.blit.b w r) :
      (busWrite w (busRead w a s).2.blit.b d (busRead w a s).2).blit = s.blit ∧
      (busWrite w (busRead w a s).2.blit.b d (busRead w a s).2).stack = s.stack := by
    have hf := busRead_readFrame w a s
    rw [hf.blit]
    rw [← hf.cfg] at hu
    exact ⟨(busWrite_blit_eq hu).trans hf.blit,
      (busWrite_stack_eq (not_disturbed (by decide) (by decide) hu)).trans hf.stack⟩
  cases op
  case blit =>
    simp only [blitMove]
    split
    · exact ⟨(busRead_readFrame _ _ s).blit, (busRead_readFrame _ _ s).stack⟩
    · exact rw1 _ _ _ hw
  case set =>
    simp only [blitMove]
    split
    · exact ⟨busWrite_blit_eq hw, busWrite_stack_eq (not_disturbed (by decide) (by decide) hw)⟩
    · exact rw1 _ _ _ hw
  case invert => exact rw1 _ _ _ hw

/-- The accesses and the register updates of one unit, from the place where unit `i` starts. -/
theorem blit_moved {op : BlitOp} {l : BlitLatch} {i : Nat} {rest : List Activation} {s : State}
    (hd : rest.length < s.stack.length) (ht : tick s = blitMove op l (s.withStack (.blit op l (.moved i) :: rest)))
    (hw : ∀ r ∈ blitDisturbers, ¬ reaches s.cfg s.blit.b (unitWidth op l) r) :
    Runs rest.length 2 s ((blitUpdate op l (blitMove op l (s.withStack (.blit op l (.moved i) :: rest)))).withStack
      (.blit op l (if l.skip then .pass (i + 1) else .test) :: rest)) := by
  have hk := (blitMove_eq (s := s.withStack (.blit op l (.moved i) :: rest)) hw).2
  rw [State.withStack_stack] at hk
  exact Runs.trans (m := 1) (n := 1) (Runs.tick hd ht)
    (Runs.tick (by rw [hk]; simp) (by simp only [tick, hk, blitTick]))

/-- One unit without stride-skip (R320, R330, R335). -/
theorem blit_unit {op : BlitOp} {l : BlitLatch} {rest : List Activation} {s : State}
    (hs : s.stack = .blit op l .test :: rest) (hlen : s.blit.len ≠ 0) (hskip : l.skip = false)
    (hw : ∀ r ∈ blitDisturbers, ¬ reaches s.cfg s.blit.b (unitWidth op l) r) :
    Runs rest.length 2 s ((blitUpdate op l (blitMove op l (s.withStack (.blit op l (.moved 0) :: rest)))).withStack
      (.blit op l .test :: rest)) := by
  have := blit_moved (i := 0) (op := op) (l := l) (rest := rest) (s := s) (by rw [hs]; simp)
    (by simp only [tick, hs, blitTick, if_neg hlen, hskip, Bool.false_eq_true, if_false]) hw
  rwa [hskip] at this

/-- One unit of a pass (R321, R331, R336). -/
theorem blit_pass_unit {op : BlitOp} {l : BlitLatch} {i : Nat} {rest : List Activation} {s : State}
    (hs : s.stack = .blit op l (.pass i) :: rest) (hi : i < l.srcStride.toNat) (hlen : s.blit.len ≠ 0)
    (hskip : l.skip = true) (hw : ∀ r ∈ blitDisturbers, ¬ reaches s.cfg s.blit.b (unitWidth op l) r) :
    Runs rest.length 2 s ((blitUpdate op l (blitMove op l (s.withStack (.blit op l (.moved i) :: rest)))).withStack
      (.blit op l (.pass (i + 1)) :: rest)) := by
  have := blit_moved (i := i) (op := op) (l := l) (rest := rest) (s := s) (by rw [hs]; simp)
    (by simp only [tick, hs, blitTick, if_pos (And.intro hi hlen)]) hw
  rwa [hskip] at this

/-- A pass begins at the outer test while length remains (R321). -/
theorem blit_pass_start {op : BlitOp} {l : BlitLatch} {rest : List Activation} {s : State}
    (hs : s.stack = .blit op l .test :: rest) (hlen : s.blit.len ≠ 0) (hskip : l.skip = true) :
    Runs rest.length 1 s (s.withStack (.blit op l (.pass 0) :: rest)) :=
  Runs.tick (by rw [hs]; simp) (by simp only [tick, hs, blitTick, if_neg hlen, hskip, if_true])

/-- A pass ends, and the jump is made, when its units or the length are used up (R321). -/
theorem blit_pass_end {op : BlitOp} {l : BlitLatch} {i : Nat} {rest : List Activation} {s : State}
    (hs : s.stack = .blit op l (.pass i) :: rest) (h : ¬ (i < l.srcStride.toNat ∧ s.blit.len ≠ 0)) :
    Runs rest.length 1 s ((blitJump op l s).withStack (.blit op l .test :: rest)) :=
  Runs.tick (by rw [hs]; simp) (by simp only [tick, hs, blitTick, if_neg h])

/-- An operation with no length left leaves the stack. -/
theorem blit_done {op : BlitOp} {l : BlitLatch} {rest : List Activation} {s : State}
    (hs : s.stack = .blit op l .test :: rest) (hlen : s.blit.len = 0) : Runs rest.length 1 s (s.withStack rest) :=
  Runs.tick (by rw [hs]; simp) (by simp [tick, hs, blitTick, hlen])

/-! ## RLE -/

/-- One byte of a code's output, where the write arms nothing and leaves the blitter registers alone (R340). -/
theorem rleOut_unit {n : Nat} {v : Byte} {rest : List Activation} {s : State}
    (hs : s.stack = .rleOut (n + 1) v false :: rest)
    (hw : ∀ r ∈ blitDisturbers, ¬ reaches s.cfg s.blit.b .byte r) :
    ∃ u, u = busWrite .byte s.blit.b (v.setWidth 32) (s.withStack (.rleOut n v true :: rest)) ∧
      Runs rest.length 2 s ((u.withBlit { s.blit with b := s.blit.b + 1 }).withStack (.rleOut n v false :: rest)) := by
  refine ⟨_, rfl, ?_⟩
  rw [← State.withStack_cfg s (.rleOut n v true :: rest)] at hw
  have hk := busWrite_stack_eq (v := v.setWidth 32) (not_disturbed (by decide) (by decide) hw)
  have hb := busWrite_blit_eq (v := v.setWidth 32) hw
  rw [State.withStack_stack] at hk
  rw [State.withStack_blit] at hb
  exact Runs.trans (m := 1) (n := 1) (t := busWrite .byte s.blit.b (v.setWidth 32) (s.withStack (.rleOut n v true ::
    rest)))
    (Runs.tick (by rw [hs]; simp) (by simp [tick, hs, rleOutTick]))
    (Runs.tick (by rw [hk]; simp) (by simp [tick, hk, rleOutTick, hb]))

theorem rleOut_done {v : Byte} {rest : List Activation} {s : State} (hs : s.stack = .rleOut 0 v false :: rest) :
    Runs rest.length 1 s (s.withStack rest) :=
  Runs.tick (by rw [hs]; simp) (by simp [tick, hs, rleOutTick])

/-- A run with no budget left leaves the stack (R340). -/
theorem rle_done {l : BlitLatch} {rest : List Activation} {s : State} (hs : s.stack = .rle l :: rest)
    (hlen : s.blit.len = 0) : Runs rest.length 1 s (s.withStack rest) :=
  Runs.tick (by rw [hs]; simp) (by simp [tick, hs, rleTick, hlen])

/-- A run with budget left fetches a code and does what it does (R340). -/
theorem rle_code {l : BlitLatch} {rest : List Activation} {s : State} (hs : s.stack = .rle l :: rest)
    (hlen : s.blit.len ≠ 0) : Runs rest.length 1 s (rleEffect (rleFetch s).1 (rleFetch s).2) :=
  Runs.tick (by rw [hs]; simp) (by simp only [tick, hs, rleTick, if_neg hlen])

end Sys2Proof.Machine
end

