-- ==== Sys2Proof/Laws/PerInstr.lean ====
section
/-! SUPPORT. A law of every command as syntax: its encoding is as long as its format says (30_encoding.md R120, R155). -/

namespace Sys2Proof.Laws

/-- The length in bytes of a format; a stream code's own first byte tells its length (R120, R155). -/
def EncodedLength.formatLength : Context → List Byte → Nat
  | .bus, _ => 9
  | .addr _, _ => 4
  | .reg _, _ => 4
  | .dmac, _ => 1
  | .hdmac _, _ => 4
  | .blitf, _ => 4
  | .rle, [] => 0
  | .rle, b :: _ => if rleTwoBytes b then 2 else 1

/-- A command's encoding has the length of its format. -/
def EncodedLength.Statement (i : Instr) : Prop :=
  ∀ c, (encode c i).length = EncodedLength.formatLength (contextOf c i) (encode c i)

theorem EncodedLength.rd8 (a : Addr) : EncodedLength.Statement (.rd8 a) := fun _ => rfl
theorem EncodedLength.rd16 (a : Addr) : EncodedLength.Statement (.rd16 a) := fun _ => rfl
theorem EncodedLength.rd32 (a : Addr) : EncodedLength.Statement (.rd32 a) := fun _ => rfl
theorem EncodedLength.wr8 (a : Addr) (d : Long) : EncodedLength.Statement (.wr8 a d) := fun _ => rfl
theorem EncodedLength.wr16 (a : Addr) (d : Long) : EncodedLength.Statement (.wr16 a d) := fun _ => rfl
theorem EncodedLength.wr32 (a : Addr) (d : Long) : EncodedLength.Statement (.wr32 a d) := fun _ => rfl
theorem EncodedLength.line (n : BitVec 32) : EncodedLength.Statement (.line n) := fun _ => rfl
theorem EncodedLength.hdmaLine (n : BitVec 32) : EncodedLength.Statement (.hdmaLine n) := fun _ => rfl
theorem EncodedLength.windowReg (acc : ByteAccess) (a : Addr) : EncodedLength.Statement (.windowReg acc a) :=
  fun _ => rfl
theorem EncodedLength.bankRom (acc : ByteAccess) (a : Addr) : EncodedLength.Statement (.bankRom acc a) := fun _ => rfl
theorem EncodedLength.bankWram (acc : ByteAccess) (a : Addr) : EncodedLength.Statement (.bankWram acc a) := fun _ => rfl
theorem EncodedLength.bankDev (acc : ByteAccess) (a : Addr) : EncodedLength.Statement (.bankDev acc a) := fun _ => rfl
theorem EncodedLength.bankNone3 (acc : ByteAccess) (a : Addr) : EncodedLength.Statement (.bankNone3 acc a) :=
  fun _ => rfl
theorem EncodedLength.bankNone4 (acc : ByteAccess) (a : Addr) : EncodedLength.Statement (.bankNone4 acc a) :=
  fun _ => rfl
theorem EncodedLength.bankNone5 (acc : ByteAccess) (a : Addr) : EncodedLength.Statement (.bankNone5 acc a) :=
  fun _ => rfl
theorem EncodedLength.bankNone6 (acc : ByteAccess) (a : Addr) : EncodedLength.Statement (.bankNone6 acc a) :=
  fun _ => rfl
theorem EncodedLength.bankNone7 (acc : ByteAccess) (a : Addr) : EncodedLength.Statement (.bankNone7 acc a) :=
  fun _ => rfl
theorem EncodedLength.bankNone8 (acc : ByteAccess) (a : Addr) : EncodedLength.Statement (.bankNone8 acc a) :=
  fun _ => rfl
theorem EncodedLength.bankNone9 (acc : ByteAccess) (a : Addr) : EncodedLength.Statement (.bankNone9 acc a) :=
  fun _ => rfl
theorem EncodedLength.bankNoneA (acc : ByteAccess) (a : Addr) : EncodedLength.Statement (.bankNoneA acc a) :=
  fun _ => rfl
theorem EncodedLength.bankNoneB (acc : ByteAccess) (a : Addr) : EncodedLength.Statement (.bankNoneB acc a) :=
  fun _ => rfl
theorem EncodedLength.bankNoneC (acc : ByteAccess) (a : Addr) : EncodedLength.Statement (.bankNoneC acc a) :=
  fun _ => rfl
theorem EncodedLength.bankNoneD (acc : ByteAccess) (a : Addr) : EncodedLength.Statement (.bankNoneD acc a) :=
  fun _ => rfl
theorem EncodedLength.bankVram (acc : ByteAccess) (a : Addr) : EncodedLength.Statement (.bankVram acc a) := fun _ => rfl
theorem EncodedLength.bankNoneF (acc : ByteAccess) (a : Addr) : EncodedLength.Statement (.bankNoneF acc a) :=
  fun _ => rfl
theorem EncodedLength.screenModeR : EncodedLength.Statement .screenModeR := fun _ => rfl
theorem EncodedLength.screenModeW (v : Byte) : EncodedLength.Statement (.screenModeW v) := fun _ => rfl
theorem EncodedLength.tilemapSetR : EncodedLength.Statement .tilemapSetR := fun _ => rfl
theorem EncodedLength.tilemapSetW (v : Byte) : EncodedLength.Statement (.tilemapSetW v) := fun _ => rfl
theorem EncodedLength.tilemapBlendR : EncodedLength.Statement .tilemapBlendR := fun _ => rfl
theorem EncodedLength.tilemapBlendW (v : Byte) : EncodedLength.Statement (.tilemapBlendW v) := fun _ => rfl
theorem EncodedLength.scrollX0R : EncodedLength.Statement .scrollX0R := fun _ => rfl
theorem EncodedLength.scrollX0W (v : Half) : EncodedLength.Statement (.scrollX0W v) := fun _ => rfl
theorem EncodedLength.scrollY0R : EncodedLength.Statement .scrollY0R := fun _ => rfl
theorem EncodedLength.scrollY0W (v : Half) : EncodedLength.Statement (.scrollY0W v) := fun _ => rfl
theorem EncodedLength.scrollX1R : EncodedLength.Statement .scrollX1R := fun _ => rfl
theorem EncodedLength.scrollX1W (v : Half) : EncodedLength.Statement (.scrollX1W v) := fun _ => rfl
theorem EncodedLength.scrollY1R : EncodedLength.Statement .scrollY1R := fun _ => rfl
theorem EncodedLength.scrollY1W (v : Half) : EncodedLength.Statement (.scrollY1W v) := fun _ => rfl
theorem EncodedLength.scrollX2R : EncodedLength.Statement .scrollX2R := fun _ => rfl
theorem EncodedLength.scrollX2W (v : Half) : EncodedLength.Statement (.scrollX2W v) := fun _ => rfl
theorem EncodedLength.scrollY2R : EncodedLength.Statement .scrollY2R := fun _ => rfl
theorem EncodedLength.scrollY2W (v : Half) : EncodedLength.Statement (.scrollY2W v) := fun _ => rfl
theorem EncodedLength.scrollX3R : EncodedLength.Statement .scrollX3R := fun _ => rfl
theorem EncodedLength.scrollX3W (v : Half) : EncodedLength.Statement (.scrollX3W v) := fun _ => rfl
theorem EncodedLength.scrollY3R : EncodedLength.Statement .scrollY3R := fun _ => rfl
theorem EncodedLength.scrollY3W (v : Half) : EncodedLength.Statement (.scrollY3W v) := fun _ => rfl
theorem EncodedLength.keyscanR : EncodedLength.Statement .keyscanR := fun _ => rfl
theorem EncodedLength.keyscanW (v : Byte) : EncodedLength.Statement (.keyscanW v) := fun _ => rfl
theorem EncodedLength.joypad0R : EncodedLength.Statement .joypad0R := fun _ => rfl
theorem EncodedLength.joypad0W (v : Byte) : EncodedLength.Statement (.joypad0W v) := fun _ => rfl
theorem EncodedLength.joypad1R : EncodedLength.Statement .joypad1R := fun _ => rfl
theorem EncodedLength.joypad1W (v : Byte) : EncodedLength.Statement (.joypad1W v) := fun _ => rfl
theorem EncodedLength.msgOutR : EncodedLength.Statement .msgOutR := fun _ => rfl
theorem EncodedLength.msgOutW (v : Long) : EncodedLength.Statement (.msgOutW v) := fun _ => rfl
theorem EncodedLength.ticksR : EncodedLength.Statement .ticksR := fun _ => rfl
theorem EncodedLength.ticksW (v : Long) : EncodedLength.Statement (.ticksW v) := fun _ => rfl
theorem EncodedLength.intFlagsR : EncodedLength.Statement .intFlagsR := fun _ => rfl
theorem EncodedLength.intFlagsW (v : Byte) : EncodedLength.Statement (.intFlagsW v) := fun _ => rfl
theorem EncodedLength.dmaSrcR : EncodedLength.Statement .dmaSrcR := fun _ => rfl
theorem EncodedLength.dmaSrcW (v : Long) : EncodedLength.Statement (.dmaSrcW v) := fun _ => rfl
theorem EncodedLength.dmaDstR : EncodedLength.Statement .dmaDstR := fun _ => rfl
theorem EncodedLength.dmaDstW (v : Long) : EncodedLength.Statement (.dmaDstW v) := fun _ => rfl
theorem EncodedLength.dmaLenR : EncodedLength.Statement .dmaLenR := fun _ => rfl
theorem EncodedLength.dmaLenW (v : Long) : EncodedLength.Statement (.dmaLenW v) := fun _ => rfl
theorem EncodedLength.dmaCtrlR : EncodedLength.Statement .dmaCtrlR := fun _ => rfl
theorem EncodedLength.dmaCtrlW (v : Byte) : EncodedLength.Statement (.dmaCtrlW v) := fun _ => rfl
theorem EncodedLength.hdmaCtrl0R : EncodedLength.Statement .hdmaCtrl0R := fun _ => rfl
theorem EncodedLength.hdmaCtrl0W (v : Long) : EncodedLength.Statement (.hdmaCtrl0W v) := fun _ => rfl
theorem EncodedLength.hdmaCtrl1R : EncodedLength.Statement .hdmaCtrl1R := fun _ => rfl
theorem EncodedLength.hdmaCtrl1W (v : Long) : EncodedLength.Statement (.hdmaCtrl1W v) := fun _ => rfl
theorem EncodedLength.hdmaCtrl2R : EncodedLength.Statement .hdmaCtrl2R := fun _ => rfl
theorem EncodedLength.hdmaCtrl2W (v : Long) : EncodedLength.Statement (.hdmaCtrl2W v) := fun _ => rfl
theorem EncodedLength.hdmaCtrl3R : EncodedLength.Statement .hdmaCtrl3R := fun _ => rfl
theorem EncodedLength.hdmaCtrl3W (v : Long) : EncodedLength.Statement (.hdmaCtrl3W v) := fun _ => rfl
theorem EncodedLength.hdmaCtrl4R : EncodedLength.Statement .hdmaCtrl4R := fun _ => rfl
theorem EncodedLength.hdmaCtrl4W (v : Long) : EncodedLength.Statement (.hdmaCtrl4W v) := fun _ => rfl
theorem EncodedLength.hdmaCtrl5R : EncodedLength.Statement .hdmaCtrl5R := fun _ => rfl
theorem EncodedLength.hdmaCtrl5W (v : Long) : EncodedLength.Statement (.hdmaCtrl5W v) := fun _ => rfl
theorem EncodedLength.hdmaCtrl6R : EncodedLength.Statement .hdmaCtrl6R := fun _ => rfl
theorem EncodedLength.hdmaCtrl6W (v : Long) : EncodedLength.Statement (.hdmaCtrl6W v) := fun _ => rfl
theorem EncodedLength.hdmaCtrl7R : EncodedLength.Statement .hdmaCtrl7R := fun _ => rfl
theorem EncodedLength.hdmaCtrl7W (v : Long) : EncodedLength.Statement (.hdmaCtrl7W v) := fun _ => rfl
theorem EncodedLength.hdmaSrc0R : EncodedLength.Statement .hdmaSrc0R := fun _ => rfl
theorem EncodedLength.hdmaSrc0W (v : Long) : EncodedLength.Statement (.hdmaSrc0W v) := fun _ => rfl
theorem EncodedLength.hdmaSrc1R : EncodedLength.Statement .hdmaSrc1R := fun _ => rfl
theorem EncodedLength.hdmaSrc1W (v : Long) : EncodedLength.Statement (.hdmaSrc1W v) := fun _ => rfl
theorem EncodedLength.hdmaSrc2R : EncodedLength.Statement .hdmaSrc2R := fun _ => rfl
theorem EncodedLength.hdmaSrc2W (v : Long) : EncodedLength.Statement (.hdmaSrc2W v) := fun _ => rfl
theorem EncodedLength.hdmaSrc3R : EncodedLength.Statement .hdmaSrc3R := fun _ => rfl
theorem EncodedLength.hdmaSrc3W (v : Long) : EncodedLength.Statement (.hdmaSrc3W v) := fun _ => rfl
theorem EncodedLength.hdmaSrc4R : EncodedLength.Statement .hdmaSrc4R := fun _ => rfl
theorem EncodedLength.hdmaSrc4W (v : Long) : EncodedLength.Statement (.hdmaSrc4W v) := fun _ => rfl
theorem EncodedLength.hdmaSrc5R : EncodedLength.Statement .hdmaSrc5R := fun _ => rfl
theorem EncodedLength.hdmaSrc5W (v : Long) : EncodedLength.Statement (.hdmaSrc5W v) := fun _ => rfl
theorem EncodedLength.hdmaSrc6R : EncodedLength.Statement .hdmaSrc6R := fun _ => rfl
theorem EncodedLength.hdmaSrc6W (v : Long) : EncodedLength.Statement (.hdmaSrc6W v) := fun _ => rfl
theorem EncodedLength.hdmaSrc7R : EncodedLength.Statement .hdmaSrc7R := fun _ => rfl
theorem EncodedLength.hdmaSrc7W (v : Long) : EncodedLength.Statement (.hdmaSrc7W v) := fun _ => rfl
theorem EncodedLength.hdmaDst0R : EncodedLength.Statement .hdmaDst0R := fun _ => rfl
theorem EncodedLength.hdmaDst0W (v : Long) : EncodedLength.Statement (.hdmaDst0W v) := fun _ => rfl
theorem EncodedLength.hdmaDst1R : EncodedLength.Statement .hdmaDst1R := fun _ => rfl
theorem EncodedLength.hdmaDst1W (v : Long) : EncodedLength.Statement (.hdmaDst1W v) := fun _ => rfl
theorem EncodedLength.hdmaDst2R : EncodedLength.Statement .hdmaDst2R := fun _ => rfl
theorem EncodedLength.hdmaDst2W (v : Long) : EncodedLength.Statement (.hdmaDst2W v) := fun _ => rfl
theorem EncodedLength.hdmaDst3R : EncodedLength.Statement .hdmaDst3R := fun _ => rfl
theorem EncodedLength.hdmaDst3W (v : Long) : EncodedLength.Statement (.hdmaDst3W v) := fun _ => rfl
theorem EncodedLength.hdmaDst4R : EncodedLength.Statement .hdmaDst4R := fun _ => rfl
theorem EncodedLength.hdmaDst4W (v : Long) : EncodedLength.Statement (.hdmaDst4W v) := fun _ => rfl
theorem EncodedLength.hdmaDst5R : EncodedLength.Statement .hdmaDst5R := fun _ => rfl
theorem EncodedLength.hdmaDst5W (v : Long) : EncodedLength.Statement (.hdmaDst5W v) := fun _ => rfl
theorem EncodedLength.hdmaDst6R : EncodedLength.Statement .hdmaDst6R := fun _ => rfl
theorem EncodedLength.hdmaDst6W (v : Long) : EncodedLength.Statement (.hdmaDst6W v) := fun _ => rfl
theorem EncodedLength.hdmaDst7R : EncodedLength.Statement .hdmaDst7R := fun _ => rfl
theorem EncodedLength.hdmaDst7W (v : Long) : EncodedLength.Statement (.hdmaDst7W v) := fun _ => rfl
theorem EncodedLength.blitFuncR : EncodedLength.Statement .blitFuncR := fun _ => rfl
theorem EncodedLength.blitFuncW (v : Long) : EncodedLength.Statement (.blitFuncW v) := fun _ => rfl
theorem EncodedLength.blitAR : EncodedLength.Statement .blitAR := fun _ => rfl
theorem EncodedLength.blitAW (v : Long) : EncodedLength.Statement (.blitAW v) := fun _ => rfl
theorem EncodedLength.blitBR : EncodedLength.Statement .blitBR := fun _ => rfl
theorem EncodedLength.blitBW (v : Long) : EncodedLength.Statement (.blitBW v) := fun _ => rfl
theorem EncodedLength.blitLenR : EncodedLength.Statement .blitLenR := fun _ => rfl
theorem EncodedLength.blitLenW (v : Long) : EncodedLength.Statement (.blitLenW v) := fun _ => rfl
theorem EncodedLength.blitKeyR : EncodedLength.Statement .blitKeyR := fun _ => rfl
theorem EncodedLength.blitKeyW (v : Long) : EncodedLength.Statement (.blitKeyW v) := fun _ => rfl
theorem EncodedLength.regUnknown (acc : Access) (a : Addr) : EncodedLength.Statement (.regUnknown acc a) := fun _ => rfl
theorem EncodedLength.dmaNop : EncodedLength.Statement .dmaNop := fun _ => rfl
theorem EncodedLength.dmaCopyB (srcInc dstInc : Bool) : EncodedLength.Statement (.dmaCopyB srcInc dstInc) :=
  fun _ => rfl
theorem EncodedLength.dmaCopyW (srcInc dstInc : Bool) : EncodedLength.Statement (.dmaCopyW srcInc dstInc) :=
  fun _ => rfl
theorem EncodedLength.dmaCopyL (srcInc dstInc : Bool) : EncodedLength.Statement (.dmaCopyL srcInc dstInc) :=
  fun _ => rfl
theorem EncodedLength.dmaFillB (srcInc dstInc : Bool) : EncodedLength.Statement (.dmaFillB srcInc dstInc) :=
  fun _ => rfl
theorem EncodedLength.dmaFillW (srcInc dstInc : Bool) : EncodedLength.Statement (.dmaFillW srcInc dstInc) :=
  fun _ => rfl
theorem EncodedLength.dmaFillL (srcInc dstInc : Bool) : EncodedLength.Statement (.dmaFillL srcInc dstInc) :=
  fun _ => rfl
theorem EncodedLength.dmaW3 (const srcInc dstInc : Bool) : EncodedLength.Statement (.dmaW3 const srcInc dstInc) :=
  fun _ => rfl
theorem EncodedLength.hdmaSet (ch : Fin 8) (en : Bool) (width : BitVec 2) (dbl : Bool) (start count : BitVec 10) :
    EncodedLength.Statement (.hdmaSet ch en width dbl start count) := fun _ => rfl
theorem EncodedLength.bltNop (f : BlitFields) (skip : Bool) : EncodedLength.Statement (.bltNop f skip) := fun _ => rfl
theorem EncodedLength.bltBlit (f : BlitFields) : EncodedLength.Statement (.bltBlit f) := fun _ => rfl
theorem EncodedLength.bltBlitS (f : BlitFields) : EncodedLength.Statement (.bltBlitS f) := fun _ => rfl
theorem EncodedLength.bltSet (f : BlitFields) : EncodedLength.Statement (.bltSet f) := fun _ => rfl
theorem EncodedLength.bltSetS (f : BlitFields) : EncodedLength.Statement (.bltSetS f) := fun _ => rfl
theorem EncodedLength.bltInv (f : BlitFields) : EncodedLength.Statement (.bltInv f) := fun _ => rfl
theorem EncodedLength.bltInvS (f : BlitFields) : EncodedLength.Statement (.bltInvS f) := fun _ => rfl
theorem EncodedLength.bltRle (f : BlitFields) (skip : Bool) : EncodedLength.Statement (.bltRle f skip) := fun _ => rfl
theorem EncodedLength.bltRsvd5 (f : BlitFields) (skip : Bool) : EncodedLength.Statement (.bltRsvd5 f skip) :=
  fun _ => rfl
theorem EncodedLength.bltRsvd6to7 (f : BlitFields) (skip : Bool) (low : BitVec 1) :
    EncodedLength.Statement (.bltRsvd6to7 f skip low) := fun _ => rfl
theorem EncodedLength.bltRsvd8to15 (f : BlitFields) (skip : Bool) (low : BitVec 3) :
    EncodedLength.Statement (.bltRsvd8to15 f skip low) := fun _ => rfl
theorem EncodedLength.rleEnd : EncodedLength.Statement .rleEnd := fun _ => rfl
theorem EncodedLength.rleRun (n : BitVec 6) (v : Byte) : EncodedLength.Statement (.rleRun n v) :=
  fun _ => (if_pos (rleTwoBytes_run n)).symm
theorem EncodedLength.rleLit0 (v : BitVec 7) : EncodedLength.Statement (.rleLit0 v) :=
  fun _ => (if_neg (by rw [rleTwoBytes_lit0 v]; decide)).symm
theorem EncodedLength.rleLit1 (v : BitVec 6) : EncodedLength.Statement (.rleLit1 v) :=
  fun _ => (if_neg (by rw [rleTwoBytes_lit1 v]; decide)).symm

end Sys2Proof.Laws
end

