-- ==== Sys2Proof/Laws/Rows.lean ====
section
/-! SUPPORT. Which shared operation each row of the register map and of the control words is a command over. -/

namespace Sys2Proof.Machine

theorem regAt_width {c : Cfg} {o : Nat} {w : Width} {r : Reg} (h : regAt c o w = some r) : regWidth r = w := by
  have := List.find?_some h
  simp only [Bool.and_eq_true, decide_eq_true_eq] at this
  exact this.2

theorem selectReg_width {c : Cfg} {a : Addr} {w : Width} {r : Reg} (h : selectReg c a w = some r) : regWidth r = w := by
  unfold selectReg at h
  split at h
  · exact regAt_width h
  · cases h

/-- The read of a register row is a read of its register. -/
theorem exec_regReadRow (r : Reg) (s : State) : exec (regReadRow r) s = command (readCommand (regRead r)) s := by
  cases r
  case scrollX i => fin_cases i <;> rfl
  case scrollY i => fin_cases i <;> rfl
  case hdmaCtrl i => fin_cases i <;> rfl
  case hdmaSrc i => fin_cases i <;> rfl
  case hdmaDst i => fin_cases i <;> rfl
  all_goals rfl

/-- The write of a register row is a write of its register, cut to the register's width. -/
theorem exec_regWriteRow (r : Reg) (v : Long) (s : State) :
    exec (regWriteRow r v) s = command (regWrite r (truncTo (regWidth r) v)) s := by
  cases r
  case scrollX i => fin_cases i <;> rfl
  case scrollY i => fin_cases i <;> rfl
  case hdmaCtrl i => fin_cases i <;> rfl
  case hdmaSrc i => fin_cases i <;> rfl
  case hdmaDst i => fin_cases i <;> rfl
  all_goals rfl

/-- A read of any register but `KEYSCAN` answers and changes nothing else (R96). -/
theorem command_regRead (r : Reg) (h : r ≠ .keyscan) {s : State} (hp : s.provisioned = true) :
    command (readCommand (regRead r)) s = .next (answer (regRead r s).1 s) := by
  rw [command_read hp (regRead_readFrame r s), regRead_pure h]

/-- A write of a register that arms no engine is its own effect. -/
theorem command_regWrite (r : Reg) (v : Long) (h : r ≠ .dmaCtrl) (h' : r ≠ .blitFunc) {s : State}
    (hp : s.provisioned = true) : command (regWrite r v) s = .next (regWrite r v s) := by
  refine command_quiet hp ?_
  cases r <;> first | exact Nat.le_refl _ | exact absurd rfl h | exact absurd rfl h'

theorem exec_dmaCommand (const : Bool) (code : BitVec 2) (si di : Bool) (s : State) :
    exec (dmaCommand const code si di) s = command (dmaStart const code si di) s := by
  have h : ∀ code : BitVec 2, code = 0 ∨ code = 1 ∨ code = 2 ∨ code = 3 := by decide
  rcases h code with rfl | rfl | rfl | rfl <;> cases const <;> rfl

theorem exec_blitCommand (op : BlitOp) (skip : Bool) (f : BlitFields) (s : State) :
    exec (blitCommand op skip f) s = command (blitStart op f skip) s := by
  cases op <;> cases skip <;> rfl

/-- One step of a run (Host.Core.run). -/
theorem run_succ (M : Host.Core) (k : Nat) (t : M.State) : Host.Core.run M (k + 1) t =
    match M.step t with
    | .next s' => M.run k s'
    | .fault r => .fault r
    | .refused r => .refused r := rfl

end Sys2Proof.Machine
end

