-- ==== Sys2Proof/Laws/Stack.lean ====
section
/-! SUPPORT. Nothing looks at the activation stack but the micro-step at its top: bus accesses commute with replacing it,
unless they arm an engine, and an operation, a micro-step or a run does the same whatever lies below (R52). -/

namespace Sys2Proof.Machine

theorem regWrite_withStack {r : Reg} (h1 : r ≠ .dmaCtrl) (h2 : r ≠ .blitFunc) (v : Long) (s : State)
    (k : List Activation) : regWrite r v (s.withStack k) = (regWrite r v s).withStack k := by
  cases r <;> first | rfl | exact absurd rfl h1 | exact absurd rfl h2

theorem regionWrite_withStack (g : Region) (o : Nat) (v : Byte) (s : State) (k : List Activation) :
    regionWrite g o v (s.withStack k) = (regionWrite g o v s).withStack k := by
  cases g
  case dev => simp only [regionWrite, devWindowWrite, State.withStack_cfg]; split <;> rfl
  case wram =>
    by_cases h : o < s.cfg.wramSize
    · simp [regionWrite, wramWrite, h]; rfl
    · simp [regionWrite, wramWrite, h]
  case vram =>
    by_cases h : o &&& s.cfg.vramWinMask < s.cfg.vramSize
    · simp [regionWrite, vramWrite, vramIndex, h]; rfl
    · simp [regionWrite, vramWrite, vramIndex, h]
  all_goals rfl

theorem regRead_withStack (r : Reg) (s : State) (k : List Activation) :
    regRead r (s.withStack k) = ((regRead r s).1, (regRead r s).2.withStack k) := by
  cases r
  case keyscan =>
    simp only [regRead, keyscanRead, poll, State.withStack_port]
    split <;> rfl
  all_goals rfl

theorem byteRead_withStack (a : Addr) (s : State) (k : List Activation) :
    byteRead a (s.withStack k) = ((byteRead a s).1, (byteRead a s).2.withStack k) := by
  by_cases hw : inWindow s.cfg a = true
  · simp only [byteRead, State.withStack_cfg, hw, if_true]
    unfold windowRead
    simp only [State.withStack_cfg]
    cases regAt s.cfg (roffOf s.cfg a) .byte with
    | some r => simp only [regRead_withStack]
    | none => rfl
  · simp only [byteRead, State.withStack_cfg, Bool.eq_false_of_not_eq_true hw, Bool.false_eq_true, if_false]
    generalize regionOf (bankOf s.cfg a) = g
    cases g
    case dev =>
      simp only [regionRead, devWindowRead, State.withStack_cfg]
      cases devHit s.cfg (offOf a) with
      | some x => simp only [devRead, State.withStack_port]; split <;> rfl
      | none => rfl
    all_goals rfl

theorem readBytes_withStack (n : Nat) (a : Addr) (acc : Long) (s : State) (k : List Activation) :
    readBytes n a acc (s.withStack k) = ((readBytes n a acc s).1, (readBytes n a acc s).2.withStack k) := by
  induction n generalizing a acc s with
  | zero => rfl
  | succ n ih => simp only [readBytes, byteRead_withStack, ih]

theorem busRead_withStack (w : Width) (a : Addr) (s : State) (k : List Activation) :
    busRead w a (s.withStack k) = ((busRead w a s).1, (busRead w a s).2.withStack k) := by
  unfold busRead
  simp only [State.withStack_cfg]
  split
  · rw [regRead_withStack]
  · rw [readBytes_withStack]

theorem writeBytes_withStack {a : Addr} {vs : List Byte} {s : State} (k : List Activation)
    (h : ∀ i r, i < vs.length → selectReg s.cfg (a + BitVec.ofNat 32 i) .byte = some r →
      r ≠ .dmaCtrl ∧ r ≠ .blitFunc) :
    writeBytes a vs (s.withStack k) = (writeBytes a vs s).withStack k := by
  induction vs generalizing a s with
  | nil => rfl
  | cons v vs ih =>
    have h0 : ∀ r, selectReg s.cfg a .byte = some r → r ≠ .dmaCtrl ∧ r ≠ .blitFunc := fun r hr =>
      h 0 r (Nat.succ_pos _) (by rw [add_ofNat_zero]; exact hr)
    have hit : hitsDmaCtrl s.cfg a = false := by
      simp only [hitsDmaCtrl, decide_eq_false_iff_not]
      exact fun e => (h0 _ e).1 rfl
    simp only [writeBytes, State.withStack_cfg, hit, Bool.false_and, Bool.false_eq_true, if_false]
    have : byteWrite a v (s.withStack k) = (byteWrite a v s).withStack k := by
      by_cases hw : inWindow s.cfg a = true
      · simp only [byteWrite, State.withStack_cfg, hw, if_true]
        rw [windowWrite_select (s := s.withStack k) hw, windowWrite_select hw]
        simp only [State.withStack_cfg]
        cases hr : selectReg s.cfg a .byte with
        | some r => exact regWrite_withStack (h0 _ hr).1 (h0 _ hr).2 _ _ _
        | none => rfl
      · simp only [byteWrite, State.withStack_cfg, Bool.eq_false_of_not_eq_true hw, Bool.false_eq_true, if_false]
        exact regionWrite_withStack _ _ _ _ _
    rw [this, ih]
    intro i r hi hr
    rw [(byteWrite_keeps a v s).cfg] at hr
    exact h (i + 1) r (by simp; omega) (by rwa [add_ofNat_succ])

theorem busWrite_withStack {w : Width} {a : Addr} {v : Long} {s : State} (k : List Activation)
    (h : ∀ r, reaches s.cfg a w r → r ≠ .dmaCtrl ∧ r ≠ .blitFunc) :
    busWrite w a v (s.withStack k) = (busWrite w a v s).withStack k := by
  unfold busWrite
  simp only [State.withStack_cfg]
  split
  next r hr => exact regWrite_withStack (h r (.inl hr)).1 (h r (.inl hr)).2 _ _ _
  next hn => exact writeBytes_withStack k fun i r hi hr => h r (.inr ⟨hn, i, by rwa [bytesOf_length] at hi, hr⟩)

/-! ## What lies below on the stack (R52)

An operation on top of a stack does the same whatever the stack is, and leaves the stack below what it pushes. -/

/-- `f` only pushes, and what it does does not depend on the stack below. -/
def OnTop (f : State → State) : Prop :=
  ∀ (s : State) (base : List Activation), f (s.withStack base) = (f (s.withStack [])).withStack ((f (s.withStack [])).stack ++ base)

theorem State.withStack_eq {s : State} {k : List Activation} (h : s.stack = k) : s.withStack k = s := h ▸ rfl

theorem OnTop.comp {f g : State → State} (hf : OnTop f) (hg : OnTop g) : OnTop fun s => f (g s) := by
  intro s base
  simp only
  rw [hg s base, hf]
  conv_rhs => rw [← State.withStack_eq (s := g (s.withStack [])) rfl, hf]
  simp only [State.withStack_withStack, State.withStack_stack, List.append_assoc]

/-- An operation that keeps the stack and does not look at it. -/
theorem OnTop.of_commutes {f : State → State} (h : ∀ s k, f (s.withStack k) = (f s).withStack k) : OnTop f := by
  intro s base
  rw [h, h s []]
  rfl

theorem OnTop.push (x : Activation) : OnTop (Machine.push x) := fun _ _ => rfl

theorem dmaStart_onTop (const : Bool) (code : BitVec 2) (si di : Bool) : OnTop (dmaStart const code si di) := by
  intro s base
  unfold dmaStart
  simp only [State.withStack_cfg]
  cases widthOf s.cfg code with
  | none => rfl
  | some w =>
    have e : ∀ k, fastPath const w (s.withStack k) = fastPath const w s := fun _ => rfl
    simp only [e]
    split <;> rfl

theorem dmaArm_onTop (v : Byte) : OnTop (dmaArm v) := by
  unfold dmaArm
  split
  · exact dmaStart_onTop _ _ _ _
  · exact fun _ _ => rfl

theorem blitArm_onTop (v : Long) : OnTop (blitArm v) := by
  intro s base
  simp only [blitArm, blitStart, rleStart, State.withStack_cfg]
  cases widthOf s.cfg (blitfFields v).width <;> (repeat' split) <;> rfl

theorem regWrite_onTop (r : Reg) (v : Long) : OnTop (regWrite r v) := by
  cases r
  case dmaCtrl => exact dmaArm_onTop _
  case blitFunc => exact blitArm_onTop _
  all_goals exact fun _ _ => rfl

theorem byteWrite_onTop (a : Addr) (v : Byte) : OnTop (byteWrite a v) := by
  intro s base
  by_cases hw : inWindow s.cfg a = true
  · simp only [byteWrite, State.withStack_cfg, hw, if_true]
    rw [windowWrite_select (s := s.withStack base) hw, windowWrite_select (s := s.withStack []) hw]
    simp only [State.withStack_cfg]
    cases selectReg s.cfg a .byte with
    | some r => exact regWrite_onTop r _ s base
    | none => rfl
  · simp only [byteWrite, State.withStack_cfg, Bool.eq_false_of_not_eq_true hw, Bool.false_eq_true, if_false]
    exact OnTop.of_commutes (regionWrite_withStack _ _ _) s base

theorem writeBytes_onTop (a : Addr) (vs : List Byte) : OnTop (writeBytes a vs) := by
  induction vs generalizing a with
  | nil => exact fun _ _ => rfl
  | cons v vs ih =>
    intro s base
    cases h : hitsDmaCtrl s.cfg a && !vs.isEmpty
    · simp only [writeBytes, State.withStack_cfg, h]
      exact ((ih (a + 1)).comp (byteWrite_onTop a v)) s base
    · simp only [writeBytes, State.withStack_cfg, h]
      exact ((byteWrite_onTop a v).comp (OnTop.push _)) s base

theorem busWrite_onTop (w : Width) (a : Addr) (v : Long) : OnTop (busWrite w a v) := by
  intro s base
  simp only [busWrite, State.withStack_cfg]
  split
  · exact regWrite_onTop _ _ s base
  · exact writeBytes_onTop _ _ s base

/-- A read, and then a write that may use what was read. -/
theorem readWrite_onTop {α : Type} (f : State → α × State) (g : α → State → State)
    (hf : ∀ s k, f (s.withStack k) = ((f s).1, (f s).2.withStack k)) (hg : ∀ x, OnTop (g x)) :
    OnTop fun s => g (f s).1 (f s).2 := by
  intro s base
  simp only [hf]
  exact hg _ _ _

theorem dmaDatum_withStack (l : DmaLatch) (s : State) (k : List Activation) :
    dmaDatum l (s.withStack k) = ((dmaDatum l s).1, (dmaDatum l s).2.withStack k) := by
  unfold dmaDatum
  split
  · rfl
  · exact busRead_withStack _ _ _ _

theorem rleFetch_withStack (s : State) (k : List Activation) :
    rleFetch (s.withStack k) = ((rleFetch s).1, (rleFetch s).2.withStack k) := by
  simp only [rleFetch, State.withStack_blit, busRead_withStack]
  split <;> rfl

theorem blitMove_onTop (op : BlitOp) (l : BlitLatch) : OnTop (blitMove op l) := by
  have rd (w w' : Width) (a : State → Addr) (b : State → Addr) (v : Long → Long) (h : ∀ s k, a (s.withStack k) = a s)
      (hb : ∀ s k, b (s.withStack k) = b s) :
      OnTop fun s => busWrite w' (b (busRead w (a s) s).2) (v (busRead w (a s) s).1) (busRead w (a s) s).2 :=
    readWrite_onTop (fun s => busRead w (a s) s) (fun x s => busWrite w' (b s) (v x) s)
      (fun s k => by simp only [h, busRead_withStack])
      fun x s k => by simp only [hb]; exact busWrite_onTop _ _ _ _ _
  cases op
  case blit =>
    intro s base
    have := rd l.width l.width (·.blit.a) (·.blit.b) id (fun _ _ => rfl) (fun _ _ => rfl) s base
    simp only [blitMove, busRead_withStack, State.withStack_blit] at this ⊢
    split
    · rfl
    · exact this
  case set =>
    intro s base
    simp only [blitMove]
    split
    · exact busWrite_onTop _ _ _ _ _
    · exact rd l.width l.width (·.blit.b) (·.blit.b) id (fun _ _ => rfl) (fun _ _ => rfl) s base
  case invert => exact rd .byte .byte (·.blit.b) (·.blit.b) (~~~ ·) (fun _ _ => rfl) (fun _ _ => rfl)

theorem hdmaServe_onTop (h : HdmaChannel) (n : Nat) : OnTop (hdmaServe h n) := by
  intro s base
  simp only [hdmaServe, State.withStack_cfg]
  split
  · split
    · rfl
    · simp only [busRead_withStack]
      exact busWrite_onTop _ _ _ _ _
  · rfl

/-- An operation on top, from any stack. -/
theorem OnTop.append {f : State → State} (hf : OnTop f) (s : State) (top base : List Activation) :
    f (s.withStack (top ++ base)) = (f (s.withStack top)).withStack ((f (s.withStack top)).stack ++ base) := by
  rw [hf s (top ++ base), hf s top]
  simp only [State.withStack_withStack, State.withStack_stack, List.append_assoc]

/-- A micro-step of the activation on top does the same whatever lies below it. -/
theorem tick_append (s : State) (x : Activation) (top base : List Activation) :
    tick (s.withStack (x :: (top ++ base))) =
      (tick (s.withStack (x :: top))).withStack ((tick (s.withStack (x :: top))).stack ++ base) := by
  cases x with
  | dma l moved =>
    simp only [tick, State.withStack_stack, dmaTick, State.withStack_dma]
    cases moved
    · by_cases h : s.dma.len = 0
      · simp only [h, ↓reduceIte]; rfl
      simp only [h, Bool.false_eq_true, ↓reduceIte]
      simp only [dmaDatum_withStack, State.withStack_withStack, State.withStack_dma]
      exact (busWrite_onTop _ _ _).append (dmaDatum l s).2 (.dma l true :: top) base
    · rfl
  | blit op l place =>
    have move (y : Activation) : blitMove op l ((s.withStack (.blit op l place :: (top ++ base))).withStack
        (y :: (top ++ base))) = (blitMove op l ((s.withStack (.blit op l place :: top)).withStack (y ::
          top))).withStack
        ((blitMove op l ((s.withStack (.blit op l place :: top)).withStack (y :: top))).stack ++ base) := by
      simp only [State.withStack_withStack]
      exact (blitMove_onTop op l).append s (y :: top) base
    cases place <;> simp only [tick, State.withStack_stack, blitTick, State.withStack_blit]
    case test =>
      by_cases h : s.blit.len = 0
      · simp only [h, ↓reduceIte]; rfl
      by_cases h' : l.skip = true
      · simp only [h, h', ↓reduceIte]; rfl
      · simp only [h, h', ↓reduceIte]; exact move _
    case pass i =>
      by_cases h : i < l.srcStride.toNat ∧ s.blit.len ≠ 0
      · simp only [h, ne_eq, not_false_eq_true, and_self, ↓reduceIte]; exact move _
      · simp only [h, ↓reduceIte]; rfl
    case moved i => rfl
  | rle l =>
    simp only [tick, State.withStack_stack, rleTick, State.withStack_blit]
    by_cases h : s.blit.len = 0
    · simp only [h, ↓reduceIte]; rfl
    · simp only [h, ↓reduceIte, rleFetch_withStack]
      cases (rleFetch s).1 <;> rfl
  | rleOut left v wrote =>
    simp only [tick, State.withStack_stack, rleOutTick]
    cases wrote
    · cases left with
      | zero => rfl
      | succ n =>
        simp only [Bool.false_eq_true, if_false, State.withStack_withStack, State.withStack_blit]
        exact (busWrite_onTop _ _ _).append s (.rleOut n v true :: top) base
    · rfl
  | bytes a vs =>
    simp only [tick, State.withStack_stack, State.withStack_withStack]
    exact (writeBytes_onTop _ _).append s top base
  | hdma n next =>
    simp only [tick, State.withStack_stack, hdmaTick, State.withStack_hdma, State.withStack_withStack]
    by_cases h : next < 8
    · simp only [dif_pos h]; exact (hdmaServe_onTop _ _).append s (.hdma n (next + 1) :: top) base
    · simp only [dif_neg h]; rfl

/-- A run down to a depth does the same whatever lies below that depth, and leaves it as it was. -/
theorem settle_append (n : Nat) (s : State) (top base : List Activation) :
    settle base.length n (s.withStack (top ++ base)) =
      (settle 0 n (s.withStack top)).withStack ((settle 0 n (s.withStack top)).stack ++ base) := by
  induction n generalizing s top with
  | zero => rfl
  | succ n ih =>
    cases top with
    | nil =>
      rw [settle_done (by simp), settle_done (by simp)]
      rfl
    | cons x top =>
      rw [settle_succ (by simp), settle_succ (by simp), List.cons_append, tick_append, ih,
        State.withStack_eq (s := tick (s.withStack (x :: top))) rfl]

end Sys2Proof.Machine
end

