-- ==== Sys2Proof/Tests/Slice0.lean ====
section
/-! SUPPORT. The tests of this model: each well-formedness check refuses an ill-formed term, every command's word decodes
and encodes as spec/30_encoding.md lays it out, single steps give what spec/95_test_vectors.md lists, and every
statement with hypotheses has a state and operands that meet them. -/

namespace Sys2Proof.Tests

open Sys2Proof.Machine

/-! ## Well-formedness: one ill-formed term for each check -/

theorem test_wf_line_number : wellFormed Cfg.default (.line 0x10000) = false ∧
    wellFormed Cfg.default (.line 0xFFFF) = true := by decide
theorem test_wf_hdma_line_number : wellFormed Cfg.default (.hdmaLine 0x10000) = false ∧
    wellFormed Cfg.default (.hdmaLine 0xFFFF) = true := by decide
theorem test_wf_window : wellFormed Cfg.default (.windowReg .read 0x0D100000) = false ∧
    wellFormed Cfg.default (.windowReg .read 0x0D0FFFFF) = true := by decide

/-- A decoder row's address lies in the next bank, or, for bank 0, inside the window. -/
theorem test_wf_banks : ([.bankRom .read 0x10000000,
    .bankWram .read 0x20000000,
    .bankDev .read 0x30000000,
    .bankNone3 .read 0x40000000,
    .bankNone4 .read 0x50000000,
    .bankNone5 .read 0x60000000,
    .bankNone6 .read 0x70000000,
    .bankNone7 .read 0x80000000,
    .bankNone8 .read 0x90000000,
    .bankNone9 .read 0xA0000000,
    .bankNoneA .read 0xB0000000,
    .bankNoneB .read 0xC0000000,
    .bankNoneC .read 0xD0000000,
    .bankNoneD .read 0xE0000000,
    .bankVram .read 0xF0000000,
    .bankNoneF .read 0x00000000,
    .bankRom .read 0x0D000000] : List Instr).all (fun i => !wellFormed Cfg.default i) = true := by decide
theorem test_wf_unknown_register : wellFormed Cfg.default (.regUnknown .rd8 0x0D000040) = false ∧
    wellFormed Cfg.default (.regUnknown .rd16 0x0D000040) = true ∧
    wellFormed Cfg.default (.regUnknown .rd8 0x10000000) = false := by decide
theorem test_wf_run_is_not_end : wellFormed Cfg.default (.rleRun 0 0xC0) = false ∧
    wellFormed Cfg.default (.rleRun 0 0) = true ∧ wellFormed Cfg.default (.rleRun 1 0xC0) = true := by decide

/-! ## Decoding and encoding: words laid out by hand from the spec's encodings -/

/-- The word decodes to the command in this context, and the command encodes to the word there. -/
def stands (ctx : Context) (bs : List Byte) (i : Instr) : Bool :=
  decide (contextOf Cfg.default i = ctx) && decide (encode Cfg.default i = bs) &&
  match decode Cfg.default ctx bs with
  | .ok (j, []) => decide (j = i)
  | _ => false

/-- Bus frames (R121): op, address, data. -/
theorem test_word_frames :
    stands .bus [0x00, 0x10, 0x00, 0x00, 0x20, 0, 0, 0, 0] (.rd8 0x10000020) = true ∧
    stands .bus [0x01, 0x0D, 0x00, 0x00, 0x10, 0, 0, 0, 0] (.rd16 0x0D000010) = true ∧
    stands .bus [0x02, 0xE0, 0x00, 0x20, 0x00, 0, 0, 0, 0] (.rd32 0xE0002000) = true ∧
    stands .bus [0x80, 0x0D, 0x00, 0x01, 0x0A, 0, 0, 0, 0x2D] (.wr8 0x0D00010A 0x2D) = true ∧
    stands .bus [0x81, 0x0D, 0x00, 0x00, 0x14, 0, 0, 1, 0x23] (.wr16 0x0D000014 0x123) = true ∧
    stands .bus [0x82, 0x10, 0x00, 0x01, 0x00, 0x11, 0x22, 0x33, 0x44] (.wr32 0x10000100 0x11223344) = true ∧
    stands .bus [0x40, 0, 0, 0, 12, 0, 0, 0, 0] (.line 12) = true ∧
    encode Cfg.default (.hdmaLine 12) = [0x40, 0, 0, 0, 12, 0, 0, 0, 0] := by decide
theorem test_frame_rejects :
    (decode Cfg.default .bus [0x03, 0, 0, 0, 0, 0, 0, 0, 0] matches .error .reservedOp) = true ∧
    (decode Cfg.default .bus [0x00, 0, 0, 0, 0, 0, 0, 0, 1] matches .error .dataNotZero) = true ∧
    (decode Cfg.default .bus [0x40, 0, 1, 0, 0, 0, 0, 0, 0] matches .error .lineOutOfRange) = true ∧
    (decode Cfg.default .bus [0x80, 0, 1, 0] matches .error .tooShort) = true := by decide

/-- Addresses at the decoder (R122): the window before the banks, the bank in bits 31:28. -/
theorem test_word_addresses :
    stands (.addr .read) [0x0D, 0x00, 0x00, 0x40] (.windowReg .read 0x0D000040) = true ∧
    stands (.addr (.write 9)) [0x0D, 0x0F, 0xFF, 0xFF] (.windowReg (.write 9) 0x0D0FFFFF) = true ∧
    stands (.addr .read) [0x02, 0x34, 0x56, 0x78] (.bankRom .read 0x02345678) = true ∧
    stands (.addr .read) [0x12, 0x34, 0x56, 0x78] (.bankWram .read 0x12345678) = true ∧
    stands (.addr .read) [0x22, 0x34, 0x56, 0x78] (.bankDev .read 0x22345678) = true ∧
    stands (.addr .read) [0x32, 0x34, 0x56, 0x78] (.bankNone3 .read 0x32345678) = true ∧
    stands (.addr .read) [0x42, 0x34, 0x56, 0x78] (.bankNone4 .read 0x42345678) = true ∧
    stands (.addr .read) [0x52, 0x34, 0x56, 0x78] (.bankNone5 .read 0x52345678) = true ∧
    stands (.addr .read) [0x62, 0x34, 0x56, 0x78] (.bankNone6 .read 0x62345678) = true ∧
    stands (.addr .read) [0x72, 0x34, 0x56, 0x78] (.bankNone7 .read 0x72345678) = true ∧
    stands (.addr .read) [0x82, 0x34, 0x56, 0x78] (.bankNone8 .read 0x82345678) = true ∧
    stands (.addr .read) [0x92, 0x34, 0x56, 0x78] (.bankNone9 .read 0x92345678) = true ∧
    stands (.addr .read) [0xA2, 0x34, 0x56, 0x78] (.bankNoneA .read 0xA2345678) = true ∧
    stands (.addr .read) [0xB2, 0x34, 0x56, 0x78] (.bankNoneB .read 0xB2345678) = true ∧
    stands (.addr .read) [0xC2, 0x34, 0x56, 0x78] (.bankNoneC .read 0xC2345678) = true ∧
    stands (.addr .read) [0xD2, 0x34, 0x56, 0x78] (.bankNoneD .read 0xD2345678) = true ∧
    stands (.addr .read) [0xE2, 0x34, 0x56, 0x78] (.bankVram .read 0xE2345678) = true ∧
    stands (.addr .read) [0xF2, 0x34, 0x56, 0x78] (.bankNoneF .read 0xF2345678) = true := by decide

/-- A register row, read and written: the address of the register in its own width (R130). -/
def standsReg (rd wr : Access) (hi lo : Byte) (r w : Instr) : Bool :=
  stands (.reg rd) [0x0D, 0x00, hi, lo] r && stands (.reg wr) [0x0D, 0x00, hi, lo] w

theorem test_word_display_registers :
    standsReg .rd8 (.wr8 5) 0x00 0x00 .screenModeR (.screenModeW 5) = true ∧
    standsReg .rd8 (.wr8 5) 0x00 0x08 .tilemapSetR (.tilemapSetW 5) = true ∧
    standsReg .rd8 (.wr8 5) 0x00 0x09 .tilemapBlendR (.tilemapBlendW 5) = true ∧
    standsReg .rd16 (.wr16 5) 0x00 0x10 .scrollX0R (.scrollX0W 5) = true ∧
    standsReg .rd16 (.wr16 5) 0x00 0x12 .scrollY0R (.scrollY0W 5) = true ∧
    standsReg .rd16 (.wr16 5) 0x00 0x14 .scrollX1R (.scrollX1W 5) = true ∧
    standsReg .rd16 (.wr16 5) 0x00 0x16 .scrollY1R (.scrollY1W 5) = true ∧
    standsReg .rd16 (.wr16 5) 0x00 0x18 .scrollX2R (.scrollX2W 5) = true ∧
    standsReg .rd16 (.wr16 5) 0x00 0x1A .scrollY2R (.scrollY2W 5) = true ∧
    standsReg .rd16 (.wr16 5) 0x00 0x1C .scrollX3R (.scrollX3W 5) = true ∧
    standsReg .rd16 (.wr16 5) 0x00 0x1E .scrollY3R (.scrollY3W 5) = true := by decide

theorem test_word_scalar_registers :
    standsReg .rd8 (.wr8 5) 0x00 0x40 .keyscanR (.keyscanW 5) = true ∧
    standsReg .rd8 (.wr8 5) 0x00 0x42 .joypad0R (.joypad0W 5) = true ∧
    standsReg .rd8 (.wr8 5) 0x00 0x43 .joypad1R (.joypad1W 5) = true ∧
    standsReg .rd32 (.wr32 5) 0x00 0x44 .msgOutR (.msgOutW 5) = true ∧
    standsReg .rd32 (.wr32 5) 0x00 0x60 .ticksR (.ticksW 5) = true ∧
    standsReg .rd8 (.wr8 5) 0x00 0x80 .intFlagsR (.intFlagsW 5) = true := by decide

theorem test_word_engine_registers :
    standsReg .rd32 (.wr32 5) 0x01 0x00 .dmaSrcR (.dmaSrcW 5) = true ∧
    standsReg .rd32 (.wr32 5) 0x01 0x04 .dmaDstR (.dmaDstW 5) = true ∧
    standsReg .rd32 (.wr32 5) 0x01 0x08 .dmaLenR (.dmaLenW 5) = true ∧
    standsReg .rd8 (.wr8 5) 0x01 0x0A .dmaCtrlR (.dmaCtrlW 5) = true ∧
    standsReg .rd32 (.wr32 5) 0x02 0x00 .blitFuncR (.blitFuncW 5) = true ∧
    standsReg .rd32 (.wr32 5) 0x02 0x04 .blitAR (.blitAW 5) = true ∧
    standsReg .rd32 (.wr32 5) 0x02 0x08 .blitBR (.blitBW 5) = true ∧
    standsReg .rd32 (.wr32 5) 0x02 0x0C .blitLenR (.blitLenW 5) = true ∧
    standsReg .rd32 (.wr32 5) 0x02 0x10 .blitKeyR (.blitKeyW 5) = true := by decide

theorem test_word_hdma_registers :
    standsReg .rd32 (.wr32 5) 0x01 0x80 .hdmaCtrl0R (.hdmaCtrl0W 5) = true ∧
    standsReg .rd32 (.wr32 5) 0x01 0x84 .hdmaCtrl1R (.hdmaCtrl1W 5) = true ∧
    standsReg .rd32 (.wr32 5) 0x01 0x88 .hdmaCtrl2R (.hdmaCtrl2W 5) = true ∧
    standsReg .rd32 (.wr32 5) 0x01 0x8C .hdmaCtrl3R (.hdmaCtrl3W 5) = true ∧
    standsReg .rd32 (.wr32 5) 0x01 0x90 .hdmaCtrl4R (.hdmaCtrl4W 5) = true ∧
    standsReg .rd32 (.wr32 5) 0x01 0x94 .hdmaCtrl5R (.hdmaCtrl5W 5) = true ∧
    standsReg .rd32 (.wr32 5) 0x01 0x98 .hdmaCtrl6R (.hdmaCtrl6W 5) = true ∧
    standsReg .rd32 (.wr32 5) 0x01 0x9C .hdmaCtrl7R (.hdmaCtrl7W 5) = true ∧
    standsReg .rd32 (.wr32 5) 0x01 0xA0 .hdmaSrc0R (.hdmaSrc0W 5) = true ∧
    standsReg .rd32 (.wr32 5) 0x01 0xA4 .hdmaSrc1R (.hdmaSrc1W 5) = true ∧
    standsReg .rd32 (.wr32 5) 0x01 0xA8 .hdmaSrc2R (.hdmaSrc2W 5) = true ∧
    standsReg .rd32 (.wr32 5) 0x01 0xAC .hdmaSrc3R (.hdmaSrc3W 5) = true ∧
    standsReg .rd32 (.wr32 5) 0x01 0xB0 .hdmaSrc4R (.hdmaSrc4W 5) = true ∧
    standsReg .rd32 (.wr32 5) 0x01 0xB4 .hdmaSrc5R (.hdmaSrc5W 5) = true ∧
    standsReg .rd32 (.wr32 5) 0x01 0xB8 .hdmaSrc6R (.hdmaSrc6W 5) = true ∧
    standsReg .rd32 (.wr32 5) 0x01 0xBC .hdmaSrc7R (.hdmaSrc7W 5) = true ∧
    standsReg .rd32 (.wr32 5) 0x01 0xC0 .hdmaDst0R (.hdmaDst0W 5) = true ∧
    standsReg .rd32 (.wr32 5) 0x01 0xC4 .hdmaDst1R (.hdmaDst1W 5) = true ∧
    standsReg .rd32 (.wr32 5) 0x01 0xC8 .hdmaDst2R (.hdmaDst2W 5) = true ∧
    standsReg .rd32 (.wr32 5) 0x01 0xCC .hdmaDst3R (.hdmaDst3W 5) = true ∧
    standsReg .rd32 (.wr32 5) 0x01 0xD0 .hdmaDst4R (.hdmaDst4W 5) = true ∧
    standsReg .rd32 (.wr32 5) 0x01 0xD4 .hdmaDst5R (.hdmaDst5W 5) = true ∧
    standsReg .rd32 (.wr32 5) 0x01 0xD8 .hdmaDst6R (.hdmaDst6W 5) = true ∧
    standsReg .rd32 (.wr32 5) 0x01 0xDC .hdmaDst7R (.hdmaDst7W 5) = true := by decide

theorem test_word_unknown_register :
    stands (.reg .rd8) [0x0D, 0x00, 0x01, 0x00] (.regUnknown .rd8 0x0D000100) = true ∧
    stands (.reg (.wr16 7)) [0x0D, 0x00, 0x00, 0x11] (.regUnknown (.wr16 7) 0x0D000011) = true ∧
    stands (.reg .rd32) [0x0D, 0x0F, 0xFF, 0xFF] (.regUnknown .rd32 0x0D0FFFFF) = true := by decide

/-- DMA control words (R135): x x W W C T S 1. -/
theorem test_word_dmac :
    stands .dmac [0x00] .dmaNop = true ∧
    stands .dmac [0x07] (.dmaCopyB true true) = true ∧
    stands .dmac [0x13] (.dmaCopyW true false) = true ∧
    stands .dmac [0x25] (.dmaCopyL false true) = true ∧
    stands .dmac [0x0F] (.dmaFillB true true) = true ∧
    stands .dmac [0x1D] (.dmaFillW false true) = true ∧
    stands .dmac [0x2B] (.dmaFillL true false) = true ∧
    stands .dmac [0x37] (.dmaW3 false true true) = true ∧
    stands .dmac [0x39] (.dmaW3 true false false) = true := by decide
/-- The ignored bits may be set (R135, R137). -/
theorem test_word_ignored_bits :
    (decode Cfg.default .dmac [0xC7] matches .ok (.dmaCopyB true true, [])) = true ∧
    (decode Cfg.default .dmac [0x3E] matches .ok (.dmaNop, [])) = true ∧
    decodeHdmac 2 0xC05C0A5F = .hdmaSet 2 true 1 false 10 5 := by decide

/-- HDMA control words (R137): 0x00500A11 is start 10, count 5, word; 0x00A3FC81 is start 1020, count 10, double. -/
theorem test_word_hdmac :
    stands (.hdmac 0) [0x00, 0x50, 0x0A, 0x11] (.hdmaSet 0 true 1 false 10 5) = true ∧
    stands (.hdmac 7) [0x00, 0xA3, 0xFC, 0x81] (.hdmaSet 7 true 0 true 1020 10) = true ∧
    stands (.hdmac 3) [0x3F, 0xF0, 0x00, 0x30] (.hdmaSet 3 false 3 false 0 1023) = true := by decide

/-- Blitter function words (R136): 0x00400231 is target stride 4, source stride 2, key on, skip, function 1. -/
theorem test_word_blitf :
    stands .blitf [0x00, 0x40, 0x02, 0x31] (.bltBlitS (BlitFields.mk 4 2 0 true)) = true ∧
    stands .blitf [0x00, 0x00, 0x00, 0x21] (.bltBlit (BlitFields.mk 0 0 0 true)) = true ∧
    stands .blitf [0x00, 0x00, 0x00, 0x42] (.bltSet (BlitFields.mk 0 0 1 false)) = true ∧
    stands .blitf [0x00, 0x30, 0x02, 0x12] (.bltSetS (BlitFields.mk 3 2 0 false)) = true ∧
    stands .blitf [0x00, 0x00, 0x00, 0x83] (.bltInv (BlitFields.mk 0 0 2 false)) = true ∧
    stands .blitf [0x00, 0x20, 0x01, 0x13] (.bltInvS (BlitFields.mk 2 1 0 false)) = true ∧
    stands .blitf [0xFF, 0xFF, 0xFF, 0x34] (.bltRle (BlitFields.mk 0xFFF 0xFFF 0 true) true) = true ∧
    stands .blitf [0x12, 0x34, 0x56, 0xC0] (.bltNop (BlitFields.mk 0x123 0x456 3 false) false) = true ∧
    stands .blitf [0x00, 0x00, 0x00, 0x05] (.bltRsvd5 (BlitFields.mk 0 0 0 false) false) = true ∧
    stands .blitf [0x00, 0x00, 0x00, 0x17] (.bltRsvd6to7 (BlitFields.mk 0 0 0 false) true 1) = true ∧
    stands .blitf [0x00, 0x00, 0x00, 0x0D] (.bltRsvd8to15 (BlitFields.mk 0 0 0 false) false 5) = true := by decide

/-- Stream codes (R140): the pair C0 C0 is END; other pairs from C0 on are RUN; below C0 a literal. -/
theorem test_word_rle :
    stands .rle [0xC0, 0xC0] .rleEnd = true ∧ stands .rle [0xC2, 0x05] (.rleRun 2 5) = true ∧
    stands .rle [0xFF, 0xC0] (.rleRun 63 0xC0) = true ∧ stands .rle [0xC0, 0x00] (.rleRun 0 0) = true ∧
    stands .rle [0x7F] (.rleLit0 0x7F) = true ∧ stands .rle [0x80] (.rleLit1 0) = true ∧
    stands .rle [0xBF] (.rleLit1 0x3F) = true := by decide

/-- The host's numbering: a table word names its command, and the next step runs it. -/
theorem test_table_words :
    decodeTableWord 72 0x821000010011223344 = some (.wr32 0x10000100 0x11223344) ∧
    decodeTableWord 32 0x10000000 = some (.bankWram .read 0x10000000) ∧
    decodeTableWord 32 0x0D000040 = some .keyscanR ∧ decodeTableWord 8 0x2D = some (.dmaFillL false true) ∧
    decodeTableWord 32 0x00000012 = some (.bltSetS (BlitFields.mk 0 0 0 false)) ∧
    decodeTableWord 16 0xC205 = some (.rleRun 2 5) ∧ decodeTableWord 24 0 = none := by decide

/-! ## Small states -/

/-- What a next state holds. -/
def onNext {α : Type} (o : Host.Outcome State Fault Refusal) (f : State → α) : Option α :=
  match o with
  | .next t => some (f t)
  | .fault _ => none
  | .refused _ => none

/-- Reset with the given treatment of width code 3 and a device in slot 1. -/
def start (w3 : Width3) : State :=
  State.provision true ((fun c : Cfg => Cfg.mk c.bankLsb c.bootSize c.cartBase c.cartSize c.wramSize c.vramWinMask
    c.vramSize c.devBlock c.regBase c.regSize c.off w3 ((Vector.replicate 16 false).set 1 true)) Cfg.default)
    [(0, 0x4E), (1, 0x71), (2, 0x4E), (3, 0x71), (0x1FFFF, 0x99)] [(0, 0x41), (0xE0000, 0x77), (0xE0001, 0x88)]

/-- `start` with working RAM. -/
def ram (m : Memory) : State := (start .long).withMem (Memories.mk (start .long).mem.boot (start .long).mem.cart m [])

/-- `ram` with DMA registers. -/
def dmaState (m : Memory) (src dst len : Long) : State := (ram m).withDma (DmaRegs.mk src dst len)

/-- `ram` with blitter registers. -/
def blitState (m : Memory) (a b len key : Long) : State := (ram m).withBlit (BlitRegs.mk a b len key)

/-- Channel `ch` set up in `ram`. -/
def hdmaState (m : Memory) (ch : Fin 8) (h : HdmaChannel) : State := (ram m).withHdma ((ram m).hdma.set ch h)

/-- A run from index `o` on. -/
def cells (o : Nat) : List Byte → Memory
  | [] => []
  | b :: bs => (o, b) :: cells (o + 1) bs

/-- The answer of a read. -/
def answerOf (o : Host.Outcome State Fault Refusal) : Option Long := onNext o fun t => t.port.result

/-- The DMA registers and working RAM after a command. -/
def dmaAfter (o : Host.Outcome State Fault Refusal) : Option (DmaRegs × Memory) := onNext o fun t => (t.dma, t.mem.wram)

/-- The blitter registers and working RAM after a command. -/
def blitAfter (o : Host.Outcome State Fault Refusal) : Option (BlitRegs × Memory) :=
  onNext o fun t => (t.blit, t.mem.wram)

/-! ## Single steps: the vectors of spec/95_test_vectors.md (the id is in the name) -/

theorem test_bus_1_write_is_cut_to_8_bits :
    onNext (exec (.wr8 0x10000010 0x1FF) (ram [])) (fun t => t.mem.wram) = some [(0x10, 0xFF)] := by decide
theorem test_bus_2_bytes_most_significant_first :
    onNext (exec (.wr32 0x10000030 0xDEADBEEF) (ram [])) (fun t => t.mem.wram) =
    some (cells 0x30 [0xDE, 0xAD, 0xBE, 0xEF]) := by decide
theorem test_bus_2_misaligned_reads :
    answerOf (exec (.rd32 0x10000031) (ram (cells 0x30 [0xDE, 0xAD, 0xBE, 0xEF]))) = some 0xADBEEF00 ∧
    answerOf (exec (.rd16 0x10000033) (ram (cells 0x30 [0xDE, 0xAD, 0xBE, 0xEF]))) = some 0xEF00 := by decide
theorem test_bus_3_reads_mirror_and_writes_do_not :
    answerOf (exec (.rd8 0x10400010) (ram [(0x10, 0x5A)])) = some 0x5A ∧
    onNext (exec (.wr8 0x10400010 0x77) (ram [(0x10, 0x5A)])) (fun t => t.mem.wram) = some [(0x10, 0x5A)] := by decide
theorem test_bus_4_bits_27_to_24_are_ignored :
    answerOf (exec (.rd8 0x1F000010) (ram [(0x10, 0x5A)])) = some 0x5A := by decide
theorem test_bus_5_unmapped_banks :
    answerOf (exec (.rd32 0x30000000) (ram [])) = some 0 ∧
    onNext (exec (.bankNoneF (.write 7) 0xF0000000) (ram [])) (fun t => t.mem.wram) = some [] := by decide
theorem test_bus_6_rom :
    answerOf (exec (.rd16 0x0001FFFF) (start .long)) = some 0x9941 ∧
      answerOf (exec (.rd16 0x05000002) (start .long)) = some 0x4E71 ∧
    onNext (exec (.wr8 0 0xFF) (start .long)) (fun t => t.mem.boot.read 0) = some 0x4E := by decide
theorem test_bus_7_video_ram_edge :
    onNext (exec (.wr16 0xE005FFFF 0xABCD) (ram [])) (fun t => t.mem.vram) = some [(0x5FFFF, 0xAB)] ∧
    onNext (exec (.wr8 0xE0080010 0x33) (ram [])) (fun t => t.mem.vram) = some [(0x10, 0x33)] := by decide
theorem test_bus_8_device_writes :
    onNext (exec (.wr16 0x20008020 0xBEEF) (ram [])) (fun t => t.port.events) =
    some [.devWrite 1 0x21 0xEF, .devWrite 1 0x20 0xBE] := by decide
theorem test_bus_8_device_reads :
    answerOf (exec (.rd16 0x20008010) ((ram []).withPort (Ports.mk [] 0 [] [] [0x110, 0x11] 0))) = some 0x1011 ∧
    answerOf (exec (.rd8 0x20080000) (ram [])) = some 0 := by decide
theorem test_bus_9_addresses_wrap :
    answerOf (exec (.rd16 0xFFFFFFFF) (ram [])) = some 0x004E := by decide
theorem test_bus_10_write_across_the_window_edge :
    onNext (exec (.wr16 0x0CFFFFFF 0x12EF) (ram [])) (fun t => (t.display.mode, t.display.f5, t.display.f6,
      t.display.f7)) =
    some (0xF, true, true, true) := by decide
theorem test_bus_11_read_across_the_window_edge :
    answerOf (exec (.rd32 0x0D0FFFFE) (ram [])) = some 0x00007788 := by decide
theorem test_reg_1_screen_mode_drops_bit_4 :
    onNext (exec (.screenModeW 0xFF) (ram [])) (fun t => screenModeByte t.display) = some 0xEF := by decide
theorem test_reg_2_tilemap_set_drops_bits_5_to_4 :
    onNext (exec (.tilemapSetW 0xFF) (ram [])) (fun t => tilemapSetByte t.display) = some 0xCF := by decide
theorem test_reg_3_tilemap_blend :
    onNext (exec (.tilemapBlendW 0x21) (ram [])) (fun t => (t.display.blend[0], t.display.blend[1])) =
      some (1, 2) := by decide
theorem test_reg_5_scroll_keeps_9_bits :
    onNext (exec (.wr16 0x0D000010 0xFFFF) (ram [])) (fun t => t.display.scrollX[0]) = some 0x1FF ∧
    onNext (exec (.wr32 0x0D000010 0x00550066) (ram [])) (fun t => t.display.scrollX[0]) = some 0 := by decide
theorem test_reg_7_scroll_registers :
    onNext (exec (.wr16 0x0D000012 0x0145) (ram [])) (fun t => t.display.scrollY[0]) = some 0x145 ∧
    onNext (exec (.wr16 0x0D00001C 0x03FF) (ram [])) (fun t => t.display.scrollX[3]) = some 0x1FF := by decide
theorem test_reg_8_a_byte_of_a_wide_register_reads_zero :
    answerOf (exec (.rd16 0x0D000060) ((ram []).withIo (IoRegs.mk 0 0 0 0 0x12345678))) = some 0 ∧
    answerOf (exec (.rd32 0x0D000060) ((ram []).withIo (IoRegs.mk 0 0 0 0 0x12345678))) = some 0x12345678 := by decide
theorem test_reg_9_a_native_write_of_dma_len_arms_nothing :
    dmaAfter (exec (.wr32 0x0D000108 0x107) (ram [])) = some (DmaRegs.mk 0 0 0x107, []) := by decide
theorem test_reg_10_a_composed_write_arms_the_dma_engine :
    dmaAfter (exec (.wr16 0x0D00010A 0x0700) (dmaState (cells 0x100 [0x11, 0x22]) 0x10000100 0x10000200 2)) =
    some (DmaRegs.mk 0x10000102 0x10000202 0, cells 0x100 [0x11, 0x22] ++ cells 0x200 [0x11, 0x22]) := by decide
theorem test_reg_11_messages :
    onNext (exec (.wr32 0x0D000044 0x903C7F) (ram [])) (fun t => t.port.events) = some [.out 0x00903C7F] ∧
    onNext (exec (.wr16 0x0D000044 0x1234) (ram [])) (fun t => t.port.events) = some [] := by decide
theorem test_reg_12_key_scan :
    onNext (exec (.rd8 0x0D000040) ((ram []).withPort (Ports.mk [] 0 [] [0x1C, 0] [] 0)))
      (fun t => (t.port.result, t.io.keyscan, t.port.pollAnswers)) = some (0x1C, 0x1C, [0]) ∧
    onNext (exec (.keyscanW 0x55) (ram [])) (fun t => t.io.keyscan) = some 0 := by decide
theorem test_reg_14_write_only_registers :
    answerOf (exec (.rd32 0x0D000180) (hdmaState [] 0 (HdmaChannel.mk true true 1 3 4 5 6))) = some 0 := by decide
theorem test_dma_2_constant_words :
    dmaAfter (exec (.dmaFillW false true) (dmaState [] 0x0000ABCD 0x10000300 3)) =
    some (DmaRegs.mk 0x0000ABCD 0x10000306 0, cells 0x300 [0xAB, 0xCD, 0xAB, 0xCD, 0xAB, 0xCD]) := by decide
theorem test_dma_3_fast_fill :
    dmaAfter (exec (.dmaFillL false true) (dmaState [] 0xAABBCCDD 0x10001000 8)) =
    some (DmaRegs.mk 0xAABBCCDD 0x10001020 0, cells 0x1000 [0xDD, 0xDD, 0xDD, 0xDD, 0xDD, 0xDD, 0xDD, 0xDD]) := by
      decide
theorem test_dma_4_general_fill :
    onNext (exec (.dmaFillL false true) (dmaState [] 0xAABBCCDD 0xE0001000 2)) (fun t => (t.dma, t.mem.vram)) =
    some (DmaRegs.mk 0xAABBCCDD 0xE0001008 0, cells 0x1000 [0xAA, 0xBB, 0xCC, 0xDD, 0xAA, 0xBB, 0xCC, 0xDD]) := by
      decide
theorem test_dma_6_start_clear :
    dmaAfter (exec (.wr8 0x0D00010A 0x3E) (dmaState [] 1 2 4)) = some (DmaRegs.mk 1 2 4, []) := by decide
theorem test_dma_8_the_value_itself_advances :
    dmaAfter (exec (.dmaFillB true true) (dmaState [] 0x10 0x10000220 4)) =
    some (DmaRegs.mk 0x14 0x10000224 0, cells 0x220 [0x10, 0x11, 0x12, 0x13]) := by decide
theorem test_dma_9_forward_overlap :
    dmaAfter (exec (.dmaCopyB true true) (dmaState (cells 0x100 [0x11, 0x22, 0x33, 0x44]) 0x10000100 0x10000101 4)) =
    some (DmaRegs.mk 0x10000104 0x10000105 0, cells 0x100 [0x11, 0x11, 0x11, 0x11, 0x11]) := by decide
theorem test_dma_10_copy_long :
    onNext (exec (.dmaCopyL true true) (dmaState [] 0 0xE0000000 1)) (fun t => (t.dma, t.mem.vram)) =
    some (DmaRegs.mk 4 0xE0000004 0, cells 0 [0x4E, 0x71, 0x4E, 0x71]) := by decide
theorem test_dma_11_word_into_a_register :
    onNext (exec (.dmaCopyW true false) (dmaState (cells 0x2000 [0xFE, 0xDC]) 0x10002000 0x0D000010 1))
    (fun t => (t.dma, t.display.scrollX[0])) = some (DmaRegs.mk 0x10002002 0x0D000010 0, 0x0DC) := by decide
theorem test_dma_12_fast_fill_stops_at_the_end :
    dmaAfter (exec (.dmaFillL false false) (dmaState [(0, 0x99)] 0x11 0x103FFFFE 4)) =
    some (DmaRegs.mk 0x11 0x103FFFFE 0, [(0, 0x99), (0x3FFFFE, 0x11), (0x3FFFFF, 0x11)]) := by decide
theorem test_dma_14_width_code_3 :
    dmaAfter (exec (.dmaW3 false true true) (dmaState (cells 0x100 [0x11, 0x22]) 0x10000100 0x10000200 1)) =
      some (DmaRegs.mk 0x10000104 0x10000204 0, cells 0x100 [0x11, 0x22] ++ cells 0x200 [0x11, 0x22]) ∧
    dmaAfter (exec (.dmaW3 false true true) (start .reject)) = some (DmaRegs.mk 0 0 0, []) := by decide
theorem test_hdma_1_line_window :
    ([9, 10, 12, 14, 15] : List (BitVec 32)).map (fun n => onNext (exec (.line n) (hdmaState
      (cells 0x2000 [1, 0x10, 1, 0x11, 1, 0x12, 1, 0x13, 1, 0x14]) 0 (HdmaChannel.mk true false 1 10 5 0x10002000
        0x0D000010)))
        (fun t => t.display.scrollX[0])) = [some 0x0, some 0x110, some 0x112, some 0x114, some 0x0] := by decide
theorem test_hdma_2_double_rate :
    ([10, 11, 12, 14] : List (BitVec 32)).map (fun n => onNext (exec (.line n) (hdmaState
      (cells 0x2000 [1, 0x10, 1, 0x11, 1, 0x12, 1, 0x13, 1, 0x14]) 0 (HdmaChannel.mk true true 1 10 5 0x10002000
        0x0D000010)))
        (fun t => t.display.scrollX[0])) = [some 0x110, some 0x110, some 0x111, some 0x112] := by decide
theorem test_hdma_4_ascending_channels :
    onNext (exec (.hdmaLine 1) (((ram (cells 0x2000 [0, 0x22, 0, 0x44])).withHdma (((ram []).hdma.set 1
      (HdmaChannel.mk true false 1 1 1 0x10002002 0x0D000010)).set 0 (HdmaChannel.mk true false 1 1 1 0x10002000
        0x0D000010)))))
    (fun t => t.display.scrollX[0]) = some 0x44 := by decide
theorem test_hdma_10_window_end_is_not_wrapped :
    onNext (exec (.line 1029) (hdmaState (cells 0x2000 [9, 8, 7, 6, 5, 4, 3, 2, 1, 7]) 7
      (HdmaChannel.mk true false 0 1020 10 0x10002000 0x10003000))) (fun t => t.mem.wram.read 0x3000) = some 7 ∧
    onNext (exec (.line 1030) (hdmaState (cells 0x2000 [9, 8, 7, 6, 5, 4, 3, 2, 1, 7]) 7
      (HdmaChannel.mk true false 0 1020 10 0x10002000 0x10003000))) (fun t => t.mem.wram.read 0x3000) =
        some 0 := by decide
theorem test_hdma_set_keeps_the_addresses :
    onNext (exec (.hdmaSet 2 true 1 false 10 5) (hdmaState [] 2 (HdmaChannel.mk false true 3 1 1 7 8)))
    (fun t => t.hdma[2]) = some (HdmaChannel.mk true false 1 10 5 7 8) := by decide
theorem test_blt_1_colour_key :
    blitAfter (exec (.bltBlit (BlitFields.mk 0 0 0 true))
      (blitState (cells 0x300 [0x10, 0xFF, 0x30] ++ cells 0x400 [0xAA, 0xAA, 0xAA]) 0x10000300 0x10000400 3 0xFF)) =
    some (BlitRegs.mk 0x10000303 0x10000403 0 0xFF, cells 0x300 [0x10, 0xFF, 0x30] ++ cells 0x400 [0x10, 0xAA, 0x30])
      := by decide
theorem test_blt_2_the_key_has_32_bits :
    blitAfter (exec (.bltBlit (BlitFields.mk 0 0 0 true)) (blitState (cells 0x300 [0xFF]) 0x10000300 0x10000400 1
      0x1FF)) =
    some (BlitRegs.mk 0x10000301 0x10000401 0 0x1FF, [(0x300, 0xFF), (0x400, 0xFF)]) := by decide
theorem test_blt_6_jump_after_the_short_last_pass :
    blitAfter (exec (.bltBlitS (BlitFields.mk 4 2 0 false)) (blitState (cells 0x500 [1, 2, 3]) 0x10000500 0x10000600 3
      0)) =
    some (BlitRegs.mk 0x10000503 0x10000607 0 0, cells 0x500 [1, 2, 3] ++ [(0x600, 1), (0x601, 2), (0x604, 3)]) := by
      decide
theorem test_blt_7_negative_jump :
    blitAfter (exec (.bltBlitS (BlitFields.mk 2 4 0 false)) (blitState (cells 0x500 [1, 2, 3, 4, 5, 6]) 0x10000500
      0x10000600 6 0)) =
    some (BlitRegs.mk 0x10000506 0x10000602 0 0, cells 0x500 [1, 2, 3, 4, 5, 6] ++ cells 0x600 [1, 2, 5, 6]) := by
      decide
theorem test_blt_8_set_writes_back :
    blitAfter (exec (.bltSet (BlitFields.mk 0 0 0 false)) (blitState (cells 0x700 [9, 8]) 0 0x10000700 2 0)) =
    some (BlitRegs.mk 0 0x10000702 0 0, cells 0x700 [9, 8]) := by decide
theorem test_blt_9_set_stride_skip :
    blitAfter (exec (.bltSetS (BlitFields.mk 3 2 0 false)) (blitState [] 0xEE 0x10000800 4 0)) =
    some (BlitRegs.mk 0xEE 0x10000806 0 0, [(0x800, 0xEE), (0x801, 0xEE), (0x803, 0xEE), (0x804, 0xEE)]) := by decide
theorem test_blt_11_set_long :
    blitAfter (exec (.wr32 0x0D000200 0x00100192) (blitState [] 0x1234ABCD 0x10000800 1 0)) =
    some (BlitRegs.mk 0x1234ABCD 0x10000804 0 0, cells 0x800 [0x12, 0x34, 0xAB, 0xCD]) := by decide
theorem test_blt_12_invert_ignores_the_width :
    blitAfter (exec (.bltInv (BlitFields.mk 0 0 2 false)) (blitState (cells 0x900 [0x0F, 0xA5]) 0 0x10000900 2 0)) =
    some (BlitRegs.mk 0 0x10000902 0 0, cells 0x900 [0xF0, 0x5A]) := by decide
theorem test_blt_13_invert_stride_skip :
    blitAfter (exec (.bltInvS (BlitFields.mk 2 1 0 false)) (blitState [] 0 0x10000A00 2 0)) =
    some (BlitRegs.mk 0 0x10000A04 0 0, [(0xA00, 0xFF), (0xA02, 0xFF)]) := by decide
theorem test_blt_14_no_ops :
    blitAfter (exec (.wr32 0x0D000200 0xFFFFFFF0) (blitState [] 1 2 3 4)) = some (BlitRegs.mk 1 2 3 4, []) ∧
    blitAfter (exec (.bltRsvd5 (BlitFields.mk 1 1 1 true) true) (blitState [] 1 2 3 4)) =
      some (BlitRegs.mk 1 2 3 4, []) ∧
    blitAfter (exec (.wr32 0x0D000200 0x0000000F) (blitState [] 1 2 3 4)) = some (BlitRegs.mk 1 2 3 4, []) := by decide
theorem test_blt_17_stride_skip_with_key :
    blitAfter (exec (.bltBlitS (BlitFields.mk 4 2 0 true)) (blitState (cells 0x500 [1, 0xFF, 3, 0xFF] ++
      cells 0x600 [0xAA, 0xAA, 0xAA, 0xAA, 0xAA, 0xAA, 0xAA, 0xAA]) 0x10000500 0x10000600 4 0xFF)) =
    some (BlitRegs.mk 0x10000504 0x10000608 0 0xFF, cells 0x500 [1, 0xFF, 3, 0xFF] ++
      cells 0x600 [1, 0xAA, 0xAA, 0xAA, 3, 0xAA, 0xAA, 0xAA]) := by decide
theorem test_blt_22_a_unit_into_msg_out :
    onNext (exec (.bltBlit (BlitFields.mk 0 0 2 false)) (blitState (cells 0x300 [0, 0x90, 0x3C, 0x7F]) 0x10000300
      0x0D000044 1 0))
    (fun t => t.port.events) = some [.out 0x00903C7F] := by decide
/-- The blitter registers and the four output bytes after an RLE run over the given stream. -/
def rleAfter (stream : List Byte) (len : Long) : Option (BlitRegs × List Byte) :=
  onNext (exec (.bltRle (BlitFields.mk 0 0 0 false) false) (blitState (storeFrom [] 0xB00 stream) 0x10000B00
    0x10000C00 len 0))
    fun t => (t.blit, (List.range 4).map fun i => t.mem.wram.read (0xC00 + i))

theorem test_rle_1_a_run_and_an_empty_run :
    rleAfter [0xC2, 0x05, 0xC0, 0x00] 4 = some (BlitRegs.mk 0x10000B04 0x10000C02 0 0, [5, 5, 0, 0]) := by decide
theorem test_rle_2_literals :
    rleAfter [0x41, 0x42, 0x7F, 0xBF] 4 = some (BlitRegs.mk 0x10000B04 0x10000C04 0 0, [0x41, 0x42, 0x7F, 0xBF]) := by
      decide
theorem test_rle_4_end_stops_the_run :
    rleAfter [0x01, 0xC0, 0xC0, 0x02] 10 = some (BlitRegs.mk 0x10000B03 0x10000C01 7 0, [1, 0, 0, 0]) := by decide
theorem test_rle_7_the_budget_wraps :
    rleAfter [0xC2, 0x05, 0xC0, 0xC0] 1 = some (BlitRegs.mk 0x10000B04 0x10000C02 0xFFFFFFFD 0, [5, 5, 0, 0]) := by
      decide
theorem test_rle_8_output_over_the_stream :
    blitAfter (exec (.bltRle (BlitFields.mk 0 0 0 false) false) (blitState (cells 0xB00 [0xC3, 0x41, 0x42]) 0x10000B00
      0x10000B02 3 0)) =
    some (BlitRegs.mk 0x10000B03 0x10000B06 0 0, cells 0xB00 [0xC3, 0x41, 0x41, 0x41, 0x41, 0x41]) := by decide
theorem test_rle_codes_as_commands :
    blitAfter (exec (.rleLit1 0x3F) (blitState [] 0x10000B00 0x10000C00 1 0)) =
      some (BlitRegs.mk 0x10000B01 0x10000C01 0 0, [(0xC00, 0xBF)]) ∧
    blitAfter (exec .rleEnd (blitState [] 0x10000B00 0x10000C00 2 0)) =
      some (BlitRegs.mk 0x10000B02 0x10000C00 0 0, []) := by decide

/-! ## Steps -/

/-- A waiting frame is accepted and runs (P1 of spec/95_test_vectors.md, its last write). -/
theorem test_step_accepts_a_frame :
    onNext (step ((dmaState (cells 0x100 [0x11, 0x22]) 0x10000100 0x10000200 2).withPort
      (Ports.mk [0x80, 0x0D, 0x00, 0x01, 0x0A, 0x00, 0x00, 0x00, 0x07] 0 [] [] [] 0)))
      (fun t => (t.dma, t.mem.wram, t.port.requests)) =
    some (DmaRegs.mk 0x10000102 0x10000202 0, cells 0x100 [0x11, 0x22] ++ cells 0x200 [0x11, 0x22], []) := by decide
theorem test_step_runs_a_table_word :
    onNext (step (State.reset.withFetchWord 32 0x0D000060)) (fun t => (t.port.result, t.port.requests)) =
      some (0, []) ∧
    onNext (step (State.reset.withFetchWord 16 0xC205)) (fun t => (t.blit.a, t.blit.b, t.blit.len)) =
      some (0x10000002, 2, 0) := by decide

/-! ## Witnesses: for each statement with hypotheses, concrete values that meet them, at the ends of their ranges -/

/-- The configuration of the tests with a gap between boot and cartridge ROM. -/
def gapState : State :=
  State.provision true ((fun c : Cfg => Cfg.mk c.bankLsb c.bootSize 0x30000 c.cartSize c.wramSize c.vramWinMask
    c.vramSize
    c.devBlock c.regBase c.regSize c.off c.width3 c.dev) Cfg.default) [] []

/-- A channel that transfers one word per line on lines 10 to 14. -/
def lineChannel : HdmaChannel := HdmaChannel.mk true false 1 10 5 0x10002000 0x0D000010

theorem witness_DecodeOfEncodeIsTheCommand :
    (cfgWf Cfg.default = true ∧ wellFormed Cfg.default (.bankVram (.write 5) 0xEFFFFFFF) = true ∧
      ∀ n, Instr.bankVram (.write 5) 0xEFFFFFFF ≠ .hdmaLine n) ∧
    (wellFormed Cfg.default (.line 0xFFFF) = true ∧ ∀ n, Instr.line 0xFFFF ≠ .hdmaLine n) ∧
    wellFormed Cfg.default (.hdmaLine 0xFFFF) = true :=
  ⟨⟨by decide, by decide, fun n => by simp⟩, ⟨by decide, fun n => by simp⟩, by decide⟩
theorem witness_DecodedCommandsAreWellFormed :
    decode Cfg.default .rle [0xC0, 0xC0, 0x07] = .ok (.rleEnd, [0x07]) ∧
    decode Cfg.default .bus [0x40, 0, 0, 0xFF, 0xFF, 0, 0, 0, 0] = .ok (.line 0xFFFF, []) := ⟨rfl, rfl⟩
theorem witness_IgnoredBitsAreIgnored : (0x3E : Byte).getLsbD 0 = false ∧ (0xFE : Byte).getLsbD 0 = false := by decide
theorem witness_RegistersAnswerOnlyAtTheirOwnWidthAndOffset : cfgWf Cfg.default = true := by decide
theorem witness_StepRunsTheDecodedCommand :
    ((ram []).withPort (Ports.mk [0x00, 0x0D, 0, 0, 0x40, 0, 0, 0, 0, 0x40] 0 [] [] [] 0)).ready ∧
    decode (ram []).cfg .bus [0x00, 0x0D, 0, 0, 0x40, 0, 0, 0, 0, 0x40] = .ok (.rd8 0x0D000040, [0x40]) :=
  ⟨⟨rfl, rfl⟩, rfl⟩
theorem witness_StepsThatAcceptNothing :
    (((ram []).withStack [.rleOut 1 7 false]).provisioned = true ∧
      ((ram []).withStack [.rleOut 1 7 false]).stack ≠ []) ∧
    State.reset.ready ∧ State.reset.port.requests = [] := ⟨⟨rfl, by simp⟩, ⟨rfl, rfl⟩, rfl⟩
theorem witness_BytesThatAreNoTransactionAreRefused :
    ((ram []).withPort (Ports.mk [0x03] 0 [] [] [] 0)).ready ∧
    ((ram []).withPort (Ports.mk [0x83, 0, 0, 0, 0, 0, 0, 0, 0] 0 [] [] [] 0)).ready ∧
    (0x03 : Byte) ∉ ([0x00, 0x01, 0x02, 0x80, 0x81, 0x82, 0x40] : List Byte) ∧
    (0x83 : Byte) ∉ ([0x00, 0x01, 0x02, 0x80, 0x81, 0x82, 0x40] : List Byte) :=
  ⟨⟨rfl, rfl⟩, ⟨rfl, rfl⟩, by decide, by decide⟩
theorem witness_AnUnprovisionedBlockRefusesEverything :
    (State.provision false Cfg.default [] []).provisioned = false := rfl
theorem witness_EveryCommandOfAProvisionedBlockAnswersANextState :
    State.reset.provisioned = true ∧ (blitState [(0, 1)] 1 2 3 4).provisioned = true := ⟨rfl, rfl⟩
theorem witness_ACommandRunsTheRowItSelects :
    refine (ram []).cfg (.wr8 0x0D00010A 0x107) = some (.windowReg (.write 7) 0x0D00010A) ∧
    refine (ram []).cfg (.windowReg (.write 7) 0x0D00010A) = some (.dmaCtrlW 7) ∧
    refine (ram []).cfg (.dmaCtrlW 7) = some (.dmaCopyB true true) ∧
    refine (ram []).cfg (.line 3) = some (.hdmaLine 3) := by decide
theorem witness_EveryStepKeepsTheInvariant :
    (ram [(0, 1), (0x3FFFFF, 2)]).inv = true ∧
    step (ram [(0, 1), (0x3FFFFF, 2)]) = .next (ram [(0, 1), (0x3FFFFF, 2)]) := ⟨by decide, rfl⟩
theorem witness_ProvisioningEstablishesTheInvariant :
    cfgWf Cfg.default = true ∧ Memory.wf [(0, 0x4E), (0x1FFFF, 1)] = true ∧
    Memory.within Cfg.default.bootSize [(0, 0x4E), (0x1FFFF, 1)] = true ∧ Memory.wf [(0xFFFFFF, 1)] = true ∧
    Memory.within Cfg.default.cartSize [(0xFFFFFF, 1)] = true := by decide
theorem witness_NoCommandChangesConfigurationOrRom :
    ∃ t, exec (.bankWram (.write 7) 0x10000000) (ram []) = .next t ∧ t.mem.wram = [(0, 7)] := ⟨_, rfl, by decide⟩
theorem witness_KeyscanReadsPoll :
    (ram []).provisioned = true ∧
    ((ram []).withPort (Ports.mk [] 0 [] [0x1C, 0] [] 0)).port.pollAnswers = 0x1C :: [0] ∧
    (ram []).port.pollAnswers = [] := ⟨rfl, rfl, rfl⟩
/-- The last words and longs that lie wholly inside the window, and composed ones of which a byte is a register. -/
theorem witness_UnknownRegistersReadZeroAndIgnoreWrites :
    (ram []).provisioned = true ∧
    (∀ i, i < 2 → inWindow (ram []).cfg (0x0D0FFFFE + BitVec.ofNat 32 i) = true ∧
      selectReg (ram []).cfg (0x0D0FFFFE + BitVec.ofNat 32 i) .byte = none) ∧
    (∀ i, i < 4 → inWindow (ram []).cfg (0x0D0FFFFC + BitVec.ofNat 32 i) = true ∧
      selectReg (ram []).cfg (0x0D0FFFFC + BitVec.ofNat 32 i) .byte = none) ∧
    selectReg (ram []).cfg 0x0D00010A .word = none ∧ selectReg (ram []).cfg 0x0D000000 .long = none := by decide
theorem witness_WindowByteAccessesGoToTheRegister :
    (ram []).provisioned = true ∧
    (inWindow (ram []).cfg 0x0D000000 = true ∧ selectReg (ram []).cfg 0x0D000000 .byte = some .screenMode) ∧
    (inWindow (ram []).cfg 0x0D0FFFFF = true ∧ selectReg (ram []).cfg 0x0D0FFFFF .byte = none) ∧
    (inWindow (ram []).cfg 0x0D000010 = true ∧ selectReg (ram []).cfg 0x0D000010 .byte = none) := by decide
theorem witness_RomReadsAndIgnoresWrites :
    offOf 0x0001FFFF < gapState.cfg.bootSize ∧
    (gapState.cfg.bootSize ≤ offOf 0x00020000 ∧ offOf 0x00020000 < gapState.cfg.cartBase) ∧
    (gapState.cfg.bootSize ≤ offOf 0x0002FFFF ∧ offOf 0x0002FFFF < gapState.cfg.cartBase) ∧
    (gapState.cfg.bootSize ≤ offOf 0x00030000 ∧ gapState.cfg.cartBase ≤ offOf 0x00030000) ∧
    gapState.provisioned = true ∧ cfgWf gapState.cfg = true := by decide
theorem witness_WorkingRamReadsMirrorAndWritesDoNot :
    (ram [(0x3FFFFF, 1)]).provisioned = true ∧ (ram [(0x3FFFFF, 1)]).inv = true ∧
    (inWindow (ram []).cfg 0x103FFFFF = false ∧ bankOf (ram []).cfg 0x103FFFFF = 1 ∧
      offOf 0x103FFFFF < (ram []).cfg.wramSize) ∧
    (inWindow (ram []).cfg 0x10400000 = false ∧ bankOf (ram []).cfg 0x10400000 = 1 ∧
      ¬ offOf 0x10400000 < (ram []).cfg.wramSize) := by decide
theorem witness_VideoRamReadsAndWritesInsideItsWindow :
    (ram []).provisioned = true ∧ (ram []).inv = true ∧
    (inWindow (ram []).cfg 0xE005FFFF = false ∧ bankOf (ram []).cfg 0xE005FFFF = 0xE) ∧
    (inWindow (ram []).cfg 0xE0060000 = false ∧ bankOf (ram []).cfg 0xE0060000 = 0xE) ∧
    (inWindow (ram []).cfg 0xE0080000 = false ∧ bankOf (ram []).cfg 0xE0080000 = 0xE) ∧
    offOf 0xE005FFFF &&& (ram []).cfg.vramWinMask < (ram []).cfg.vramSize ∧
    (ram []).cfg.vramSize ≤ offOf 0xE0060000 &&& (ram []).cfg.vramWinMask ∧
    offOf 0xE0080000 &&& (ram []).cfg.vramWinMask < (ram []).cfg.vramSize := by decide
/-- The ends of slot 1, an absent slot, and a slot number above 15. -/
theorem witness_DeviceWindowCallsItsSlot :
    (ram []).provisioned = true ∧
    (offOf 0x20008000 / (ram []).cfg.devBlock = (1 : Fin 16) ∧ offOf 0x2000FFFF / (ram []).cfg.devBlock = (1 : Fin 16) ∧
      (ram []).cfg.dev[(1 : Fin 16)] = true) ∧
    ((ram []).withPort (Ports.mk [] 0 [] [] [0x110] 0)).port.devAnswers = 0x110 :: [] ∧ (ram []).port.devAnswers = [] ∧
    (∀ slot : Fin 16, offOf 0x20007FFF / (ram []).cfg.devBlock = slot → (ram []).cfg.dev[slot] = false) ∧
    (∀ slot : Fin 16, offOf 0x20080000 / (ram []).cfg.devBlock = slot → (ram []).cfg.dev[slot] = false) := by decide
/-- Four bytes across the top of the address space, a word over `KEYSCAN`, a long across the end of the window. -/
theorem witness_ReadsAreComposedMostSignificantByteFirst :
    (ram []).provisioned = true ∧
    plainAddr (ram []).cfg 0xFFFFFFFE ∧ plainAddr (ram []).cfg (0xFFFFFFFE + 1) ∧
    plainAddr (ram []).cfg (0xFFFFFFFE + 2) ∧ plainAddr (ram []).cfg (0xFFFFFFFE + 3) ∧
    selectReg (ram []).cfg 0x0D000040 .word = none ∧ selectReg (ram []).cfg 0x0D0FFFFE .long = none := by
  unfold plainAddr
  decide
theorem witness_ReadsChangeOnlyTheScanCodeAndThePorts :
    (ram []).provisioned = true ∧
    Instr.rd32 0x0D000040 ∈ [Instr.rd8 0x0D000040, .rd16 0x0D000040, .rd32 0x0D000040] := by decide
/-- A command that comes back within one burst leads to the state it answers. -/
theorem leadsTo_command {i : Instr} {f : State → State} {s : State} (he : exec i s = command f s)
    (hp : s.provisioned = true) (hs : (settle s.stack.length Config.burst (f s)).stack = s.stack) :
    leadsTo i s (settle s.stack.length Config.burst (f s)) :=
  ⟨_, 0, he.trans (command_provisioned hp f), rfl, hs⟩
/-- Two bytes to copy, and the state after the byte written to `DMA_CTRL` has copied them. -/
def copyState : State := dmaState (cells 0x100 [0x11, 0x22]) 0x10000100 0x10000200 2
def copiedState : State := settle 0 Config.burst (busWrite .byte 0x0D00010A 7 copyState)
/-- The last long of working RAM, a word of which only the first byte is in video RAM, a masked offset, and the bytes of
composed writes, the one that arms the DMA engine included. -/
theorem witness_WritesStoreOnlyTheirOwnBytes :
    ((ram []).provisioned = true ∧ (ram []).inv = true ∧
      (Width.long, Instr.wr32 0x103FFFFC 5) ∈
        [(Width.byte, Instr.wr8 0x103FFFFC 5), (.word, .wr16 0x103FFFFC 5), (.long, .wr32 0x103FFFFC 5)] ∧
      outsideWindow (ram []).cfg 0x103FFFFC Width.long.step ∧
      storesWram (ram []).cfg (0x103FFFFC + BitVec.ofNat 32 3) 0x3FFFFF ∧
      ∀ k, k < 4 → bankOf (ram []).cfg (0x103FFFFC + BitVec.ofNat 32 k) ≠ 2) ∧
    (outsideWindow (ram []).cfg 0xE005FFFF Width.word.step ∧ storesVram (ram []).cfg 0xE005FFFF 0x5FFFF ∧
      outsideWindow (ram []).cfg 0xE0080010 Width.byte.step ∧ storesVram (ram []).cfg 0xE0080010 0x10) ∧
    (selectReg copyState.cfg 0x0D00010A .word = none ∧ selectReg copyState.cfg 0x0D00010A .long = none ∧
      leadsTo (.wr8 0x0D00010A 7) copyState copiedState ∧ copiedState.mem.wram.read 0x201 = 0x22 ∧
      leadsTo (.wr8 (0x0D00010A + 1) 0) copiedState copiedState ∧
      leadsTo (.wr8 (0x0D00010A + 2) 0) copiedState copiedState ∧
      leadsTo (.wr8 (0x0D00010A + 3) 0) copiedState copiedState) ∧
    (selectReg (ram []).cfg 0x0D000000 .word = none ∧ selectReg (ram []).cfg 0x0D000000 .long = none ∧
      (∀ k, k < 3 → selectReg (ram []).cfg (0x0D000000 + BitVec.ofNat 32 k) .byte ≠ some .dmaCtrl) ∧
      ∃ t, exec (.wr8 0x0D000000 5) (ram []) = .next t ∧ t.display.mode = 5) := by
  have quiet (a : Addr) (h : busWrite .byte a 0 copiedState = copiedState) :
      leadsTo (.wr8 a 0) copiedState copiedState := by
    have e : exec (.wr8 a 0) copiedState = command (busWrite .byte a 0) copiedState := rfl
    refine ⟨copiedState, 0, e.trans ?_, rfl, rfl⟩
    rw [command_quiet (by decide) (by rw [h]), h]
  exact ⟨⟨rfl, by decide, by decide, by unfold outsideWindow; decide, by unfold storesWram; decide, by decide⟩,
    ⟨by unfold outsideWindow; decide, by unfold storesVram; decide, by unfold outsideWindow; decide,
      by unfold storesVram; decide⟩,
    ⟨by decide, by decide, leadsTo_command (f := busWrite .byte 0x0D00010A 7) rfl rfl (by decide), by decide,
      quiet _ (by decide), quiet _ (by decide), quiet _ (by decide)⟩,
    by decide, by decide, by decide, _, rfl, by decide⟩
theorem witness_RamReadsBackWhatWasWritten :
    (ram []).provisioned = true ∧ (ram []).inv = true ∧ ramByte (ram []).cfg 0x103FFFFF ∧
    (∀ i, i < 2 → ramByte (ram []).cfg (0xE005FFFE + BitVec.ofNat 32 i)) ∧
    (∀ i, i < 4 → ramByte (ram []).cfg (0x103FFFFC + BitVec.ofNat 32 i)) := by unfold ramByte; decide
/-- The last two and the last four places of slot 1, with and without answers listed. -/
theorem witness_WideDeviceAccessesAreByteCallsInOrder :
    (ram []).provisioned = true ∧
    (ram []).cfg.dev[(1 : Fin 16)] = true ∧
    (outsideWindow (ram []).cfg 0x2000FFFE 2 ∧ ∀ i, i < 2 → bankOf (ram []).cfg (0x2000FFFE + BitVec.ofNat 32 i) = 2 ∧
      offOf (0x2000FFFE + BitVec.ofNat 32 i) / (ram []).cfg.devBlock = (1 : Fin 16) ∧
      offOf (0x2000FFFE + BitVec.ofNat 32 i) % (ram []).cfg.devBlock = 0x7FFE + i) ∧
    (outsideWindow (ram []).cfg 0x2000FFFC 4 ∧ ∀ i, i < 4 → bankOf (ram []).cfg (0x2000FFFC + BitVec.ofNat 32 i) = 2 ∧
      offOf (0x2000FFFC + BitVec.ofNat 32 i) / (ram []).cfg.devBlock = (1 : Fin 16) ∧
      offOf (0x2000FFFC + BitVec.ofNat 32 i) % (ram []).cfg.devBlock = 0x7FFC + i) ∧
    ((ram []).withPort (Ports.mk [] 0 [] [] [0x110, 2] 0)).port.devAnswers = 0x110 :: 2 :: [] ∧
    ((ram []).withPort (Ports.mk [] 0 [] [] [0x110, 2, 3, 4] 0)).port.devAnswers = 0x110 :: 2 :: 3 :: 4 :: [] ∧
    (ram []).port.devAnswers = [] := by
  unfold outsideWindow
  decide
/-- The first and the last line of a channel, the lines beside them, and both readings of width code 3. -/
theorem witness_AChannelTransfersOneUnitOnItsLines :
    9 < lineChannel.start.toNat ∧ lineChannel.start.toNat + lineChannel.count.toNat ≤ 15 ∧ lineChannel.en = true ∧
    (lineChannel.start.toNat ≤ 10 ∧ 10 < lineChannel.start.toNat + lineChannel.count.toNat) ∧
    (lineChannel.start.toNat ≤ 14 ∧ 14 < lineChannel.start.toNat + lineChannel.count.toNat) ∧
    widthOf (start .long).cfg lineChannel.width = some .word ∧ widthOf (start .reject).cfg 3 = none ∧
    HdmaChannel.zero.en = false := by decide
theorem witness_ALineServesTheChannelsInOrder :
    (hdmaState [] 0 lineChannel).provisioned = true ∧
    hdmaActive (hdmaState [] 0 lineChannel).hdma[(0 : Fin 8)] (12 : BitVec 32).toNat = true ∧
    ∀ (ch : Fin 8) (w : Width), hdmaActive (hdmaState [] 0 lineChannel).hdma[ch] (12 : BitVec 32).toNat = true →
      widthOf (hdmaState [] 0 lineChannel).cfg (hdmaState [] 0 lineChannel).hdma[ch].width = some w →
      ∀ r, reaches (hdmaState [] 0 lineChannel).cfg (hdmaState [] 0 lineChannel).hdma[ch].dst w r →
        r ≠ .dmaCtrl ∧ r ≠ .blitFunc ∧ ∀ c, r ≠ .hdmaCtrl c ∧ r ≠ .hdmaSrc c ∧ r ≠ .hdmaDst c := by
  refine ⟨rfl, by decide, fun ch w ha hw r hr => ?_⟩
  have only : ∀ ch : Fin 8, hdmaActive (hdmaState [] 0 lineChannel).hdma[ch] (12 : BitVec 32).toNat = true → ch =
    0 := by
    decide
  obtain rfl := only ch ha
  have word : widthOf (hdmaState [] 0 lineChannel).cfg (hdmaState [] 0 lineChannel).hdma[(0 : Fin 8)].width =
    some .word := rfl
  obtain rfl : w = .word := Option.some.inj (hw.symm.trans word)
  have native : nativeReg (hdmaState [] 0 lineChannel).cfg (hdmaState [] 0 lineChannel).hdma[(0 : Fin 8)].dst .word =
    some (.scrollX 0) := by decide
  rcases hr with hr | ⟨hr, -⟩
  · obtain rfl : r = .scrollX 0 := Option.some.inj (hr.symm.trans native)
    exact ⟨by simp, by simp, fun c => ⟨by simp, by simp, by simp⟩⟩
  · rw [native] at hr
    cases hr
/-- A channel whose byte arms a copy of two bytes, and the states its event goes through. -/
def armingState : State :=
  (hdmaState (cells 0x100 [0x11, 0x22, 7]) 0 (HdmaChannel.mk true false 0 1 1 0x10000102 0x0D00010A)).withDma
    (DmaRegs.mk 0x10000100 0x10000200 2)
def armingServed : Nat → State
  | 0 => armingState
  | _ + 1 => settle 0 8 (hdmaServe armingState.hdma[(0 : Fin 8)] 1 armingState)
theorem witness_ALineServesTheChannelsInOrder_arming :
    armingState.provisioned = true ∧ Instr.line 1 ∈ [Instr.line 1, .hdmaLine 1] ∧ armingServed 0 = armingState ∧
    (armingServed 8).mem.wram.read 0x201 = 0x22 ∧
    ∀ ch : Fin 8, ∃ k, settle armingState.stack.length k
        (hdmaServe (armingServed ch).hdma[ch] (1 : BitVec 32).toNat (armingServed ch)) = armingServed (ch + 1) ∧
      (armingServed (ch + 1)).stack = armingState.stack := by
  have idle : ∀ ch : Fin 8, ch ≠ 0 → hdmaActive (armingServed 1).hdma[ch] 1 = false := by decide
  have stack : (armingServed 1).stack = [] := by decide
  refine ⟨rfl, by decide, rfl, by decide, fun ch => ?_⟩
  obtain ⟨c, hc⟩ := ch
  cases c with
  | zero => exact ⟨8, rfl, stack⟩
  | succ c =>
    refine ⟨0, ?_, stack⟩
    have h := idle ⟨c + 1, hc⟩ (by simp [Fin.ext_iff])
    show hdmaServe (armingServed 1).hdma[(⟨c + 1, hc⟩ : Fin 8)] 1 (armingServed 1) = armingServed 1
    unfold hdmaServe
    rw [if_neg (by rw [h]; decide)]
/-- The channel of the line window's tests, and the same channel on a vertical scroll register. -/
theorem witness_ALineMovesAWordIntoAScrollRegister :
    (hdmaState [] 0 lineChannel).provisioned = true ∧ (hdmaState [] 0 lineChannel).inv = true ∧
      Instr.line 14 ∈ [Instr.line 14, .hdmaLine 14] ∧
    hdmaActive (hdmaState [] 0 lineChannel).hdma[(0 : Fin 8)] (14 : BitVec 32).toNat = true ∧
    (hdmaState [] 0 lineChannel).hdma[(0 : Fin 8)].width = 1 ∧
    (∀ c : Fin 8, c ≠ 0 → hdmaActive (hdmaState [] 0 lineChannel).hdma[c] (14 : BitVec 32).toNat = false) ∧
    plainAddr (hdmaState [] 0 lineChannel).cfg (0x10002000 + BitVec.ofNat 32 (2 * 4)) ∧
    plainAddr (hdmaState [] 0 lineChannel).cfg (0x10002000 + BitVec.ofNat 32 (2 * 4) + 1) ∧
    (hdmaState [] 0 lineChannel).hdma[(0 : Fin 8)].dst = regAddr (hdmaState [] 0 lineChannel).cfg (.scrollX 0) ∧
    (hdmaState [] 7 (HdmaChannel.mk true false 1 10 5 0x10002000 0x0D00001E)).hdma[(7 : Fin 8)].dst =
      regAddr (hdmaState [] 0 lineChannel).cfg (.scrollY 3) := by
  unfold plainAddr
  decide
theorem witness_DmaNopDoesNothing :
    (ram []).provisioned = true ∧ (0x3E : Byte).getLsbD 0 = false := by decide
theorem witness_WidthCodeThreeFollowsTheParameter :
    (start .long).provisioned = true ∧ (BlitFields.mk 1 1 3 true).width = 3 ∧
    (start .long).cfg.width3 = .long ∧ (start .reject).cfg.width3 = .reject := ⟨rfl, rfl, rfl, rfl⟩
/-- A transfer of words that ends with the last word of working RAM. -/
theorem witness_DmaTransfersEndWithLengthZero :
    (dmaState [] 0 0x103FFFFC 2).provisioned = true ∧
    widthOf (dmaState [] 0 0x103FFFFC 2).cfg 1 = some .word ∧ fastPath false .word (dmaState [] 0 0x103FFFFC 2) =
      false ∧
    Instr.dmaCtrlW 0x17 ∈ [dmaCommand false 1 true true, .dmaCtrlW (dmacWord false 1 true true true)] ∧
    (∀ k, k < (dmaState [] 0 0x103FFFFC 2).dma.len.toNat → ∀ r ∈ dmaDisturbers,
      ¬ reaches (dmaState [] 0 0x103FFFFC 2).cfg (if true then (dmaState [] 0 0x103FFFFC 2).dma.dst +
        BitVec.ofNat 32 (k * Width.word.step) else (dmaState [] 0 0x103FFFFC 2).dma.dst) .word r) := by
  refine ⟨rfl, rfl, rfl, by decide, fun k hk r _ => not_reaches_outside ?_ r⟩
  obtain rfl | rfl : k = 0 ∨ k = 1 := by
    have : k < 2 := hk
    omega
  all_goals (unfold outsideWindow; decide)
theorem witness_DmaTransfersTouchOnlyTheirTargets :
    (dmaState [] 0 0xE005FFFC 1).provisioned = true ∧ (dmaState [] 0 0xE005FFFC 1).inv = true ∧
      widthOf (dmaState [] 0 0xE005FFFC 1).cfg 2 = some .long ∧
    fastPath true .long (dmaState [] 0 0xE005FFFC 1) = false ∧
    ∀ k, k < (dmaState [] 0 0xE005FFFC 1).dma.len.toNat →
      outsideWindow (dmaState [] 0 0xE005FFFC 1).cfg ((dmaState [] 0 0xE005FFFC 1).dma.dst + BitVec.ofNat 32 (k * 4))
        4 := by
  unfold outsideWindow
  decide
/-- Two longs at the end of working RAM from just before them; and bytes over their own source, one address fixed. -/
theorem witness_DmaCopiesItsUnits :
    ((dmaState [] 0x103FFFF0 0x103FFFF8 2).provisioned = true ∧ (dmaState [] 0x103FFFF0 0x103FFFF8 2).inv = true ∧
      widthOf (ram []).cfg 2 = some .long ∧
      (∀ k, k < 2 → inWram (ram []).cfg (0x103FFFF0 + BitVec.ofNat 32 (k * 4)) 4 ∧
        inWram (ram []).cfg (0x103FFFF8 + BitVec.ofNat 32 (k * 4)) 4) ∧
      8 = (dmaState [] 0x103FFFF0 0x103FFFF8 2).dma.len.toNat * Width.long.step ∧
      inWram (ram []).cfg 0x103FFFF0 8 ∧ inWram (ram []).cfg 0x103FFFF8 8 ∧
      (offOf 0x103FFFF0 + 8 ≤ offOf 0x103FFFF8 ∨ offOf 0x103FFFF8 + 8 ≤ offOf 0x103FFFF0)) ∧
    (widthOf (ram []).cfg 0 = some .byte ∧ Instr.dmaCtrlW 0x07 ∈
        [dmaCommand false 0 true true, .dmaCtrlW (dmacWord false 0 true true true)] ∧
      ∀ k, k < 4 → inWram (ram []).cfg (0x10000100 + BitVec.ofNat 32 (k * 1)) 1 ∧
        inWram (ram []).cfg (0x10000101 + BitVec.ofNat 32 (k * 1)) 1) ∧
    ∀ k, k < 4 → inWram (ram []).cfg (if false then 0x10000100 + BitVec.ofNat 32 (k * 1) else 0x10000100) 1 ∧
      inWram (ram []).cfg (if true then 0x103FFFFC + BitVec.ofNat 32 (k * 1) else 0x103FFFFC) 1 := by
  refine ⟨⟨?_, ?_, ?_, ?_, ?_, ?_, ?_, ?_⟩, ⟨?_, ?_, ?_⟩, ?_⟩ <;>
    first | decide | (unfold inWram outsideWindow; decide)
/-- Words to the end of working RAM, and bytes that advance into one address. -/
theorem witness_DmaFillsWithItsValue :
    (dmaState [] 0xABCD 0x103FFFFC 2).provisioned = true ∧ (dmaState [] 0xABCD 0x103FFFFC 2).inv = true ∧
    ((Width.word, Instr.dmaFillW true true) ∈
        [(Width.byte, Instr.dmaFillB true true), (.word, .dmaFillW true true)] ∧
      4 = (if true then (dmaState [] 0xABCD 0x103FFFFC 2).dma.len.toNat * Width.word.step else Width.word.step) ∧
      inWram (ram []).cfg 0x103FFFFC 4) ∧
    ((Width.byte, Instr.dmaFillB true false) ∈
        [(Width.byte, Instr.dmaFillB true false), (.word, .dmaFillW true false)] ∧
      1 = (if false then (dmaState [] 0xFE 0x103FFFFF 3).dma.len.toNat * Width.byte.step else Width.byte.step) ∧
      inWram (ram []).cfg 0x103FFFFF 1) ∧
    (dmaState [] 0xFE 0x103FFFFF 0).dma.len = 0 := by
  unfold inWram outsideWindow
  decide
/-- Longs to the end of video RAM, and three into its last four bytes. -/
theorem witness_ALongFillOutsideWorkingRamWritesWholeLongs :
    (dmaState [] 0xABCD 0xE005FFF8 2).provisioned = true ∧ (dmaState [] 0xABCD 0xE005FFF8 2).inv = true ∧
    (8 = (if true then (dmaState [] 0xABCD 0xE005FFF8 2).dma.len.toNat * 4 else 4) ∧
      inVram (ram []).cfg 0xE005FFF8 8 ∧ bankOf (ram []).cfg 0xE005FFF8 = 0xE) ∧
    4 = (if false then (dmaState [] 0xABCD 0xE005FFFC 3).dma.len.toNat * 4 else 4) ∧
    inVram (ram []).cfg 0xE005FFFC 4 ∧ bankOf (ram []).cfg 0xE005FFFC = 0xE := by
  unfold inVram outsideWindow
  decide
/-- A fill that would run past the end of working RAM. -/
theorem witness_TheFastFillStoresTheLowByte :
    (dmaState [(0, 0x99)] 0x11 0x103FFFFE 4).provisioned = true ∧ (dmaState [(0, 0x99)] 0x11 0x103FFFFE 4).inv = true ∧
    Instr.dmaCtrlW 0x29 ∈ [Instr.dmaFillL false false, .dmaCtrlW (dmacWord true 2 false false true)] ∧
    bankOf (ram []).cfg 0x103FFFFE = 1 ∧ inWindow (ram []).cfg 0x103FFFFE = false := by decide
theorem witness_BlitterNopDoesNothing :
    (ram []).provisioned = true ∧ (0xFFFFFFF0 : Long).extractLsb' 0 4 = 0 := by decide
theorem witness_ReservedFunctionsDoNothing :
    (ram []).provisioned = true ∧
    5 ≤ ((0x5 : Long).extractLsb' 0 4).toNat ∧ 5 ≤ ((0xFFFFFFFF : Long).extractLsb' 0 4).toNat := by decide
/-- Invert over the last bytes of working RAM, from its function word. -/
theorem witness_BlitterOperationsEndWithLengthZero :
    (blitState [] 0 0x103FFFFE 2 0).provisioned = true ∧
    widthOf (ram []).cfg (BlitFields.mk 0 0 2 false).width = some .long ∧
    Width.byte = (if BlitOp.invert = .invert then .byte else .long) ∧
    Instr.blitFuncW 0x83 ∈ [blitCommand .invert false (BlitFields.mk 0 0 2 false),
      .blitFuncW (blitfWord (BlitFields.mk 0 0 2 false) false (blitNumber .invert))] ∧
    ∀ k, k < (blitState [] 0 0x103FFFFE 2 0).blit.len.toNat → ∀ r ∈ blitDisturbers,
      ¬ reaches (ram []).cfg ((blitState [] 0 0x103FFFFE 2 0).blit.b + BitVec.ofNat 32 (k * Width.byte.step)) .byte r
        := by
  refine ⟨rfl, rfl, rfl, by decide, fun k hk r _ => not_reaches_outside ?_ r⟩
  obtain rfl | rfl : k = 0 ∨ k = 1 := by
    have : k < 2 := hk
    omega
  all_goals (unfold outsideWindow; decide)
/-- Three units in two passes, the second one short, with a negative jump. -/
theorem witness_StrideSkipOperationsEndWithLengthZero :
    (blitState [] 0x10000300 0x10000400 3 0).provisioned = true ∧
    widthOf (ram []).cfg (BlitFields.mk 1 2 0 false).width = some .byte ∧
    Width.byte = (if BlitOp.blit = .invert then .byte else .byte) ∧ 2 = (BlitFields.mk 1 2 0 false).srcStride.toNat ∧
    (0xFFFFFFFF : Long) = BitVec.ofInt 32
      ((((BlitFields.mk 1 2 0 false).dstStride.toNat : Int) - (2 : Nat)) * (Width.byte.step : Int)) ∧
    Instr.bltBlitS (BlitFields.mk 1 2 0 false) ∈ [blitCommand .blit true (BlitFields.mk 1 2 0 false),
      .blitFuncW (blitfWord (BlitFields.mk 1 2 0 false) true (blitNumber .blit))] ∧
    ∀ k, k < (blitState [] 0x10000300 0x10000400 3 0).blit.len.toNat → ∀ r ∈ blitDisturbers,
      ¬ reaches (ram []).cfg ((blitState [] 0x10000300 0x10000400 3 0).blit.b + BitVec.ofNat 32 (k * Width.byte.step) +
        BitVec.ofNat 32 (k / 2) * 0xFFFFFFFF) .byte r := by
  refine ⟨rfl, rfl, rfl, rfl, by decide, by decide, fun k hk r _ => not_reaches_outside ?_ r⟩
  obtain rfl | rfl | rfl : k = 0 ∨ k = 1 ∨ k = 2 := by
    have : k < 3 := hk
    omega
  all_goals (unfold outsideWindow; decide)
/-- Three bytes with the key on, the middle one equal to it; and three over their own source. -/
theorem witness_BlitCopiesAllButKeyedUnits :
    (blitState (cells 0x300 [0x10, 0xFF, 0x30]) 0x10000300 0x103FFFFD 3 0xFF).provisioned = true ∧
      (blitState (cells 0x300 [0x10, 0xFF, 0x30]) 0x10000300 0x103FFFFD 3 0xFF).inv = true ∧
    widthOf (ram []).cfg (BlitFields.mk 0 0 0 true).width = some .byte ∧
    (∀ k, k < 3 → inWram (ram []).cfg (0x10000300 + BitVec.ofNat 32 (k * 1)) 1 ∧
      inWram (ram []).cfg (0x103FFFFD + BitVec.ofNat 32 (k * 1)) 1 ∧
      inWram (ram []).cfg (0x10000301 + BitVec.ofNat 32 (k * 1)) 1) ∧
    3 = (blitState [] 0x10000300 0x103FFFFD 3 0xFF).blit.len.toNat * Width.byte.step ∧
    inWram (ram []).cfg 0x10000300 3 ∧ inWram (ram []).cfg 0x103FFFFD 3 ∧
    (offOf 0x10000300 + 3 ≤ offOf 0x103FFFFD ∨ offOf 0x103FFFFD + 3 ≤ offOf 0x10000300) := by
  unfold inWram outsideWindow
  decide
theorem witness_SetWithoutStrideSkipLeavesMemoryAsItIs :
    (blitState (cells 0x700 [9, 8]) 0 0x10000700 1 0).provisioned = true ∧
      (blitState (cells 0x700 [9, 8]) 0 0x10000700 1 0).inv = true ∧
    widthOf (ram []).cfg (BlitFields.mk 0 0 1 false).width = some .word ∧
    2 = (blitState [] 0 0x10000700 1 0).blit.len.toNat * Width.word.step ∧ inWram (ram []).cfg 0x10000700 2 := by
  unfold inWram outsideWindow
  decide
theorem witness_InvertComplementsItsBytes :
    (blitState (cells 0x3FFFFE [0x0F, 0xFF]) 0 0x103FFFFE 2 0).provisioned = true ∧
      (blitState (cells 0x3FFFFE [0x0F, 0xFF]) 0 0x103FFFFE 2 0).inv = true ∧
    widthOf (ram []).cfg (BlitFields.mk 0 0 2 false).width = some .long ∧
    inWram (ram []).cfg 0x103FFFFE (blitState [] 0 0x103FFFFE 2 0).blit.len.toNat := by
  unfold inWram outsideWindow
  decide
/-- With the key, a rectangle of two rows of two bytes in a pitch of four, at the end of working RAM; and rows of four
in a pitch of two, which overlap. -/
theorem witness_StrideSkipWorksOnARectangle :
    (blitState (cells 0x500 [1, 2, 3, 4]) 0x10000500 0x103FFFFA 4 0).provisioned = true ∧
      (blitState (cells 0x500 [1, 2, 3, 4]) 0x10000500 0x103FFFFA 4 0).inv = true ∧
    widthOf (ram []).cfg (BlitFields.mk 4 2 0 true).width = some .byte ∧
    Width.byte = (if BlitOp.blit = .invert then .byte else .byte) ∧
    (2 = (BlitFields.mk 4 2 0 true).srcStride.toNat ∧ 4 = (BlitFields.mk 4 2 0 true).dstStride.toNat ∧
      (∀ k, k < 4 → inWram (ram []).cfg (0x103FFFFA + BitVec.ofNat 32 ((k / 2 * 4 + k % 2) * Width.byte.step)) 1 ∧
        inWram (ram []).cfg (0x10000500 + BitVec.ofNat 32 (k * 1)) 1) ∧
      6 = (3 / 2 * 4 + 3 % 2) * Width.byte.step + Width.byte.step ∧ inWram (ram []).cfg 0x103FFFFA 6 ∧
      inWram (ram []).cfg 0x10000500 (4 * Width.byte.step) ∧
      (offOf 0x10000500 + 4 * Width.byte.step ≤ offOf 0x103FFFFA ∨ offOf 0x103FFFFA + 6 ≤ offOf 0x10000500)) ∧
    4 = (BlitFields.mk 2 4 0 false).srcStride.toNat ∧ 2 = (BlitFields.mk 2 4 0 false).dstStride.toNat ∧
    ∀ k, k < 8 → inWram (ram []).cfg (0x103FFFFA + BitVec.ofNat 32 ((k / 4 * 2 + k % 4) * Width.byte.step)) 1 ∧
      inWram (ram []).cfg (0x10000500 + BitVec.ofNat 32 (k * 1)) 1 := by
  refine ⟨?_, ?_, ?_, ?_, ⟨?_, ?_, ?_, ?_, ?_, ?_, ?_⟩, ?_, ?_, ?_⟩ <;>
    first | decide | (unfold inWram outsideWindow; decide)
theorem witness_AZeroSourceStrideHangs :
    (blitState [] 0x10000500 0x10000600 1 0).ready ∧ widthOf (ram []).cfg (BlitFields.mk 4 0 0 false).width =
      some .byte ∧
    (BlitFields.mk 4 0 0 false).srcStride = 0 ∧ (blitState [] 0x10000500 0x10000600 1 0).blit.len ≠ 0 :=
  ⟨⟨rfl, rfl⟩, rfl, rfl, by decide⟩
/-- RUN of nothing, the longest RUN up to the end of working RAM, the largest literals, and END in and outside a run. -/
theorem witness_StreamCodesConsumeTheirBytesAndWriteTheirOutput :
    (blitState [] 0x10000B00 0x103FFFC1 2 0).provisioned = true ∧ (blitState [] 0x10000B00 0x103FFFC1 2 0).inv =
      true ∧ inWram (ram []).cfg 0x103FFFC1 (codeOutput (.run 63 5)).length ∧
    ¬ ((63 : BitVec 6) = 0 ∧ (5 : Byte) = 0xC0) ∧ ¬ ((0 : BitVec 6) = 0 ∧ (0 : Byte) = 0xC0) ∧
    inWram (ram []).cfg 0x103FFFFF (codeOutput (.lit ((0 : BitVec 1) ++ (0x7F : BitVec 7)))).length ∧
    inWram (ram []).cfg 0x103FFFFF (codeOutput (.lit ((2 : BitVec 2) ++ (0x3F : BitVec 6)))).length ∧
    ((ram []).withStack [.rle (BlitLatch.mk false false .byte 0 0)]).stack =
      .rle (BlitLatch.mk false false .byte 0 0) :: [] ∧
    ∀ l rest, (ram []).stack ≠ .rle l :: rest := by
  refine ⟨rfl, by decide, ?_, by decide, by decide, ?_, ?_, rfl, fun l rest h => ?_⟩
  · unfold inWram outsideWindow
    decide
  · unfold inWram outsideWindow
    decide
  · unfold inWram outsideWindow
    decide
  · cases h
/-- An RLE run with the stream `bs` at 0x10000B00 and a budget of 1. -/
def rleState (bs : List Byte) : State :=
  (blitState (cells 0xB00 bs) 0x10000B00 0x10000C00 1 0).withStack [.rle (BlitLatch.mk false false .byte 0 0)]
theorem witness_AnRleRunFetchesWholeCodes :
    (rleState [0xC2, 5]).stack = .rle (BlitLatch.mk false false .byte 0 0) :: [] ∧ (rleState []).blit.len ≠ 0 ∧
    plainAddr (ram []).cfg 0x10000B00 ∧ plainAddr (ram []).cfg (0x10000B00 + 1) ∧
    decode (ram []).cfg .rle (plainBytes (rleState [0xC2, 5]) 0x10000B00 2) = .ok (.rleRun 2 5, []) ∧
    decode (ram []).cfg .rle (plainBytes (rleState [0xC0, 0xC0]) 0x10000B00 2) = .ok (.rleEnd, []) ∧
    decode (ram []).cfg .rle (plainBytes (rleState [0x7F, 1]) 0x10000B00 2) = .ok (.rleLit0 0x7F, [1]) ∧
    decode (ram []).cfg .rle (plainBytes (rleState [0xBF, 1]) 0x10000B00 2) = .ok (.rleLit1 0x3F, [1]) :=
  ⟨rfl, by decide, by unfold plainAddr; decide, by unfold plainAddr; decide, rfl, rfl, rfl, rfl⟩
/-- RUN 2, 5 and a literal, then END with three bytes of budget left; the budget of 1 that goes past 0, then END; and a
RUN over the literal that follows it, with the budget used up. -/
theorem witness_RleDecompressesItsStream :
    ((blitState (cells 0xB00 [0xC2, 5, 0x41, 0xC0, 0xC0]) 0x10000B00 0x103FFFFD 8 0).provisioned = true ∧
      (blitState (cells 0xB00 [0xC2, 5, 0x41, 0xC0, 0xC0]) 0x10000B00 0x103FFFFD 8 0).inv = true ∧
      (∀ code ∈ [RleCode.run 2 5, .lit 0x41], codeRuns code = true) ∧
      [RleCode.run 2 5, .lit 0x41, .stop] = [RleCode.run 2 5, .lit 0x41] ++ (if true then [.stop] else []) ∧
      (∀ k, k < 3 → (8 : Long) ≠ BitVec.ofNat 32 (([RleCode.run 2 5, .lit 0x41, .stop].take k).flatMap codeBytes).length) ∧
      inWram (ram []).cfg 0x10000B00 5 ∧ inWram (ram []).cfg 0x103FFFFD 3) ∧
    (∀ k, k < 2 → (1 : Long) ≠ BitVec.ofNat 32 (([RleCode.run 2 5, .stop].take k).flatMap codeBytes).length) ∧
    ((∀ k, k < 2 → (3 : Long) ≠ BitVec.ofNat 32 (([RleCode.run 3 0x41, .lit 0x41].take k).flatMap codeBytes).length) ∧
      (3 : Long) = BitVec.ofNat 32 (([RleCode.run 3 0x41, .lit 0x41].take 2).flatMap codeBytes).length) := by
  unfold inWram outsideWindow
  decide
/-- The stream bytes of those codes, each seen in what the codes before it leave. -/
theorem witness_RleDecompressesItsStream_bytes :
    (∀ k, k < 3 → ∀ x, x < (codeBytes ([RleCode.run 2 5, .lit 0x41, .stop].getD k .stop)).length →
      unitStored (([RleCode.run 2 5, .lit 0x41, .stop].take k).flatMap codeOutput).length 0x3FFFFD
        (fun j => (([RleCode.run 2 5, .lit 0x41, .stop].take k).flatMap codeOutput).getD j 0)
        (cells 0xB00 [0xC2, 5, 0x41, 0xC0, 0xC0]).read
        (0xB00 + (([RleCode.run 2 5, .lit 0x41, .stop].take k).flatMap codeBytes).length + x) =
          (codeBytes ([RleCode.run 2 5, .lit 0x41, .stop].getD k .stop)).getD x 0) ∧
    ∀ k, k < 2 → ∀ x, x < (codeBytes ([RleCode.run 3 0x41, .lit 0x41].getD k .stop)).length →
      unitStored (([RleCode.run 3 0x41, .lit 0x41].take k).flatMap codeOutput).length 0xB02
        (fun j => (([RleCode.run 3 0x41, .lit 0x41].take k).flatMap codeOutput).getD j 0)
        (cells 0xB00 [0xC3, 0x41, 0x42]).read
        (0xB00 + (([RleCode.run 3 0x41, .lit 0x41].take k).flatMap codeBytes).length + x) =
          (codeBytes ([RleCode.run 3 0x41, .lit 0x41].getD k .stop)).getD x 0 := by
  unfold unitStored
  decide

/-- The latch of a constant or copying transfer without increments, and of a blitter word without fields. -/
def dmaTo (const : Bool) (w : Width) : DmaLatch := DmaLatch.mk false false const w
def blitTo (skip : Bool) (w : Width) : BlitLatch := BlitLatch.mk skip false w 1 1
/-- A constant byte and a copied long into an arming register; units of all three blitter operations, a byte of a
stream code, and the last channel of a scanline event. -/
theorem witness_NestedCommandsRunOnTopOfTheOuterOne :
    (cfgWf (ram []).cfg = true ∧
      armedBy .dmaCtrl 7 (dmaState [] 7 0x0D00010A 1) = some (.dma (DmaLatch.mk true true false .byte) false) ∧
      armedBy .blitFunc 4 (dmaState [] 7 0x0D000200 1) = some (.rle (BlitLatch.mk false false .byte 0 0)) ∧
      armedBy .blitFunc 0x13 (dmaState [] 7 0x0D000200 1) = some (.blit .invert (BlitLatch.mk true false .byte 0 0) .test)) ∧
    ((dmaState [] 7 0x0D00010A 1).dma.len ≠ 0 ∧ (dmaTo true .byte).width = regWidth .dmaCtrl ∧
      (dmaState [] 7 0x0D00010A 1).dma.dst = regAddr (ram []).cfg .dmaCtrl ∧ truncTo .byte 0x107 = 7 ∧
      (dmaTo false .long).width = regWidth .blitFunc ∧ (0x0D000200 : Addr) = regAddr (ram []).cfg .blitFunc ∧
      busRead .long 0x10000100 (dmaState (cells 0x100 [0, 0, 0, 4]) 0x10000100 0x0D000200 1) =
        (4, dmaState (cells 0x100 [0, 0, 0, 4]) 0x10000100 0x0D000200 1)) ∧
    (unitWidth .blit (blitTo false .byte) = regWidth .dmaCtrl ∧ unitWidth .set (blitTo true .long) = regWidth .blitFunc ∧
      unitWidth .invert (blitTo true .long) = regWidth .dmaCtrl ∧ 0 < (blitTo true .long).srcStride.toNat ∧
      armedBy .dmaCtrl 0xFF (dmaState [] 0 0x10000000 1) = none ∧
      armedBy .dmaCtrl 0xFF (blitState [] 0 0x0D00010A 1 0) = some (.dma (DmaLatch.mk true true true .long) false) ∧
      busRead .byte 0x10000100 (blitState (cells 0x100 [7]) 0x10000100 0x0D00010A 1 0) =
        (7, blitState (cells 0x100 [7]) 0x10000100 0x0D00010A 1 0)) ∧
    ((7 : Byte).setWidth 32 = (7 : Long) ∧ (blitState [] 0 0x0D00010A 1 0).blit.b = regAddr (ram []).cfg .dmaCtrl) ∧
    hdmaActive (hdmaState (cells 0x100 [7]) 7 (HdmaChannel.mk true false 0 1 1 0x10000100 0x0D00010A)).hdma[(7 : Fin 8)]
      1 = true ∧
    busRead .byte 0x10000100 (hdmaState (cells 0x100 [7]) 7 (HdmaChannel.mk true false 0 1 1 0x10000100 0x0D00010A)) =
      (7, hdmaState (cells 0x100 [7]) 7 (HdmaChannel.mk true false 0 1 1 0x10000100 0x0D00010A)) := by
  refine ⟨?_, ?_, ?_, ?_, ?_, ?_⟩ <;> decide
/-! The statements whose only hypothesis is that the block is provisioned. -/

theorem witness_DisplayRegistersReadTheirFields : (ram [(0, 1)]).provisioned = true := rfl
theorem witness_DisplayRegisterWritesSetTheirFields : (ram [(0, 1)]).provisioned = true := rfl
theorem witness_ScalarRegistersReadAndWrite : (ram [(0, 1)]).provisioned = true := rfl
theorem witness_OperandRegistersReadAndWrite : (ram [(0, 1)]).provisioned = true := rfl
theorem witness_WriteOnlyRegistersReadZero : (ram [(0, 1)]).provisioned = true := rfl
theorem witness_HdmaAddressRegistersSetTheirChannel : (ram [(0, 1)]).provisioned = true := rfl
theorem witness_HdmaControlWritesSetTheirChannel : (ram [(0, 1)]).provisioned = true := rfl
theorem witness_UnmappedBanksReadZeroAndIgnoreWrites : (ram [(0, 1)]).provisioned = true := rfl

end Sys2Proof.Tests
end

section
/-! The byte rows of the address decoder (20_memory.md sections 3 and 6): what a byte access in the register window, in
working RAM and in video RAM answers, stores and leaves unchanged. -/

namespace Sys2Proof.Machine

/-! ## Byte accesses as commands -/

/-- Commands whose own effects on a state agree give the same outcome there. -/
theorem command_congr {f g : State → State} {s : State} (h : f s = g s) : command f s = command g s := by
  simp only [command, h]

/-- A command whose effect leaves the activation stack as it was triggers nothing further (R90). -/
theorem command_of_effect {f : State → State} {s t : State} (hp : s.provisioned = true) (hf : f s = t)
    (hs : t.stack = s.stack) : command f s = .next t := by
  subst hf
  exact command_quiet hp (congrArg List.length hs).le

/-- A region read answers the byte and changes at most what a read may change (R73, R96). -/
theorem command_regionRead {s : State} (hp : s.provisioned = true) (g : Region) (a : Addr) :
    command (regionCommand g .read a) s =
      .next (answer ((regionRead g (offOf a) s).1.setWidth 32) (regionRead g (offOf a) s).2) :=
  command_read (f := fun t => ((regionRead g (offOf a) t).1.setWidth 32, (regionRead g (offOf a) t).2)) hp
    (regionRead_readFrame g (offOf a) s)

/-- A region write arms no engine, so it is its own effect (R73). -/
theorem command_regionWrite {s : State} (hp : s.provisioned = true) (g : Region) (a : Addr) (v : Byte) :
    command (regionCommand g (.write v) a) s = .next (regionWrite g (offOf a) v s) :=
  command_of_effect hp rfl (regionWrite_storeFrame g (offOf a) v s).stack

/-! ## Bytes of the register window (R72, R80) -/

/-- A value that fits the width is not cut (R12). -/
theorem truncTo_setWidth {n : Nat} (w : Width) (x : BitVec n) (h : n ≤ 8 * w.step) :
    truncTo w (x.setWidth 32) = x.setWidth 32 := by
  have hx : x.toNat < 2 ^ (8 * w.step) := x.isLt.trans_le (Nat.pow_le_pow_right (by omega) h)
  apply BitVec.eq_of_toNat_eq
  cases w
  case long => rfl
  all_goals
    simp only [truncTo, BitVec.toNat_setWidth, Width.step] at hx ⊢
    omega

/-- A register's answer fits the register's width, so cutting it to that width loses nothing (R200 to R244). -/
theorem truncTo_regRead (r : Reg) (s : State) : truncTo (regWidth r) (regRead r s).1 = (regRead r s).1 := by
  cases r
  case screenMode | tilemapSet | tilemapBlend | keyscan | joypad0 | joypad1 | intFlags =>
    exact truncTo_setWidth .byte _ (Nat.le_refl 8)
  case scrollX | scrollY => exact truncTo_setWidth .word _ (by decide : 9 ≤ 16)
  all_goals rfl

/-- Inside the window a selection is the lookup of the window offset (R72, R177). -/
theorem selectReg_inside {c : Cfg} {a : Addr} (h : inWindow c a = true) (w : Width) :
    selectReg c a w = regAt c (roffOf c a) w := if_pos h

section
variable {s : State} {a : Addr} (hw : inWindow s.cfg a = true)
include hw

theorem windowCommand_read_of_reg {r : Reg} (hr : selectReg s.cfg a .byte = some r) :
    windowCommand .read a s = readCommand (regRead r) s := by
  have hcut : ((regRead r s).1.setWidth 8).setWidth 32 = (regRead r s).1 := by
    have h := truncTo_regRead r s
    rwa [selectReg_width hr] at h
  rw [selectReg_inside hw] at hr
  simp only [windowCommand, readCommand, windowRead, hr, hcut]

theorem windowCommand_write_of_reg {r : Reg} (hr : selectReg s.cfg a .byte = some r) (v : Byte) :
    windowCommand (.write v) a s = regWrite r (v.setWidth 32) s := by
  rw [selectReg_inside hw] at hr
  simp only [windowCommand, windowWrite, hr]

theorem windowCommand_read_of_none (hr : selectReg s.cfg a .byte = none) :
    windowCommand .read a s = answer 0 s := by
  rw [selectReg_inside hw] at hr
  simp [windowCommand, readCommand, windowRead, hr]

theorem windowCommand_write_of_none (hr : selectReg s.cfg a .byte = none) (v : Byte) :
    windowCommand (.write v) a s = s := by
  rw [selectReg_inside hw] at hr
  simp only [windowCommand, windowWrite, hr]

end

/-- Settles O25: both rows run the same command of the selected register; a register's answer is not cut, since it fits
one byte, and without a register neither direction arms anything. -/
theorem windowByteAccessesGoToTheRegister : Obligations.WindowByteAccessesGoToTheRegister := by
  intro s a v hp hw
  refine ⟨fun r hr => ⟨?_, ?_⟩, fun hr => ⟨?_, ?_⟩⟩
  · rw [exec_regReadRow]
    exact command_congr (windowCommand_read_of_reg hw hr)
  · rw [exec_regWriteRow, selectReg_width hr, truncTo_setWidth .byte v (Nat.le_refl 8)]
    exact command_congr (windowCommand_write_of_reg hw hr v)
  · exact command_of_effect hp (windowCommand_read_of_none hw hr) rfl
  · exact command_of_effect hp (windowCommand_write_of_none hw hr v) rfl

/-! ## Bytes of working RAM (R75, R76) -/

/-- A working-RAM write changes the working RAM and nothing else. -/
theorem wramWrite_frame (o : Nat) (v : Byte) (s : State) :
    wramWrite o v s = s.withMem { s.mem with wram := (wramWrite o v s).mem.wram } := by
  unfold wramWrite
  split <;> rfl

/-- Below the size one byte is replaced, above it none: a write is not mirrored (R76). -/
theorem wramWrite_read {s : State} (wf : s.mem.wram.wf = true) (o : Nat) (v : Byte) (j : Nat) :
    (wramWrite o v s).mem.wram.read j = if o < s.cfg.wramSize ∧ j = o then v else s.mem.wram.read j := by
  unfold wramWrite
  split
  next ho => simp only [State.withMem_mem, Memory.read_write wf, ho, true_and, eq_comm]
  next ho => simp only [ho, false_and, if_false]

/-- Settles O27: the row reads and writes through `wramRead` and `wramWrite`; the invariant's canonical form of the RAM
gives the byte at every index after the write. -/
theorem workingRamReadsMirrorAndWritesDoNot : Obligations.WorkingRamReadsMirrorAndWritesDoNot := by
  intro s a v hp hinv _ _
  obtain ⟨-, ok⟩ := Bool.and_eq_true_iff.mp hinv
  exact ⟨command_regionRead hp .wram a, wramWrite (offOf a) v s, command_regionWrite hp .wram a v,
    wramWrite_frame (offOf a) v s, wramWrite_read (memOk.wram_wf ok) (offOf a) v⟩

/-! ## Bytes of video RAM (R79) -/

theorem vramRead_below {o : Nat} {s : State} (h : vramIndex o s < s.cfg.vramSize) :
    vramRead o s = s.mem.vram.read (vramIndex o s) := if_pos h

theorem vramRead_beyond {o : Nat} {s : State} (h : s.cfg.vramSize ≤ vramIndex o s) : vramRead o s = 0 :=
  if_neg (Nat.not_lt_of_le h)

/-- A video-RAM write changes the video RAM and nothing else. -/
theorem vramWrite_frame (o : Nat) (v : Byte) (s : State) :
    vramWrite o v s = s.withMem { s.mem with vram := (vramWrite o v s).mem.vram } := by
  unfold vramWrite
  split <;> rfl

/-- Where the masked offset is below the size the byte there is replaced, elsewhere none (R79). -/
theorem vramWrite_read {s : State} (wf : s.mem.vram.wf = true) (o : Nat) (v : Byte) (j : Nat) :
    (vramWrite o v s).mem.vram.read j =
      if vramIndex o s < s.cfg.vramSize ∧ j = vramIndex o s then v else s.mem.vram.read j := by
  unfold vramWrite
  split
  next ho => simp only [State.withMem_mem, Memory.read_write wf, ho, true_and, eq_comm]
  next ho => simp only [ho, false_and, if_false]

/-- A read of the video-RAM row answers the byte that the bank offset selects, and changes nothing else. -/
theorem exec_bankVram_read {s : State} (hp : s.provisioned = true) (a : Addr) :
    exec (.bankVram .read a) s = .next (answer ((vramRead (offOf a) s).setWidth 32) s) :=
  command_regionRead hp .vram a

/-- Settles O28: as for working RAM, with the masked offset compared with the size in both directions of access. -/
theorem videoRamReadsAndWritesInsideItsWindow : Obligations.VideoRamReadsAndWritesInsideItsWindow := by
  intro s a v hp hinv _ _
  obtain ⟨-, ok⟩ := Bool.and_eq_true_iff.mp hinv
  refine ⟨fun h => ?below, fun h => ?beyond, vramWrite (offOf a) v s, command_regionWrite hp .vram a v,
    vramWrite_frame (offOf a) v s, vramWrite_read (memOk.vram_wf ok) (offOf a) v⟩
  case below =>
    rw [exec_bankVram_read hp, vramRead_below h]
    rfl
  case beyond =>
    rw [exec_bankVram_read hp, vramRead_beyond h]
    rfl

end Sys2Proof.Machine
end

section
/-! DMA control words (42_dma.md): what a write of `DMA_CTRL` does when it arms no transfer. -/

namespace Sys2Proof.Machine

/-- Without `START` a control word arms nothing, whatever its other bits hold (R261). -/
theorem dmaArm_of_not_start {v : Byte} (h : dmacStart v = false) (s : State) : dmaArm v s = s :=
  if_neg (Bool.eq_false_iff.mp h)

/-- A write of `DMA_CTRL` arms with the byte written: widening it to the register file's value loses nothing. -/
theorem regWrite_dmaCtrl (v : Byte) (s : State) : regWrite .dmaCtrl (v.setWidth 32) s = dmaArm v s :=
  congrArg (dmaArm · s) ((BitVec.setWidth_setWidth_of_le v (by decide)).trans (BitVec.setWidth_eq v))

/-- Settles O39: the no-op is the command without an effect, and the write arms nothing, so neither has anything to
run. -/
theorem dmaNopDoesNothing : Obligations.DmaNopDoesNothing := by
  intro s hp
  refine ⟨command_of_effect hp rfl rfl, fun v hv => ?write⟩
  case write =>
    have noEffect : regWrite .dmaCtrl (v.setWidth 32) s = s :=
      (regWrite_dmaCtrl v s).trans (dmaArm_of_not_start hv s)
    exact command_of_effect hp noEffect rfl

end Sys2Proof.Machine
end

section
/-! Blitter function words (44_blitter.md section 1): what a write of `BLIT_FUNC` does when it arms no operation. -/

namespace Sys2Proof.Machine

/-- Only the codes 1 to 4 name an operation; a word with any other `FUNC` arms nothing, whatever its other bits hold
(R310 to R312). -/
theorem blitArm_of_no_operation {v : Long} (h : blitfFunc v ∉ ([1, 2, 3, 4] : List (BitVec 4))) (s : State) :
    blitArm v s = s := by
  simp only [List.mem_cons, List.not_mem_nil, or_false, not_or] at h
  obtain ⟨notBlit, notSet, notInvert, notRle⟩ := h
  rw [blitArm, if_neg notBlit, if_neg notSet, if_neg notInvert, if_neg notRle]

/-- Settles O47: the no-op is the command without an effect, and the write's `FUNC` names no operation to arm, so
neither has anything to run. -/
theorem blitterNopDoesNothing : Obligations.BlitterNopDoesNothing := by
  intro s f skip hp
  refine ⟨command_of_effect hp rfl rfl, fun v hv => ?write⟩
  case write =>
    have func : blitfFunc v = 0 := hv
    have noEffect : regWrite .blitFunc v s = s := blitArm_of_no_operation (by rw [func]; decide) s
    exact command_of_effect hp noEffect rfl

end Sys2Proof.Machine
end

section
/-! Every command as one operation and the run of what it triggers (60_exceptions.md sections 1 and 5, 10_state.md
section 9), and the step: what they answer, what they keep, and what provisioning establishes. -/

namespace Sys2Proof.Machine

/-! ## A command's own operation -/

/-- An operation that keeps what every operation keeps, but for the answer that a read leaves on the CPU port (R60). -/
def KeepsButAnswer (f : State → State) : Prop := ∀ s, ∃ v, Keeps (answer v s) (f s)

/-- What is kept does not depend on the last answer. -/
theorem Keeps.answer {s t : State} (h : Keeps s t) (v : Long) : Keeps (answer v s) (answer v t) :=
  ⟨h.cfg, h.provisioned, h.boot, h.cart, h.requests, rfl, h.mem⟩

theorem KeepsButAnswer.of_keeps {f : State → State} (h : ∀ s, Keeps s (f s)) : KeepsButAnswer f :=
  fun s => ⟨s.port.result, h s⟩

theorem KeepsButAnswer.read {f : State → Long × State} (h : ∀ s, readFrame s (f s).2) :
    KeepsButAnswer (readCommand f) :=
  fun s => ⟨(f s).1, (h s).keeps.answer (f s).1⟩

theorem regionCommand_keepsButAnswer (g : Region) (acc : ByteAccess) (a : Addr) :
    KeepsButAnswer (regionCommand g acc a) := by
  cases acc with
  | read => exact .read fun s => regionRead_readFrame g (offOf a) s
  | write v => exact .of_keeps (regionWrite_keeps g (offOf a) v)

theorem windowCommand_keepsButAnswer (acc : ByteAccess) (a : Addr) : KeepsButAnswer (windowCommand acc a) := by
  cases acc with
  | read => exact .read fun s => windowRead_readFrame a s
  | write v => exact .of_keeps (windowWrite_keeps a v)

theorem unknownCommand_keepsButAnswer (acc : Access) (a : Addr) : KeepsButAnswer (unknownCommand acc a) := by
  cases acc with
  | rd8 => exact fun s => ⟨0, Keeps.rfl' _⟩
  | rd16 | rd32 => exact .read (readBytes_readFrame _ a 0)
  | wr8 v => exact .of_keeps Keeps.rfl'
  | wr16 v | wr32 v => exact .of_keeps (writeBytes_keeps a _)

/-- What arming the blitter may do: nothing, or one activation more on the stack (R310). -/
theorem blitStart_keeps (op : BlitOp) (f : BlitFields) (skip : Bool) (s : State) : Keeps s (blitStart op f skip s) := by
  unfold blitStart
  split
  · exact Keeps.rfl' s
  · exact push_keeps _ s

theorem rleStart_keeps (f : BlitFields) (skip : Bool) (s : State) : Keeps s (rleStart f skip s) := by
  unfold rleStart
  split
  · exact Keeps.rfl' s
  · exact push_keeps _ s

/-- Every command is one operation, and the run of what it triggers (R90). -/
theorem exec_operation (i : Instr) : ∃ f, KeepsButAnswer f ∧ ∀ s, exec i s = command f s := by
  cases i
  case rd8 | rd16 | rd32 => exact ⟨_, .read (busRead_readFrame _ _), fun _ => rfl⟩
  case wr8 | wr16 | wr32 => exact ⟨_, .of_keeps (busWrite_keeps _ _ _), fun _ => rfl⟩
  case line | hdmaLine => exact ⟨_, .of_keeps (push_keeps _), fun _ => rfl⟩
  case windowReg acc a => exact ⟨_, windowCommand_keepsButAnswer acc a, fun _ => rfl⟩
  case bankRom acc a | bankWram acc a | bankDev acc a | bankVram acc a =>
    exact ⟨_, regionCommand_keepsButAnswer _ acc a, fun _ => rfl⟩
  case bankNone3 acc a | bankNone4 acc a | bankNone5 acc a | bankNone6 acc a | bankNone7 acc a | bankNone8 acc a |
      bankNone9 acc a | bankNoneA acc a | bankNoneB acc a | bankNoneC acc a | bankNoneD acc a | bankNoneF acc a =>
    exact ⟨_, regionCommand_keepsButAnswer .unmapped acc a, fun _ => rfl⟩
  case regUnknown acc a => exact ⟨_, unknownCommand_keepsButAnswer acc a, fun _ => rfl⟩
  case dmaNop | bltNop | bltRsvd5 | bltRsvd6to7 | bltRsvd8to15 => exact ⟨id, .of_keeps Keeps.rfl', fun _ => rfl⟩
  case dmaCopyB | dmaCopyW | dmaCopyL | dmaFillB | dmaFillW | dmaFillL | dmaW3 =>
    exact ⟨_, .of_keeps (dmaStart_keeps _ _ _ _), fun _ => rfl⟩
  case hdmaSet => exact ⟨_, .of_keeps fun s => withHdma_keeps s _, fun _ => rfl⟩
  case bltBlit | bltBlitS | bltSet | bltSetS | bltInv | bltInvS =>
    exact ⟨_, .of_keeps (blitStart_keeps _ _ _), fun _ => rfl⟩
  case bltRle f skip => exact ⟨_, .of_keeps (rleStart_keeps f skip), fun _ => rfl⟩
  case rleEnd | rleRun | rleLit0 | rleLit1 => exact ⟨_, .of_keeps (rleEffect_keeps _), fun _ => rfl⟩
  -- what is left are the register rows: a read or a write of one register
  all_goals first
    | exact ⟨_, .read (regRead_readFrame _), fun _ => rfl⟩
    | exact ⟨_, .of_keeps (regWrite_keeps _ _), fun _ => rfl⟩

/-- A command of a provisioned block answers the state its run comes to. -/
theorem exec_provisioned (i : Instr) {s : State} (h : s.provisioned = true) : ∃ t, exec i s = .next t := by
  obtain ⟨f, -, hf⟩ := exec_operation i
  exact ⟨_, (hf s).trans (command_provisioned h f)⟩

theorem exec_unprovisioned (i : Instr) {s : State} (h : s.provisioned = false) :
    exec i s = .refused .notProvisioned := by
  obtain ⟨f, -, hf⟩ := exec_operation i
  exact (hf s).trans (command_refused h f)

/-- A command keeps what every operation keeps, but for the answer of a read. -/
theorem exec_keeps {i : Instr} {s t : State} (h : exec i s = .next t) : ∃ v, Keeps (answer v s) t := by
  obtain ⟨f, keeps, hf⟩ := exec_operation i
  obtain ⟨-, rfl⟩ := command_cases ((hf s).symm.trans h)
  obtain ⟨v, own⟩ := keeps s
  exact ⟨v, own.trans (settle_keeps _ _ _)⟩

/-- Settles O10: a command of a provisioned block is its operation and the run after it, both total. -/
theorem everyCommandOfAProvisionedBlockAnswersANextState :
    Obligations.EveryCommandOfAProvisionedBlockAnswersANextState :=
  fun i _ h => exec_provisioned i h

/-- Settles O14: neither the operation of a command nor a micro-step of its run changes any of these. -/
theorem noCommandChangesConfigurationOrRom : Obligations.NoCommandChangesConfigurationOrRom := by
  intro i s t h
  obtain ⟨v, keeps⟩ := exec_keeps h
  exact ⟨keeps.cfg, keeps.provisioned, keeps.boot, keeps.cart, keeps.requests⟩

/-! ## The step -/

theorem step_unprovisioned {s : State} (h : s.provisioned = false) : step s = .refused .notProvisioned := by
  simp [step, h]

theorem step_running {s : State} (h : s.provisioned = true) (hs : s.stack ≠ []) :
    step s = .next (settle 0 Config.burst s) := by
  obtain ⟨x, rest, hk⟩ := List.exists_cons_of_ne_nil hs
  simp [step, h, hk]

theorem step_idle {s : State} (h : s.ready) (hq : s.port.requests = []) : step s = .next s := by
  simp [step, h.1, h.2, hq]

theorem step_accepts {s : State} (h : s.ready) {i : Instr} {rest : List Byte}
    (hd : decode s.cfg .bus s.port.requests = .ok (i, rest)) :
    step s = exec i (s.withPort { s.port with requests := rest }) := by
  cases hq : s.port.requests with
  | nil => rw [hq] at hd; cases hd
  | cons b bs => rw [hq] at hd; simp [step, h.1, h.2, hq, hd]

theorem step_refuses {s : State} (h : s.ready) (hq : s.port.requests ≠ []) {e : Reject}
    (hd : decode s.cfg .bus s.port.requests = .error e) : step s = .refused .notATransaction := by
  obtain ⟨b, bs, hb⟩ := List.exists_cons_of_ne_nil hq
  rw [hb] at hd
  simp [step, h.1, h.2, hb, hd]

/-- Everything a step that answers can do: a run goes on, nothing is asked, or the next frame is run (R380). -/
theorem step_cases {s t : State} (h : step s = .next t) :
    t = settle 0 Config.burst s ∨ t = s ∨
      ∃ i rest, exec i (s.withPort { s.port with requests := rest }) = .next t := by
  cases hp : s.provisioned with
  | false => rw [step_unprovisioned hp] at h; cases h
  | true =>
    by_cases hs : s.stack = []
    · by_cases hq : s.port.requests = []
      · rw [step_idle ⟨hp, hs⟩ hq] at h
        exact .inr (.inl (Host.Outcome.next.inj h).symm)
      · cases hd : decode s.cfg .bus s.port.requests with
        | error e => rw [step_refuses ⟨hp, hs⟩ hq hd] at h; cases h
        | ok x => exact .inr (.inr ⟨x.1, x.2, (step_accepts ⟨hp, hs⟩ hd).symm.trans h⟩)
    · rw [step_running hp hs] at h
      exact .inl (Host.Outcome.next.inj h).symm

/-! ## The invariant -/

theorem inv_iff {s : State} : s.inv = true ↔ cfgWf s.cfg = true ∧ memOk s.cfg s.mem = true := Bool.and_eq_true_iff

theorem Keeps.inv {s t : State} (h : Keeps s t) (hs : s.inv = true) : t.inv = true := by
  obtain ⟨legal, ok⟩ := inv_iff.mp hs
  exact inv_iff.mpr ⟨by rw [h.cfg]; exact legal, h.mem ok⟩

theorem exec_inv {i : Instr} {s t : State} (h : exec i s = .next t) (hs : s.inv = true) : t.inv = true := by
  obtain ⟨v, keeps⟩ := exec_keeps h
  exact keeps.inv (s := answer v s) hs

/-- Settles O12: a step is a run, nothing, or a command on the state with a frame taken off the queue; each of them
keeps the configuration and the canonical form of the memories, and the queue is no part of the invariant. -/
theorem everyStepKeepsTheInvariant : Obligations.EveryStepKeepsTheInvariant := by
  intro s t hs h
  obtain rfl | rfl | ⟨i, rest, h⟩ := step_cases h
  · exact (settle_keeps 0 Config.burst s).inv hs
  · exact hs
  · exact exec_inv h hs

/-- Settles O13: both ROMs are the images given, both RAMs are empty, and an empty region is canonical. -/
theorem provisioningEstablishesTheInvariant : Obligations.ProvisioningEstablishesTheInvariant := by
  have provision (ok : Bool) (c : Cfg) (boot cart : Memory) (hc : cfgWf c = true) (h1 : boot.wf = true)
      (h2 : boot.within c.bootSize = true) (h3 : cart.wf = true) (h4 : cart.within c.cartSize = true) :
      (State.provision ok c boot cart).inv = true :=
    inv_iff.mpr ⟨hc, by simp only [State.provision, memOk, h1, h2, h3, h4]; rfl⟩
  exact ⟨provision true Cfg.default [] [] (by decide) rfl rfl rfl rfl, provision⟩

/-! ## What the step accepts and refuses -/

/-- Settles O6. -/
theorem stepRunsTheDecodedCommand : Obligations.StepRunsTheDecodedCommand :=
  fun _ _ _ ready hd => step_accepts ready hd

/-- Settles O7: the run that a step continues keeps the queue, as every micro-step does. -/
theorem stepsThatAcceptNothing : Obligations.StepsThatAcceptNothing :=
  ⟨fun s hp hs => ⟨step_running hp hs, (settle_keeps 0 Config.burst s).requests⟩, fun _ ready hq => step_idle ready hq⟩

theorem decodeFrame_reservedOp {op : Byte} (h : op ∉ ([0x00, 0x01, 0x02, 0x80, 0x81, 0x82, 0x40] : List Byte))
    (a d : Long) : decodeFrame op a d = .error .reservedOp := by
  unfold decodeFrame
  split
  case h_8 => rfl
  all_goals exact absurd (by decide) h

/-- No frame with a reserved `op` decodes, whatever its length. -/
theorem decode_bus_reservedOp {op : Byte} (h : op ∉ ([0x00, 0x01, 0x02, 0x80, 0x81, 0x82, 0x40] : List Byte))
    (c : Cfg) (rest : List Byte) : ∃ e, decode c .bus (op :: rest) = .error e := by
  simp only [decode]
  split
  next heq =>
    cases heq
    rw [decodeFrame_reservedOp h]
    exact ⟨_, rfl⟩
  next => exact ⟨_, rfl⟩

/-- Settles O8. -/
theorem bytesThatAreNoTransactionAreRefused : Obligations.BytesThatAreNoTransactionAreRefused := by
  intro s op rest ready hq h
  obtain ⟨e, he⟩ := decode_bus_reservedOp h s.cfg rest
  exact step_refuses ready (by rw [hq]; simp) (hq ▸ he)

/-- Settles O9. -/
theorem anUnprovisionedBlockRefusesEverything : Obligations.AnUnprovisionedBlockRefusesEverything :=
  ⟨fun _ h => ⟨step_unprovisioned h, fun i => exec_unprovisioned i h⟩, rfl, Nat.succ_ne_zero _, fun _ _ _ => rfl⟩

/-- Settles O15. -/
theorem resetValues : Obligations.ResetValues := by
  intro c boot cart
  refine ⟨_, rfl, rfl, rfl, fun _ => rfl, fun _ => rfl, rfl, rfl, rfl, rfl, rfl, rfl, rfl, rfl, fun i => ?_, rfl, rfl,
    rfl, rfl, rfl, rfl, rfl, fun ch => ?_, rfl, rfl, rfl, fun _ => ⟨rfl, rfl⟩⟩
  · simp [State.provision]
  · simp [State.provision, HdmaChannel.zero]

end Sys2Proof.Machine
end

section
/-! Decoding and encoding (30_encoding.md): for each format what its bytes decode to, that every row decodes from its
own word, and that what the decoder accepts is well formed. -/

namespace Sys2Proof

/-! ## The bytes of a word -/

/-- The four bytes of a long, most significant first, gathered again (R85). -/
theorem longOfBytes_four (v : Long) :
    longOfBytes [v.extractLsb' 24 8, v.extractLsb' 16 8, v.extractLsb' 8 8, v.extractLsb' 0 8] = v :=
  longOfBytes_bytesOf v

/-! ## What the bytes of each format decode to -/

theorem decode_frame (c : Cfg) (op : Byte) (a d : Long) (rest : List Byte) {i : Instr}
    (h : decodeFrame op a d = .ok i) :
    decode c .bus (encodingBytes (.frame op a d) ++ rest) = .ok (i, rest) := by
  simp only [encodingBytes, bytesOf, decode, List.cons_append, List.nil_append, longOfBytes_four, h]

theorem decode_address (c : Cfg) (acc : ByteAccess) (a : Addr) (rest : List Byte) :
    decode c (.addr acc) (encodingBytes (.address acc a) ++ rest) = .ok (addrRow c acc a, rest) := by
  simp only [encodingBytes, bytesOf, decode, List.cons_append, List.nil_append, longOfBytes_four]

theorem decode_register {c : Cfg} (acc : Access) {a : Addr} (h : inWindow c a = true) (rest : List Byte) :
    decode c (.reg acc) (encodingBytes (.register acc a) ++ rest) = .ok (regRow c acc a, rest) := by
  simp only [encodingBytes, bytesOf, decode, List.cons_append, List.nil_append, longOfBytes_four, h, if_true]

theorem decode_hdmac (c : Cfg) (ch : Fin 8) (v : Long) (rest : List Byte) :
    decode c (.hdmac ch) (encodingBytes (.hdmac ch v) ++ rest) = .ok (decodeHdmac ch v, rest) := by
  simp only [encodingBytes, bytesOf, decode, List.cons_append, List.nil_append, longOfBytes_four]

theorem decode_blitf (c : Cfg) (v : Long) (rest : List Byte) :
    decode c .blitf (encodingBytes (.blitf v) ++ rest) = .ok (decodeBlitf v, rest) := by
  simp only [encodingBytes, bytesOf, decode, List.cons_append, List.nil_append, longOfBytes_four]

theorem decode_rle_one {b : Byte} (h : rleTwoBytes b = false) (c : Cfg) (rest : List Byte) :
    decode c .rle (b :: rest) = .ok (rleInstr (.lit b), rest) := by
  simp [decode, h]

theorem decode_rle_two {b : Byte} (h : rleTwoBytes b = true) (c : Cfg) (v : Byte) (rest : List Byte) :
    decode c .rle (b :: v :: rest) = .ok (rleInstr (rlePair b v), rest) := by
  simp [decode, h]

/-! ## The register rows (R130) -/

/-- The row of an access to a register of its width (R122). -/
def accessRow (acc : Access) (r : Reg) : Instr :=
  match acc with
  | .rd8 | .rd16 | .rd32 => regReadRow r
  | .wr8 v => regWriteRow r (v.setWidth 32)
  | .wr16 v => regWriteRow r (v.setWidth 32)
  | .wr32 v => regWriteRow r v

theorem regRow_some {c : Cfg} {acc : Access} {a : Addr} {r : Reg} (h : selectReg c a acc.width = some r) :
    regRow c acc a = accessRow acc r := by
  rw [regRow, h]
  cases acc <;> rfl

theorem regRow_none {c : Cfg} {acc : Access} {a : Addr} (h : selectReg c a acc.width = none) :
    regRow c acc a = .regUnknown acc a := by
  rw [regRow, h]

/-- A command decodes from its own word. -/
def DecodesBack (c : Cfg) (i : Instr) : Prop :=
  ∀ rest, decode c (contextOf c i) (encode c i ++ rest) = .ok (i, rest)

/-- A row whose word is the address of a register, at the register's width, decodes to the row of that register. -/
theorem register_decodesBack {c : Cfg} (h : cfgWf c = true) {i : Instr} {acc : Access} {r : Reg}
    (word : encoding c i = .register acc (regAddr c r)) (width : acc.width = regWidth r) (row : accessRow acc r = i) :
    DecodesBack c i := by
  intro rest
  have select : selectReg c (regAddr c r) acc.width = some r := width ▸ selectReg_regAddr h r
  rw [contextOf, encode, word, encodingContext, decode_register _ (inWindow_regAddr h r), regRow_some select, row]

/-! ## The decoder rows (R71 to R73) -/

theorem selectsBank_iff {c : Cfg} {b : BitVec 4} {a : Addr} :
    selectsBank c b a = true ↔ inWindow c a = false ∧ bankOf c a = b := by
  simp [selectsBank]

/-- The row of a bank. -/
def bankRow (acc : ByteAccess) (a : Addr) (b : BitVec 4) : Instr :=
  match b.toNat with
  | 0x0 => .bankRom acc a
  | 0x1 => .bankWram acc a
  | 0x2 => .bankDev acc a
  | 0x3 => .bankNone3 acc a
  | 0x4 => .bankNone4 acc a
  | 0x5 => .bankNone5 acc a
  | 0x6 => .bankNone6 acc a
  | 0x7 => .bankNone7 acc a
  | 0x8 => .bankNone8 acc a
  | 0x9 => .bankNone9 acc a
  | 0xA => .bankNoneA acc a
  | 0xB => .bankNoneB acc a
  | 0xC => .bankNoneC acc a
  | 0xD => .bankNoneD acc a
  | 0xE => .bankVram acc a
  | _ => .bankNoneF acc a

theorem addrRow_window {c : Cfg} {a : Addr} (h : inWindow c a = true) (acc : ByteAccess) :
    addrRow c acc a = .windowReg acc a := by
  simp [addrRow, h]

theorem addrRow_bank {c : Cfg} {a : Addr} (h : inWindow c a = false) (acc : ByteAccess) :
    addrRow c acc a = bankRow acc a (bankOf c a) := by
  rw [addrRow, h]; rfl

theorem addrRow_selectsBank {c : Cfg} {b : BitVec 4} {a : Addr} (h : selectsBank c b a = true) (acc : ByteAccess) :
    addrRow c acc a = bankRow acc a b := by
  obtain ⟨outside, rfl⟩ := selectsBank_iff.mp h
  exact addrRow_bank outside acc

/-! ## Control words and stream codes (R135 to R140) -/

theorem decodeDmac_dmacWord (const : Bool) (code : BitVec 2) (si di : Bool) :
    decodeDmac (dmacWord const code si di true) = Machine.dmaCommand const code si di := by
  obtain ⟨start, src, dst, k, w⟩ := dmac_fields const code si di true
  simp only [decodeDmac, start, src, dst, k, w, if_true]
  have codes : ∀ x : BitVec 2, x = 0 ∨ x = 1 ∨ x = 2 ∨ x = 3 := by decide
  rcases codes code with rfl | rfl | rfl | rfl <;> cases const <;> rfl

theorem decodeHdmac_hdmacWord (ch : Fin 8) (en : Bool) (w : BitVec 2) (dbl : Bool) (start count : BitVec 10) :
    decodeHdmac ch (hdmacWord en w dbl start count) = .hdmaSet ch en w dbl start count := by
  obtain ⟨h1, h2, h3, h4, h5⟩ := hdmac_fields en w dbl start count
  rw [decodeHdmac, h1, h2, h3, h4, h5]

/-- The function word's row, by its function number (R136, R150). -/
def blitRow (f : BlitFields) (skip : Bool) (func : BitVec 4) : Instr :=
  match func.toNat with
  | 0 => .bltNop f skip
  | 1 => if skip then .bltBlitS f else .bltBlit f
  | 2 => if skip then .bltSetS f else .bltSet f
  | 3 => if skip then .bltInvS f else .bltInv f
  | 4 => .bltRle f skip
  | 5 => .bltRsvd5 f skip
  | 6 => .bltRsvd6to7 f skip 0
  | 7 => .bltRsvd6to7 f skip 1
  | 8 => .bltRsvd8to15 f skip 0
  | 9 => .bltRsvd8to15 f skip 1
  | 10 => .bltRsvd8to15 f skip 2
  | 11 => .bltRsvd8to15 f skip 3
  | 12 => .bltRsvd8to15 f skip 4
  | 13 => .bltRsvd8to15 f skip 5
  | 14 => .bltRsvd8to15 f skip 6
  | _ => .bltRsvd8to15 f skip 7

theorem decodeBlitf_eq (v : Long) : decodeBlitf v = blitRow (blitfFields v) (blitfSkip v) (blitfFunc v) := rfl

theorem decodeBlitf_blitfWord (f : BlitFields) (skip : Bool) (func : BitVec 4) :
    decodeBlitf (blitfWord f skip func) = blitRow f skip func := by
  rw [decodeBlitf_eq, blitf_fields, blitf_skip, blitf_func]

theorem blitRow_rsvd6to7 (f : BlitFields) (skip : Bool) (low : BitVec 1) :
    blitRow f skip ((3 : BitVec 3) ++ low) = .bltRsvd6to7 f skip low := by
  have lows : ∀ x : BitVec 1, x = 0 ∨ x = 1 := by decide
  rcases lows low with rfl | rfl <;> rfl

theorem blitRow_rsvd8to15 (f : BlitFields) (skip : Bool) (low : BitVec 3) :
    blitRow f skip ((1 : BitVec 1) ++ low) = .bltRsvd8to15 f skip low := by
  have lows : ∀ x : BitVec 3, x = 0 ∨ x = 1 ∨ x = 2 ∨ x = 3 ∨ x = 4 ∨ x = 5 ∨ x = 6 ∨ x = 7 := by decide
  rcases lows low with rfl | rfl | rfl | rfl | rfl | rfl | rfl | rfl <;> rfl

theorem blitfWord_decodesBack (c : Cfg) (f : BlitFields) (skip : Bool) (func : BitVec 4) (rest : List Byte) :
    decode c .blitf (encodingBytes (.blitf (blitfWord f skip func)) ++ rest) = .ok (blitRow f skip func, rest) := by
  rw [decode_blitf, decodeBlitf_blitfWord]

theorem dmacWord_decodesBack (c : Cfg) (const : Bool) (code : BitVec 2) (si di : Bool) (rest : List Byte) :
    decode c .dmac (encodingBytes (.dmac (dmacWord const code si di true)) ++ rest) =
      .ok (Machine.dmaCommand const code si di, rest) :=
  congrArg (fun i => Except.ok (i, rest)) (decodeDmac_dmacWord const code si di)

theorem rlePair_run {n : BitVec 6} {v : Byte} (h : ¬ (n = 0 ∧ v = 0xC0)) :
    rlePair ((3 : BitVec 2) ++ n) v = .run n v := by
  have low : ((3 : BitVec 2) ++ n).extractLsb' 0 6 = n := extract_within _ _
  rw [rlePair, low, if_neg h]

theorem rleInstr_lit0 (v : BitVec 7) : rleInstr (.lit ((0 : BitVec 1) ++ v)) = .rleLit0 v := by
  revert v; decide

theorem rleInstr_lit1 (v : BitVec 6) : rleInstr (.lit ((2 : BitVec 2) ++ v)) = .rleLit1 v := by
  revert v; decide

/-! ## Decoding after encoding -/

theorem line_decodesBack {n : BitVec 32} (h : n.toNat < 2 ^ 16) (c : Cfg) (rest : List Byte) :
    decode c .bus (encodingBytes (.frame 0x40 n 0) ++ rest) = .ok (.line n, rest) := by
  have small : n.toNat < 65536 := h
  exact decode_frame c _ _ _ rest (by simp [decodeFrame, small])

/-- Every well-formed command but HDMA.LINE decodes from its own word, format by format. -/
theorem instr_decodesBack {c : Cfg} (hc : cfgWf c = true) {i : Instr} (hi : wellFormed c i = true)
    (hl : ∀ n, i ≠ .hdmaLine n) : DecodesBack c i := by
  have bank {acc : ByteAccess} {a : Addr} {b : BitVec 4} (h : selectsBank c b a = true) (rest : List Byte) :
      decode c (.addr acc) (encodingBytes (.address acc a) ++ rest) = .ok (bankRow acc a b, rest) := by
    rw [decode_address, addrRow_selectsBank h]
  cases i
  -- BUS frames
  case rd8 | rd16 | rd32 | wr8 | wr16 | wr32 => exact fun rest => decode_frame c _ _ _ rest rfl
  case line n => exact line_decodesBack (by simpa [wellFormed] using hi) c
  case hdmaLine n => exact absurd rfl (hl n)
  -- decoder rows
  case windowReg acc a => exact fun rest => (decode_address c acc a rest).trans (by rw [addrRow_window hi])
  case bankRom | bankWram | bankDev | bankNone3 | bankNone4 | bankNone5 | bankNone6 | bankNone7 | bankNone8 |
      bankNone9 | bankNoneA | bankNoneB | bankNoneC | bankNoneD | bankVram | bankNoneF => exact bank hi
  -- control words
  case dmaNop => exact fun _ => rfl
  case dmaCopyB | dmaCopyW | dmaCopyL => exact dmacWord_decodesBack c false _ _ _
  case dmaFillB | dmaFillW | dmaFillL => exact dmacWord_decodesBack c true _ _ _
  case dmaW3 const si di => exact dmacWord_decodesBack c const 3 si di
  case hdmaSet => exact fun rest => (decode_hdmac c _ _ rest).trans (by rw [decodeHdmac_hdmacWord])
  case bltNop | bltRle | bltRsvd5 => exact blitfWord_decodesBack c _ _ _
  case bltBlit | bltSet | bltInv => exact blitfWord_decodesBack c _ false _
  case bltBlitS | bltSetS | bltInvS => exact blitfWord_decodesBack c _ true _
  case bltRsvd6to7 f skip low =>
    exact fun rest => (blitfWord_decodesBack c f skip _ rest).trans (by rw [blitRow_rsvd6to7])
  case bltRsvd8to15 f skip low =>
    exact fun rest => (blitfWord_decodesBack c f skip _ rest).trans (by rw [blitRow_rsvd8to15])
  -- stream codes
  case rleEnd => exact fun rest => decode_rle_two (by decide) c 0xC0 rest
  case rleRun n v =>
    have run : ¬ (n = 0 ∧ v = 0xC0) := by simpa [wellFormed, Decidable.imp_iff_not_or] using hi
    exact fun rest => (decode_rle_two (rleTwoBytes_run n) c v rest).trans (by rw [rlePair_run run]; rfl)
  case rleLit0 v => exact fun rest => (decode_rle_one (rleTwoBytes_lit0 v) c rest).trans (by rw [rleInstr_lit0])
  case rleLit1 v => exact fun rest => (decode_rle_one (rleTwoBytes_lit1 v) c rest).trans (by rw [rleInstr_lit1])
  -- register rows
  case regUnknown acc a =>
    obtain ⟨inside, none⟩ : inWindow c a = true ∧ selectReg c a acc.width = none := by simpa [wellFormed] using hi
    exact fun rest => (decode_register acc inside rest).trans (by rw [regRow_none none])
  all_goals exact register_decodesBack hc rfl rfl (by simp [accessRow, regReadRow, regWriteRow])

/-- Settles O1. -/
theorem decodeOfEncodeIsTheCommand : Obligations.DecodeOfEncodeIsTheCommand :=
  ⟨fun _ _ rest hc hi hl => instr_decodesBack hc hi hl rest,
    fun c _ rest hi => line_decodesBack (by simpa [wellFormed] using hi) c rest⟩

/-! ## What the decoder accepts -/

theorem wellFormed_bankRow (c : Cfg) (acc : ByteAccess) (a : Addr) (b : BitVec 4) :
    wellFormed c (bankRow acc a b) = selectsBank c b a := by
  obtain ⟨n, hn⟩ := b
  interval_cases n <;> rfl

theorem wellFormed_addrRow (c : Cfg) (acc : ByteAccess) (a : Addr) : wellFormed c (addrRow c acc a) = true := by
  cases h : inWindow c a with
  | true => rw [addrRow_window h]; exact h
  | false =>
    rw [addrRow_bank h, wellFormed_bankRow]
    exact selectsBank_iff.mpr ⟨h, rfl⟩

theorem wellFormed_regReadRow (c : Cfg) (r : Reg) : wellFormed c (regReadRow r) = true := by
  cases r
  case scrollX i | scrollY i | hdmaCtrl i | hdmaSrc i | hdmaDst i => fin_cases i <;> rfl
  all_goals rfl

theorem wellFormed_regWriteRow (c : Cfg) (r : Reg) (v : Long) : wellFormed c (regWriteRow r v) = true := by
  cases r
  case scrollX i | scrollY i | hdmaCtrl i | hdmaSrc i | hdmaDst i => fin_cases i <;> rfl
  all_goals rfl

theorem wellFormed_regRow {c : Cfg} {a : Addr} (h : inWindow c a = true) (acc : Access) :
    wellFormed c (regRow c acc a) = true := by
  cases hr : selectReg c a acc.width with
  | none => rw [regRow_none hr]; simp [wellFormed, h, hr]
  | some r =>
    rw [regRow_some hr]
    cases acc
    case rd8 | rd16 | rd32 => exact wellFormed_regReadRow c r
    case wr8 | wr16 | wr32 => exact wellFormed_regWriteRow c r _

theorem wellFormed_decodeDmac (c : Cfg) (v : Byte) : wellFormed c (decodeDmac v) = true := by
  unfold decodeDmac
  split
  · split <;> rfl
  · rfl

theorem wellFormed_blitRow (c : Cfg) (f : BlitFields) (skip : Bool) (func : BitVec 4) :
    wellFormed c (blitRow f skip func) = true := by
  obtain ⟨n, hn⟩ := func
  cases skip <;> interval_cases n <;> rfl

/-- A literal, and a pair other than END, is a well-formed code (R140). -/
theorem wellFormed_rlePair (c : Cfg) (b v : Byte) : wellFormed c (rleInstr (rlePair b v)) = true := by
  unfold rlePair
  split
  next => rfl
  next run => simpa [rleInstr, wellFormed, Decidable.imp_iff_not_or] using run

theorem wellFormed_rleLit (c : Cfg) (b : Byte) : wellFormed c (rleInstr (.lit b)) = true := by
  unfold rleInstr
  dsimp only
  split <;> rfl

theorem wellFormed_decodeFrame {op : Byte} {a d : Long} {i : Instr} (h : decodeFrame op a d = .ok i) (c : Cfg) :
    wellFormed c i = true := by
  unfold decodeFrame at h
  split at h
  case h_7 =>
    split at h
    · split at h
      next line => cases h; exact decide_eq_true line
      next => cases h
    · cases h
  case h_4 | h_5 | h_6 => cases h; rfl
  case h_8 => cases h
  all_goals
    split at h <;> cases h
    rfl

/-- Settles O2: each format's row is well formed by its own selection, and the bytes the format's pattern takes are the
front part consumed. -/
theorem decodedCommandsAreWellFormed : Obligations.DecodedCommandsAreWellFormed := by
  intro c ctx bs i rest h
  have front {x : Byte} {xs ys : List Byte} : ∃ front, front ≠ [] ∧ x :: xs ++ ys = front ++ ys :=
    ⟨x :: xs, List.cons_ne_nil x xs, rfl⟩
  cases ctx <;> simp only [decode] at h
  case bus =>
    split at h
    next op a3 a2 a1 a0 d3 d2 d1 d0 more =>
      split at h
      next i' hd =>
        cases h
        exact ⟨wellFormed_decodeFrame hd c, front (xs := [a3, a2, a1, a0, d3, d2, d1, d0])⟩
      next => cases h
    next => cases h
  case addr acc =>
    split at h
    next a3 a2 a1 a0 more =>
      cases h
      exact ⟨wellFormed_addrRow c acc _, front (xs := [a2, a1, a0])⟩
    next => cases h
  case reg acc =>
    split at h
    next a3 a2 a1 a0 more =>
      split at h
      next inside =>
        cases h
        exact ⟨wellFormed_regRow inside acc, front (xs := [a2, a1, a0])⟩
      next => cases h
    next => cases h
  case dmac =>
    split at h
    next v more =>
      cases h
      exact ⟨wellFormed_decodeDmac c v, front (xs := [])⟩
    next => cases h
  case hdmac ch =>
    split at h
    next v3 v2 v1 v0 more =>
      cases h
      exact ⟨rfl, front (xs := [v2, v1, v0])⟩
    next => cases h
  case blitf =>
    split at h
    next v3 v2 v1 v0 more =>
      cases h
      exact ⟨wellFormed_blitRow c _ _ _, front (xs := [v2, v1, v0])⟩
    next => cases h
  case rle =>
    split at h
    next => cases h
    next b more =>
      split at h
      next =>
        split at h
        next => cases h
        next v more =>
          cases h
          exact ⟨wellFormed_rlePair c b v, front (xs := [v])⟩
      next =>
        cases h
        exact ⟨wellFormed_rleLit c b, front (xs := [])⟩

/-! ## Samples and ignored bits -/

/-- Settles O3: each word is decoded by the decoder itself. -/
theorem sampleWordsDecode : Obligations.SampleWordsDecode :=
  ⟨rfl, rfl, rfl, rfl, rfl, rfl, rfl, rfl, rfl, rfl, rfl, rfl, rfl, rfl, rfl, rfl, rfl⟩

/-- A mask that holds all bits of a field does not change the field. -/
theorem extract_and_mask {w n k : Nat} {m : BitVec w} (h : m.extractLsb' k n = BitVec.allOnes n) (v : BitVec w) :
    (v &&& m).extractLsb' k n = v.extractLsb' k n := by
  rw [BitVec.extractLsb'_and, h, BitVec.and_allOnes]

theorem getLsbD_and_mask {w k : Nat} {m : BitVec w} (h : m.getLsbD k = true) (v : BitVec w) :
    (v &&& m).getLsbD k = v.getLsbD k := by
  rw [BitVec.getLsbD_and, h, Bool.and_true]

/-- Settles O4: each mask holds all bits of every field of its word, and a word is read through its fields. -/
theorem ignoredBitsAreIgnored : Obligations.IgnoredBitsAreIgnored := by
  refine ⟨fun v => ?dmac, fun v start => ?nop, fun ch v => ?hdmac⟩
  case dmac =>
    have start : dmacStart (v &&& 0x3F) = dmacStart v := getLsbD_and_mask (by decide) v
    have src : dmacSrcInc (v &&& 0x3F) = dmacSrcInc v := getLsbD_and_mask (by decide) v
    have dst : dmacDstInc (v &&& 0x3F) = dmacDstInc v := getLsbD_and_mask (by decide) v
    have const : dmacConst (v &&& 0x3F) = dmacConst v := getLsbD_and_mask (by decide) v
    have width : dmacWidth (v &&& 0x3F) = dmacWidth v := extract_and_mask (by decide) v
    simp only [decodeDmac, start, src, dst, const, width]
  case nop =>
    have noStart : dmacStart v = false := start
    simp [decodeDmac, noStart]
  case hdmac =>
    have en : hdmacEn (v &&& 0x3FF3FFB1) = hdmacEn v := getLsbD_and_mask (by decide) v
    have dbl : hdmacDbl (v &&& 0x3FF3FFB1) = hdmacDbl v := getLsbD_and_mask (by decide) v
    have width : hdmacWidth (v &&& 0x3FF3FFB1) = hdmacWidth v := extract_and_mask (by decide) v
    have start : hdmacStart (v &&& 0x3FF3FFB1) = hdmacStart v := extract_and_mask (by decide) v
    have count : hdmacCount (v &&& 0x3FF3FFB1) = hdmacCount v := extract_and_mask (by decide) v
    simp only [decodeHdmac, en, dbl, width, start, count]

/-! ## The selection of a register (R130, R177) -/

theorem inWindow_iff {c : Cfg} {a : Addr} :
    inWindow c a = true ↔ c.regBase ≤ a.toNat ∧ a.toNat < c.regBase + c.regSize := by
  simp [inWindow]

/-- A register is selected at its address and its width only. -/
theorem selectReg_eq_some {c : Cfg} (hc : cfgWf c = true) {a : Addr} {w : Width} {r : Reg} :
    selectReg c a w = some r ↔ a = regAddr c r ∧ w = regWidth r := by
  constructor
  · intro h
    unfold selectReg at h
    split at h
    next inside =>
      obtain ⟨offset, width⟩ := (regAt_eq_some hc _ _ _).mp h
      have base := (inWindow_iff.mp inside).1
      refine ⟨BitVec.eq_of_toNat_eq ?_, width.symm⟩
      rw [toNat_regAddr hc, offset, roffOf]
      omega
    next => cases h
  · rintro ⟨rfl, rfl⟩
    exact selectReg_regAddr hc r

/-- Settles O5. -/
theorem registersAnswerOnlyAtTheirOwnWidthAndOffset : Obligations.RegistersAnswerOnlyAtTheirOwnWidthAndOffset :=
  fun _ _ _ _ hc => selectReg_eq_some hc

end Sys2Proof
end

section
/-! The levels of the opcode table, the register rows, the rows of the register window and of the banks
(20_memory.md, 41_register_file.md): which operation each command is, and what it answers and sets. -/

namespace Sys2Proof.Machine

/-! ## From one level of the table to the next (R71, R122) -/

/-- A decoder row is an access of its bank's region (R73). -/
theorem exec_bankRow (acc : ByteAccess) (a : Addr) (b : BitVec 4) (s : State) :
    exec (bankRow acc a b) s = command (regionCommand (regionOf b) acc a) s := by
  obtain ⟨n, hn⟩ := b
  interval_cases n <;> rfl

theorem byteRead_window {s : State} {a : Addr} (h : inWindow s.cfg a = true) : byteRead a s = windowRead a s := if_pos h

theorem byteWrite_window {s : State} {a : Addr} (h : inWindow s.cfg a = true) (v : Byte) :
    byteWrite a v s = windowWrite a v s := if_pos h

/-- A byte read is what the row its address selects does (R170). -/
theorem exec_addrRow_read (a : Addr) (s : State) :
    exec (addrRow s.cfg .read a) s = command (readCommand (busRead .byte a)) s := by
  cases h : inWindow s.cfg a with
  | true =>
    rw [addrRow_window h]
    exact command_congr (by simp only [windowCommand, readCommand, busRead_byte, byteRead_window h])
  | false =>
    rw [addrRow_bank h, exec_bankRow]
    exact command_congr (by simp only [regionCommand, readCommand, busRead_byte, byteRead_outside h])

/-- A byte write is what the row its address selects does (R171). -/
theorem exec_addrRow_write (a : Addr) (d : Long) (s : State) :
    exec (addrRow s.cfg (.write (d.setWidth 8)) a) s = command (busWrite .byte a d) s := by
  cases h : inWindow s.cfg a with
  | true =>
    rw [addrRow_window h]
    exact command_congr (by simp only [windowCommand, busWrite_byte, byteWrite_window h])
  | false =>
    rw [addrRow_bank h, exec_bankRow]
    exact command_congr (by simp only [regionCommand, busWrite_byte, byteWrite_outside h])

theorem busRead_word (a : Addr) (s : State) :
    busRead .word a s = match selectReg s.cfg a .word with
      | some r => regRead r s
      | none => readBytes 2 a 0 s := rfl

theorem busRead_long (a : Addr) (s : State) :
    busRead .long a s = match selectReg s.cfg a .long with
      | some r => regRead r s
      | none => readBytes 4 a 0 s := rfl

theorem busWrite_word (a : Addr) (v : Long) (s : State) :
    busWrite .word a v s = match selectReg s.cfg a .word with
      | some r => regWrite r (truncTo .word v) s
      | none => writeBytes a (bytesOf .word v) s := rfl

theorem busWrite_long (a : Addr) (v : Long) (s : State) :
    busWrite .long a v s = match selectReg s.cfg a .long with
      | some r => regWrite r v s
      | none => writeBytes a (bytesOf .long v) s := rfl

/-- A word read in the window is its register row, REG.UNKNOWN where no register has that offset and width. -/
theorem exec_regRow_rd16 (a : Addr) (s : State) :
    exec (regRow s.cfg .rd16 a) s = command (readCommand (busRead .word a)) s := by
  cases h : selectReg s.cfg a .word with
  | none =>
    rw [regRow_none h]
    exact command_congr (by simp only [unknownCommand, readCommand, busRead_word, h])
  | some r =>
    rw [regRow_some h, accessRow, exec_regReadRow]
    exact command_congr (by simp only [readCommand, busRead_word, h])

theorem exec_regRow_rd32 (a : Addr) (s : State) :
    exec (regRow s.cfg .rd32 a) s = command (readCommand (busRead .long a)) s := by
  cases h : selectReg s.cfg a .long with
  | none =>
    rw [regRow_none h]
    exact command_congr (by simp only [unknownCommand, readCommand, busRead_long, h])
  | some r =>
    rw [regRow_some h, accessRow, exec_regReadRow]
    exact command_congr (by simp only [readCommand, busRead_long, h])

theorem bytesOf_word_cut (d : Long) : bytesOf .word ((d.setWidth 16).setWidth 32) = bytesOf .word d := by
  have byte (k : Nat) (h : k + 8 ≤ 16) : ((d.setWidth 16).setWidth 32).extractLsb' k 8 = d.extractLsb' k 8 := by
    apply BitVec.eq_of_getLsbD_eq
    intro i hi
    simp [hi, show k + i < 16 by omega, show k + i < 32 by omega]
  simp only [bytesOf, byte 8 (by omega), byte 0 (by omega)]

theorem exec_regRow_wr16 (a : Addr) (d : Long) (s : State) :
    exec (regRow s.cfg (.wr16 (d.setWidth 16)) a) s = command (busWrite .word a d) s := by
  cases h : selectReg s.cfg a .word with
  | none =>
    rw [regRow_none h]
    exact command_congr (by simp only [unknownCommand, busWrite_word, h, bytesOf_word_cut])
  | some r =>
    have width : regWidth r = .word := selectReg_width h
    rw [regRow_some h, accessRow, exec_regWriteRow, width, truncTo_setWidth .word _ (Nat.le_refl 16)]
    exact command_congr (by simp only [busWrite_word, h, truncTo])

theorem exec_regRow_wr32 (a : Addr) (d : Long) (s : State) :
    exec (regRow s.cfg (.wr32 d) a) s = command (busWrite .long a d) s := by
  cases h : selectReg s.cfg a .long with
  | none =>
    rw [regRow_none h]
    exact command_congr (by simp only [unknownCommand, busWrite_long, h])
  | some r =>
    have width : regWidth r = .long := selectReg_width h
    rw [regRow_some h, accessRow, exec_regWriteRow, width]
    exact command_congr (by simp only [busWrite_long, h, truncTo])

/-- A byte access in the window is its register row (R80). -/
theorem exec_regRow_rd8 {a : Addr} {s : State} (hw : inWindow s.cfg a = true) :
    exec (regRow s.cfg .rd8 a) s = command (windowCommand .read a) s := by
  cases h : selectReg s.cfg a .byte with
  | none =>
    rw [regRow_none h]
    exact command_congr (windowCommand_read_of_none hw h).symm
  | some r =>
    rw [regRow_some h, accessRow, exec_regReadRow]
    exact command_congr (windowCommand_read_of_reg hw h).symm

theorem exec_regRow_wr8 {a : Addr} {s : State} (hw : inWindow s.cfg a = true) (v : Byte) :
    exec (regRow s.cfg (.wr8 v) a) s = command (windowCommand (.write v) a) s := by
  cases h : selectReg s.cfg a .byte with
  | none =>
    rw [regRow_none h]
    exact command_congr (windowCommand_write_of_none hw h v).symm
  | some r =>
    rw [regRow_some h, accessRow, exec_regWriteRow, selectReg_width h, truncTo_setWidth .byte v (Nat.le_refl 8)]
    exact command_congr (windowCommand_write_of_reg hw h v).symm

/-- A DMA control word is the command of its fields, or nothing without `START` (R135). -/
theorem decodeDmac_eq (v : Byte) : decodeDmac v =
    if dmacStart v then dmaCommand (dmacConst v) (dmacWidth v) (dmacSrcInc v) (dmacDstInc v) else .dmaNop := by
  have codes : ∀ x : BitVec 2, x = 0 ∨ x = 1 ∨ x = 2 ∨ x = 3 := by decide
  unfold decodeDmac
  rcases codes (dmacWidth v) with h | h | h | h <;> rw [h] <;> cases dmacConst v <;> rfl

/-- A DMA control word does what the write that carries it arms (R218). -/
theorem exec_decodeDmac (v : Byte) (s : State) : exec (decodeDmac v) s = command (dmaArm v) s := by
  rw [decodeDmac_eq]
  split
  next start => exact (exec_dmaCommand _ _ _ _ s).trans (command_congr (if_pos start).symm)
  next start => exact command_congr (dmaArm_of_not_start (Bool.eq_false_iff.mpr start) s).symm

/-- A blitter function word does what the write that carries it arms (R244). -/
theorem exec_decodeBlitf (v : Long) (s : State) : exec (decodeBlitf v) s = command (blitArm v) s := by
  have row (f : BlitFields) (skip : Bool) (func : BitVec 4) : exec (blitRow f skip func) s = command (fun t =>
      if func = 1 then blitStart .blit f skip t else if func = 2 then blitStart .set f skip t
      else if func = 3 then blitStart .invert f skip t else if func = 4 then rleStart f skip t else t) s := by
    obtain ⟨n, hn⟩ := func
    cases skip <;> interval_cases n <;> rfl
  exact row (blitfFields v) (blitfSkip v) (blitfFunc v)

/-- Settles O11: each level's command and the row it selects are commands over operations that agree on the state. -/
theorem aCommandRunsTheRowItSelects : Obligations.ACommandRunsTheRowItSelects := by
  intro s i j h
  have window {a : Addr} {row : Instr} (h : (if inWindow s.cfg a then some row else none) = some j) :
      inWindow s.cfg a = true ∧ row = j := by
    split at h
    next inside => exact ⟨inside, Option.some.inj h⟩
    next => cases h
  cases i
  case rd8 a => cases h; exact (exec_addrRow_read a s).symm
  case wr8 a d => cases h; exact (exec_addrRow_write a d s).symm
  case rd16 a => obtain ⟨-, rfl⟩ := window h; exact (exec_regRow_rd16 a s).symm
  case rd32 a => obtain ⟨-, rfl⟩ := window h; exact (exec_regRow_rd32 a s).symm
  case wr16 a d => obtain ⟨-, rfl⟩ := window h; exact (exec_regRow_wr16 a d s).symm
  case wr32 a d => obtain ⟨-, rfl⟩ := window h; exact (exec_regRow_wr32 a d s).symm
  case line n => cases h; rfl
  case windowReg acc a =>
    cases acc with
    | read => obtain ⟨inside, rfl⟩ := window h; exact (exec_regRow_rd8 inside).symm
    | write v => obtain ⟨inside, rfl⟩ := window h; exact (exec_regRow_wr8 inside v).symm
  case dmaCtrlW v =>
    cases h
    exact (command_congr (regWrite_dmaCtrl v s)).trans (exec_decodeDmac v s).symm
  case blitFuncW v => cases h; exact (exec_decodeBlitf v s).symm
  case hdmaCtrl0W | hdmaCtrl1W | hdmaCtrl2W | hdmaCtrl3W | hdmaCtrl4W | hdmaCtrl5W | hdmaCtrl6W | hdmaCtrl7W =>
    cases h; rfl
  all_goals cases h

/-! ## The register rows (41_register_file.md) -/

section
variable {s : State} (hp : s.provisioned = true)
include hp

/-- A read row of any register but `KEYSCAN` answers the register and changes nothing else. -/
theorem exec_readRow (r : Reg) (h : r ≠ .keyscan) : exec (regReadRow r) s = .next (answer (regRead r s).1 s) :=
  (exec_regReadRow r s).trans (command_regRead r h hp)

end

theorem byte_of_long (v : Byte) : (v.setWidth 32).setWidth 8 = v := by simp

theorem scroll_of_half (h : Half) : (h.setWidth 32).setWidth 9 = h.extractLsb' 0 9 := by
  apply BitVec.eq_of_getLsbD_eq
  intro i hi
  simp [hi]

theorem tilemapBlendByte_bits (d : Display) (i : Fin 4) :
    (tilemapBlendByte d).getLsbD i = d.blend[i].getLsbD 0 ∧
      (tilemapBlendByte d).getLsbD (4 + i) = d.blend[i].getLsbD 1 := by
  fin_cases i <;> simp only [tilemapBlendByte, BitVec.getLsbD_append] <;> simp

/-- Settles O16. -/
theorem displayRegistersReadTheirFields : Obligations.DisplayRegistersReadTheirFields := by
  intro s hp
  have read (r : Reg) (h : r ≠ .keyscan) := exec_readRow hp r h
  exact ⟨read .screenMode (by decide), read .tilemapSet (by decide),
    ⟨tilemapBlendByte s.display, read .tilemapBlend (by decide), tilemapBlendByte_bits s.display⟩,
    read (.scrollX 0) (by decide), read (.scrollY 0) (by decide), read (.scrollX 1) (by decide),
    read (.scrollY 1) (by decide), read (.scrollX 2) (by decide), read (.scrollY 2) (by decide),
    read (.scrollX 3) (by decide), read (.scrollY 3) (by decide)⟩

/-- Settles O17: each write row is the register's write, and what the operand's widening adds is cut off again. -/
theorem displayRegisterWritesSetTheirFields : Obligations.DisplayRegisterWritesSetTheirFields := by
  intro s v h hp
  have byte (r : Reg) (h1 : r ≠ .dmaCtrl) (h2 : r ≠ .blitFunc) :=
    command_regWrite r (v.setWidth 32) h1 h2 hp
  have scroll (r : Reg) (h1 : r ≠ .dmaCtrl) (h2 : r ≠ .blitFunc) :=
    command_regWrite r (h.setWidth 32) h1 h2 hp
  have x (i : Fin 4) : regWrite (.scrollX i) (h.setWidth 32) s = s.withDisplay { s.display with
      scrollX := s.display.scrollX.set i (h.extractLsb' 0 9) } := by
    simp only [regWrite, setScrollX, scroll_of_half]
  have y (i : Fin 4) : regWrite (.scrollY i) (h.setWidth 32) s = s.withDisplay { s.display with
      scrollY := s.display.scrollY.set i (h.extractLsb' 0 9) } := by
    simp only [regWrite, setScrollY, scroll_of_half]
  have mode : regWrite .screenMode (v.setWidth 32) s = s.withDisplay { s.display with
      mode := v.extractLsb' 0 4, f5 := v.getLsbD 5, f6 := v.getLsbD 6, f7 := v.getLsbD 7 } := by
    simp only [regWrite, setScreenMode, byte_of_long]
  have tilemap : regWrite .tilemapSet (v.setWidth 32) s = s.withDisplay { s.display with
      shift0 := v.extractLsb' 0 2, shift1 := v.extractLsb' 2 2, en0 := v.getLsbD 6, en1 := v.getLsbD 7 } := by
    simp only [regWrite, setTilemapSet, byte_of_long]
  have blend : regWrite .tilemapBlend (v.setWidth 32) s = s.withDisplay { s.display with
      blend := Vector.ofFn fun i : Fin 4 => v.extractLsb' (4 + i) 1 ++ v.extractLsb' i 1 } := by
    simp only [regWrite, setTilemapBlend, byte_of_long]
    rfl
  exact ⟨mode ▸ byte .screenMode (by decide) (by decide), tilemap ▸ byte .tilemapSet (by decide) (by decide),
    blend ▸ byte .tilemapBlend (by decide) (by decide),
    x 0 ▸ scroll (.scrollX 0) (by decide) (by decide), y 0 ▸ scroll (.scrollY 0) (by decide) (by decide),
    x 1 ▸ scroll (.scrollX 1) (by decide) (by decide), y 1 ▸ scroll (.scrollY 1) (by decide) (by decide),
    x 2 ▸ scroll (.scrollX 2) (by decide) (by decide), y 2 ▸ scroll (.scrollY 2) (by decide) (by decide),
    x 3 ▸ scroll (.scrollX 3) (by decide) (by decide), y 3 ▸ scroll (.scrollY 3) (by decide) (by decide)⟩

/-- Settles O18. -/
theorem scalarRegistersReadAndWrite : Obligations.ScalarRegistersReadAndWrite := by
  intro s v x hp
  have read (r : Reg) (h : r ≠ .keyscan) := exec_readRow hp r h
  have long (r : Reg) (h1 : r ≠ .dmaCtrl) (h2 : r ≠ .blitFunc) := command_regWrite r x h1 h2 hp
  have byte (r : Reg) (h1 : r ≠ .dmaCtrl) (h2 : r ≠ .blitFunc) :
      command (regWrite r (v.setWidth 32)) s = .next (regWrite r (v.setWidth 32) s) := command_regWrite r _ h1 h2 hp
  have joypad0 := byte .joypad0 (by decide) (by decide)
  have joypad1 := byte .joypad1 (by decide) (by decide)
  have intFlags := byte .intFlags (by decide) (by decide)
  simp only [regWrite, byte_of_long] at joypad0 joypad1 intFlags
  exact ⟨read .joypad0 (by decide), joypad0, read .joypad1 (by decide), joypad1, read .intFlags (by decide), intFlags,
    read .ticks (by decide), long .ticks (by decide) (by decide), byte .keyscan (by decide) (by decide),
    read .msgOut (by decide), long .msgOut (by decide) (by decide)⟩

theorem poll_listed {s : State} {v : Byte} {vs : List Byte} (h : s.port.pollAnswers = v :: vs) :
    poll s = (v, s.withPort { s.port with pollAnswers := vs, events := .poll :: s.port.events }) := by
  simp [poll, h]

theorem poll_free {s : State} (h : s.port.pollAnswers = []) :
    poll s = (Config.freePoll s.port.draws,
      s.withPort { s.port with draws := s.port.draws + 1, events := .poll :: s.port.events }) := by
  simp [poll, h]

/-- A read of `KEYSCAN` answers what the poll answers and caches it (R210). -/
theorem exec_keyscanR {s : State} (hp : s.provisioned = true) : exec .keyscanR s =
    .next (answer ((poll s).1.setWidth 32) ((poll s).2.withIo { (poll s).2.io with keyscan := (poll s).1 })) :=
  command_read hp (regRead_readFrame .keyscan s)

/-- Settles O19. -/
theorem keyscanReadsPoll : Obligations.KeyscanReadsPoll := by
  refine ⟨fun s v vs hp h => ?_, fun s hp h => ⟨Config.freePoll s.port.draws, ?_⟩⟩
  · rw [exec_keyscanR hp, poll_listed h]; rfl
  · rw [exec_keyscanR hp, poll_free h]; rfl

/-- Settles O20. -/
theorem operandRegistersReadAndWrite : Obligations.OperandRegistersReadAndWrite := by
  intro s x hp
  have read (r : Reg) (h : r ≠ .keyscan) := exec_readRow hp r h
  have write (r : Reg) (h1 : r ≠ .dmaCtrl) (h2 : r ≠ .blitFunc) := command_regWrite r x h1 h2 hp
  exact ⟨read .dmaSrc (by decide), write .dmaSrc (by decide) (by decide),
    read .dmaDst (by decide), write .dmaDst (by decide) (by decide),
    read .dmaLen (by decide), write .dmaLen (by decide) (by decide),
    read .blitA (by decide), write .blitA (by decide) (by decide),
    read .blitB (by decide), write .blitB (by decide) (by decide),
    read .blitLen (by decide), write .blitLen (by decide) (by decide),
    read .blitKey (by decide), write .blitKey (by decide) (by decide)⟩

/-- Settles O21. -/
theorem writeOnlyRegistersReadZero : Obligations.WriteOnlyRegistersReadZero := by
  intro s hp
  have read (r : Reg) (h : r ≠ .keyscan) := exec_readRow hp r h
  have ctrl (ch : Fin 8) := read (.hdmaCtrl ch) (by simp)
  have src (ch : Fin 8) := read (.hdmaSrc ch) (by simp)
  have dst (ch : Fin 8) := read (.hdmaDst ch) (by simp)
  exact ⟨read .dmaCtrl (by decide), ctrl 0, ctrl 1, ctrl 2, ctrl 3, ctrl 4, ctrl 5, ctrl 6, ctrl 7,
    src 0, src 1, src 2, src 3, src 4, src 5, src 6, src 7, dst 0, dst 1, dst 2, dst 3, dst 4, dst 5, dst 6, dst 7,
    read .blitFunc (by decide)⟩

/-- Settles O22. -/
theorem hdmaAddressRegistersSetTheirChannel : Obligations.HdmaAddressRegistersSetTheirChannel := by
  intro s x hp
  have src (ch : Fin 8) := command_regWrite (.hdmaSrc ch) x (by simp) (by simp) hp
  have dst (ch : Fin 8) := command_regWrite (.hdmaDst ch) x (by simp) (by simp) hp
  exact ⟨src 0, src 1, src 2, src 3, src 4, src 5, src 6, src 7, dst 0, dst 1, dst 2, dst 3, dst 4, dst 5, dst 6, dst 7⟩

/-- Settles O23. -/
theorem hdmaControlWritesSetTheirChannel : Obligations.HdmaControlWritesSetTheirChannel := by
  refine ⟨fun s x hp => ?_, fun s ch en w dbl start count hp => command_of_effect hp rfl rfl⟩
  have ctrl (ch : Fin 8) := command_regWrite (.hdmaCtrl ch) x (by simp) (by simp) hp
  exact ⟨ctrl 0, ctrl 1, ctrl 2, ctrl 3, ctrl 4, ctrl 5, ctrl 6, ctrl 7⟩

/-! ## Accesses that select no register (R250) -/

/-- A byte of the window at which no 8-bit register stands. -/
def UnknownByte (c : Cfg) (a : Addr) : Prop := inWindow c a = true ∧ selectReg c a .byte = none

theorem byteRead_unknown {s : State} {a : Addr} (h : UnknownByte s.cfg a) : byteRead a s = (0, s) := by
  have none := h.2
  rw [selectReg_inside h.1] at none
  rw [byteRead_window h.1, windowRead, none]

theorem byteWrite_unknown {s : State} {a : Addr} (h : UnknownByte s.cfg a) (v : Byte) : byteWrite a v s = s := by
  have none := h.2
  rw [selectReg_inside h.1] at none
  rw [byteWrite_window h.1, windowWrite, none]

theorem readBytes_unknown {s : State} {n : Nat} {a : Addr}
    (h : ∀ i, i < n → UnknownByte s.cfg (a + BitVec.ofNat 32 i)) : readBytes n a 0 s = (0, s) := by
  induction n generalizing a with
  | zero => rfl
  | succ n ih =>
    have first : UnknownByte s.cfg a := by simpa using h 0 (Nat.succ_pos n)
    rw [readBytes, byteRead_unknown first, show appendByte 0 (0 : Byte) = 0 by decide]
    exact ih fun i hi => by rw [← add_ofNat_succ]; exact h (i + 1) (by omega)

theorem writeBytes_unknown {s : State} {vs : List Byte} {a : Addr}
    (h : ∀ i, i < vs.length → UnknownByte s.cfg (a + BitVec.ofNat 32 i)) : writeBytes a vs s = s := by
  induction vs generalizing a with
  | nil => rfl
  | cons v vs ih =>
    have first : UnknownByte s.cfg a := by simpa using h 0 (Nat.succ_pos _)
    simp only [writeBytes, hitsDmaCtrl, first.2, byteWrite_unknown first]
    exact ih fun i hi => by rw [← add_ofNat_succ]; exact h (i + 1) (by simpa using hi)

/-- Settles O24: bytes of the window without a register read 0 and ignore writes, one after the other; and where no
wide register matches, the wide access is its bytes by definition. -/
theorem unknownRegistersReadZeroAndIgnoreWrites : Obligations.UnknownRegistersReadZeroAndIgnoreWrites := by
  refine ⟨fun s a v hp => ⟨command_of_effect hp rfl rfl, command_of_effect hp rfl rfl⟩, fun s a v hp h => ⟨?_, ?_⟩,
    fun s a v hp h => ⟨?_, ?_⟩, fun s a v x => ⟨fun h => ⟨?_, ?_⟩, fun h => ⟨?_, ?_⟩⟩⟩
  · exact command_of_effect hp (by rw [unknownCommand, readCommand, readBytes_unknown h]) rfl
  · exact command_of_effect hp (writeBytes_unknown h) rfl
  · exact command_of_effect hp (by rw [unknownCommand, readCommand, readBytes_unknown h]) rfl
  · exact command_of_effect hp (writeBytes_unknown h) rfl
  · exact command_congr (by simp only [unknownCommand, readCommand, busRead_word, h])
  · exact command_congr (by simp only [unknownCommand, busWrite_word, h])
  · exact command_congr (by simp only [unknownCommand, readCommand, busRead_long, h])
  · exact command_congr (by simp only [unknownCommand, busWrite_long, h])

/-! ## ROM, unmapped banks and the device window (R73, R74, R77, R78) -/

theorem romRead_boot {o : Nat} {s : State} (h : o < s.cfg.bootSize) :
    romRead o s = s.mem.boot.read (o &&& (s.cfg.bootSize - 1)) := if_pos h

theorem romRead_cart {o : Nat} {s : State} (h : s.cfg.bootSize ≤ o) (h' : s.cfg.cartBase ≤ o) :
    romRead o s = s.mem.cart.read ((o - s.cfg.cartBase) &&& (s.cfg.cartSize - 1)) :=
  (if_neg (Nat.not_lt_of_le h)).trans (if_pos h')

theorem romRead_gap {o : Nat} {s : State} (h : s.cfg.bootSize ≤ o) (h' : o < s.cfg.cartBase) : romRead o s = 0 :=
  (if_neg (Nat.not_lt_of_le h)).trans (if_neg (Nat.not_le_of_lt h'))

/-- Settles O26. -/
theorem romReadsAndIgnoresWrites : Obligations.RomReadsAndIgnoresWrites := by
  intro s a v hp
  have read : exec (.bankRom .read a) s = .next (answer ((romRead (offOf a) s).setWidth 32) s) :=
    command_regionRead hp .rom a
  refine ⟨fun h => ?_, fun h h' => ?_, fun h h' => ?_, command_regionWrite hp .rom a v⟩
  · rw [read, romRead_boot h]
  · rw [read, romRead_cart h h']
  · rw [read, romRead_gap h h']; rfl

/-- Settles O29. -/
theorem unmappedBanksReadZeroAndIgnoreWrites : Obligations.UnmappedBanksReadZeroAndIgnoreWrites := by
  intro s a v hp
  have read := command_regionRead hp .unmapped a
  have write := command_regionWrite hp .unmapped a v
  exact ⟨read, write, read, write, read, write, read, write, read, write, read, write, read, write, read, write,
    read, write, read, write, read, write, read, write⟩

theorem devHit_present {c : Cfg} {o : Nat} {slot : Fin 16} (h : o / c.devBlock = slot) (hd : c.dev[slot] = true) :
    devHit c o = some (slot.val, o % c.devBlock) := by
  have low : o / c.devBlock < 16 := h ▸ slot.isLt
  have here : c.dev[o / c.devBlock] = true := by simp only [h]; exact hd
  rw [devHit, dif_pos low, if_pos here, h]

theorem devHit_absent {c : Cfg} {o : Nat} (h : ∀ slot : Fin 16, o / c.devBlock = slot → c.dev[slot] = false) :
    devHit c o = none := by
  unfold devHit
  split
  next low => exact if_neg (Bool.eq_false_iff.mp (h ⟨_, low⟩ rfl))
  next => rfl

theorem devRead_listed {s : State} {x : Nat} {xs : List Nat} (h : s.port.devAnswers = x :: xs) (slot o : Nat) :
    devRead slot o s = (BitVec.ofNat 8 x,
      s.withPort { s.port with devAnswers := xs, events := .devRead slot o :: s.port.events }) := by
  simp [devRead, h]

theorem devRead_free {s : State} (h : s.port.devAnswers = []) (slot o : Nat) :
    devRead slot o s = (BitVec.ofNat 8 (Config.freeDevValue slot o s.port.draws),
      s.withPort { s.port with draws := s.port.draws + 1, events := .devRead slot o :: s.port.events }) := by
  simp [devRead, h]

/-- An answer is cut to 8 bits (R77). -/
theorem devAnswer_cut (x : Nat) : (BitVec.ofNat 8 x).setWidth 32 = BitVec.ofNat 32 (x % 256) := by
  apply BitVec.eq_of_toNat_eq
  simp only [BitVec.toNat_setWidth, BitVec.toNat_ofNat]

/-- Settles O30. -/
theorem deviceWindowCallsItsSlot : Obligations.DeviceWindowCallsItsSlot := by
  intro s a v hp
  have read := command_regionRead hp .dev a
  have write := command_regionWrite hp .dev a v
  refine ⟨fun slot h hd => ⟨fun x xs hx => ?_,
    fun hx => ⟨BitVec.ofNat 8 (Config.freeDevValue slot (offOf a % s.cfg.devBlock) s.port.draws), ?_⟩, ?_⟩,
    fun h => ⟨?_, ?_⟩⟩
  · simp only [regionRead, devWindowRead, devHit_present h hd, devRead_listed hx, devAnswer_cut] at read
    exact read
  · simp only [regionRead, devWindowRead, devHit_present h hd, devRead_free hx] at read
    exact read
  · simp only [regionWrite, devWindowWrite, devHit_present h hd] at write
    exact write
  · simp only [regionRead, devWindowRead, devHit_absent h] at read
    exact read
  · simp only [regionWrite, devWindowWrite, devHit_absent h] at write
    exact write

end Sys2Proof.Machine
end

section
/-! Bus accesses (40_bus_access.md): what a read answers and may change, what a write stores, and that a wide access is
its byte accesses in order, each with everything it triggers. -/

namespace Sys2Proof.Machine

/-! ## Values and bytes (R85, R12) -/

theorem longOfBytes_one (x : Byte) : longOfBytes [x] = x.setWidth 32 := appendByte_zero x

theorem longOfBytes_two (x y : Byte) : longOfBytes [x, y] = (x ++ y).setWidth 32 := appendByte_two x y

theorem longOfBytes_of_four (w x y z : Byte) : longOfBytes [w, x, y, z] = w ++ x ++ y ++ z := appendByte_four w x y z

theorem plainBytes_two (s : State) (a : Addr) : plainBytes s a 2 = [plainByte s a, plainByte s (a + 1)] := by
  simp [plainBytes, List.range_succ]

theorem plainBytes_four (s : State) (a : Addr) : plainBytes s a 4 =
    [plainByte s a, plainByte s (a + 1), plainByte s (a + 2), plainByte s (a + 3)] := by
  simp [plainBytes, List.range_succ]

/-- Byte `k` of a value of a width, most significant first (R85). -/
theorem bytesOf_getElem (w : Width) (v : Long) (k : Nat) (hk : k < (bytesOf w v).length) :
    (bytesOf w v)[k] = v.extractLsb' (8 * (w.step - 1 - k)) 8 := by
  have hk' := hk
  rw [bytesOf_length] at hk'
  cases w <;> simp only [Width.step] at hk' <;> interval_cases k <;> rfl

theorem byte_of_shift (d : Long) (k : Nat) : (d >>> k).setWidth 8 = d.extractLsb' k 8 := by
  apply BitVec.eq_of_getLsbD_eq
  intro i hi
  simp [hi]

/-- The bytes of a value compose to the value cut to the width (R12). -/
theorem longOfBytes_bytesOf_cut (w : Width) (v : Long) : longOfBytes (bytesOf w v) = truncTo w v := by
  cases w
  case byte => rw [bytesOf, longOfBytes_one]; rfl
  case word =>
    have halves : v.extractLsb' 8 8 ++ v.extractLsb' 0 8 = v.setWidth 16 := by
      apply BitVec.eq_of_getLsbD_eq
      intro i hi
      simp only [BitVec.getLsbD_append, BitVec.getLsbD_extractLsb', BitVec.getLsbD_setWidth]
      split
      · simp [hi]; omega
      · simp [hi, show i - 8 < 8 by omega, show 8 + (i - 8) = i by omega]
    rw [bytesOf, longOfBytes_two, halves]
    rfl
  case long => exact longOfBytes_bytesOf v

/-! ## Reads (R170, R172, R174) -/

/-- A bus read as a command answers its value and changes at most what a read may change (R96). -/
theorem command_busRead {s : State} (hp : s.provisioned = true) (w : Width) (a : Addr) :
    command (readCommand (busRead w a)) s = .next (answer (busRead w a s).1 (busRead w a s).2) :=
  command_read hp (busRead_readFrame w a s)

theorem exec_rd8 {s : State} (hp : s.provisioned = true) (a : Addr) :
    exec (.rd8 a) s = .next (answer ((byteRead a s).1.setWidth 32) (byteRead a s).2) := by
  have h := command_busRead hp .byte a
  rwa [busRead_byte] at h

/-- What stands on the CPU port has no part in a byte read. -/
theorem byteRead_answer (a : Addr) (v : Long) (s : State) :
    byteRead a (answer v s) = ((byteRead a s).1, answer v (byteRead a s).2) := by
  have cfg : (answer v s).cfg = s.cfg := rfl
  cases hw : inWindow s.cfg a with
  | true =>
    rw [byteRead_window (s := answer v s) hw, byteRead_window hw, windowRead, windowRead, cfg]
    cases regAt s.cfg (roffOf s.cfg a) .byte with
    | none => rfl
    | some r =>
      cases r
      case keyscan =>
        simp only [regRead, keyscanRead, poll, answer, State.withPort_port]
        split <;> rfl
      all_goals rfl
  | false =>
    rw [byteRead_outside (s := answer v s) hw, byteRead_outside hw, cfg]
    cases regionOf (bankOf s.cfg a)
    case dev =>
      simp only [regionRead, devWindowRead, cfg]
      cases devHit s.cfg (offOf a) with
      | none => rfl
      | some x =>
        simp only [devRead, answer, State.withPort_port]
        split <;> rfl
    all_goals rfl

/-- A byte read after a byte read: the second does not see the first's answer, and answers anew. -/
theorem exec_rd8_answer {s : State} (hp : s.provisioned = true) (a : Addr) (v : Long) :
    exec (.rd8 a) (answer v s) = .next (answer ((byteRead a s).1.setWidth 32) (byteRead a s).2) := by
  rw [exec_rd8 (s := answer v s) hp, byteRead_answer]
  rfl

theorem appendByte_or (acc : Long) (b : Byte) : appendByte acc b = acc <<< 8 ||| b.setWidth 32 := rfl

/-- Settles O31: plain bytes compose to the read's value; and a read without a native register is `readBytes`, which
does the byte reads in turn. -/
theorem readsAreComposedMostSignificantByteFirst : Obligations.ReadsAreComposedMostSignificantByteFirst := by
  refine ⟨fun s a hp => ⟨fun h0 => ?_, fun h0 h1 => ?_, fun h0 h1 h2 h3 => ?_⟩, fun s a hp hn => ?_,
    fun s a hp hn => ?_⟩
  · rw [exec_rd8 hp, byteRead_plain h0]
  · have plain : ∀ i, i < Width.word.step → plainAddr s.cfg (a + BitVec.ofNat 32 i) := by
      intro i (hi : i < 2)
      interval_cases i
      · simpa using h0
      · exact h1
    have h := command_busRead hp .word a
    rw [busRead_plain plain, Width.step, plainBytes_two, longOfBytes_two] at h
    exact h
  · have plain : ∀ i, i < Width.long.step → plainAddr s.cfg (a + BitVec.ofNat 32 i) := by
      intro i (hi : i < 4)
      interval_cases i
      · simpa using h0
      · exact h1
      · exact h2
      · exact h3
    have h := command_busRead hp .long a
    rw [busRead_plain plain, Width.step, plainBytes_four, longOfBytes_of_four] at h
    exact h
  · have hp1 := (byteRead_readFrame a s).provisioned.trans hp
    refine ⟨_, _, exec_rd8 hp a, exec_rd8_answer hp1 (a + 1) _, (command_busRead hp .word a).trans ?_⟩
    rw [busRead_word, hn]
    simp only [readBytes, appendByte_zero]
    rfl
  · have hp1 := (byteRead_readFrame a s).provisioned.trans hp
    have hp2 := (byteRead_readFrame (a + 1) _).provisioned.trans hp1
    have hp3 := (byteRead_readFrame (a + 2) _).provisioned.trans hp2
    refine ⟨_, _, _, _, exec_rd8 hp a, exec_rd8_answer hp1 (a + 1) _, exec_rd8_answer hp2 (a + 2) _,
      exec_rd8_answer hp3 (a + 3) _, (command_busRead hp .long a).trans ?_⟩
    have next2 : a + 1 + 1 = a + 2 := BitVec.add_assoc a 1 1
    have next3 : a + 2 + 1 = a + 3 := BitVec.add_assoc a 2 1
    rw [busRead_long, hn]
    simp only [readBytes, appendByte_zero, next2, next3]
    simp only [appendByte_or, BitVec.shiftLeft_or_distrib, ← BitVec.shiftLeft_add]
    rfl

/-- The value of a read fits its width. -/
theorem busRead_fits (w : Width) (a : Addr) (s : State) : (busRead w a s).1.toNat < 2 ^ (8 * w.step) := by
  have register {r : Reg} (h : regWidth r = .word) : (regRead r s).1.toNat < 2 ^ 16 := by
    have cut := truncTo_regRead r s
    rw [h] at cut
    rw [← cut, truncTo, BitVec.toNat_setWidth_of_le (by decide)]
    exact BitVec.isLt _
  cases w
  case byte =>
    rw [busRead_byte, BitVec.toNat_setWidth_of_le (by decide)]
    exact BitVec.isLt _
  case word =>
    rw [busRead_word]
    cases hr : selectReg s.cfg a .word with
    | some r => exact register (selectReg_width hr)
    | none =>
      simp only [readBytes, appendByte_two]
      rw [BitVec.toNat_setWidth_of_le (by decide)]
      exact BitVec.isLt _
  case long => exact BitVec.isLt _

/-- Settles O32. -/
theorem readsChangeOnlyTheScanCodeAndThePorts : Obligations.ReadsChangeOnlyTheScanCodeAndThePorts := by
  intro s a i hp hi
  have read (w : Width) (he : exec i s = command (readCommand (busRead w a)) s)
      (h8 : i = .rd8 a → w = .byte) (h16 : i = .rd16 a → w = .word) :
      ∃ t k p v new, exec i s = .next t ∧ t = (s.withIo { s.io with keyscan := k }).withPort p ∧
        p.requests = s.port.requests ∧ p.result = v ∧
        (i = .rd8 a → v.toNat < 2 ^ 8) ∧ (i = .rd16 a → v.toNat < 2 ^ 16) ∧
        p.events = new ++ s.port.events ∧ ∀ e ∈ new, isReadCall e := by
    obtain ⟨k, p, after, requests, -, new, events, calls⟩ := busRead_readFrame w a s
    have fits := busRead_fits w a s
    refine ⟨_, k, { p with result := (busRead w a s).1 }, _, new, he.trans (command_busRead hp w a), by rw [after]; rfl,
      requests, rfl, fun e => ?_, fun e => ?_, events, calls⟩
    · rw [h8 e] at fits ⊢; exact fits
    · rw [h16 e] at fits ⊢; exact fits
  simp only [List.mem_cons, List.not_mem_nil, or_false] at hi
  obtain rfl | rfl | rfl := hi
  · exact read .byte rfl (fun _ => rfl) nofun
  · exact read .word rfl nofun fun _ => rfl
  · exact read .long rfl nofun nofun

/-! ## Writes outside the window (R171, R173, R175) -/

/-- Outside the device window a byte write calls no port. -/
theorem byteWrite_port {s : State} {a : Addr} (h : inWindow s.cfg a = false) (hb : bankOf s.cfg a ≠ 2) (v : Byte) :
    (byteWrite a v s).port = s.port := by
  rw [byteWrite_outside h]
  have notDev : regionOf (bankOf s.cfg a) ≠ .dev := by
    rw [regionOf, if_neg hb]
    split_ifs <;> decide
  cases hr : regionOf (bankOf s.cfg a)
  case dev => exact absurd hr notDev
  case wram => rw [regionWrite, wramWrite_frame]; rfl
  case vram => rw [regionWrite, vramWrite_frame]; rfl
  all_goals rfl

theorem writeBytes_port {vs : List Byte} {a : Addr} {s : State} (h : outsideWindow s.cfg a vs.length)
    (hb : ∀ k, k < vs.length → bankOf s.cfg (a + BitVec.ofNat 32 k) ≠ 2) : (writeBytes a vs s).port = s.port := by
  induction vs generalizing a s with
  | nil => rfl
  | cons v vs ih =>
    have cfg := (byteWrite_storeFrame h.head v).cfg
    rw [writeBytes_cons h.head, ih (by rw [cfg]; exact h.tail)]
    · exact byteWrite_port h.head (by simpa using hb 0 (Nat.succ_pos _)) v
    · intro k hk
      rw [cfg, ← add_ofNat_succ]
      exact hb (k + 1) (by simpa using hk)

/-- A write outside the window arms nothing: it is its own effect. -/
theorem command_busWrite_outside {s : State} (hp : s.provisioned = true) {w : Width} {a : Addr}
    (h : outsideWindow s.cfg a w.step) (d : Long) : command (busWrite w a d) s = .next (busWrite w a d s) :=
  command_of_effect hp rfl (busWrite_storeFrame h d).stack

theorem busWrite_wram {s : State} {w : Width} {a : Addr} (h : outsideWindow s.cfg a w.step)
    (ok : memOk s.cfg s.mem = true) (d : Long) (j : Nat) :
    (∀ k, k < w.step → storesWram s.cfg (a + BitVec.ofNat 32 k) j →
      (busWrite w a d s).mem.wram.read j = d.extractLsb' (8 * (w.step - 1 - k)) 8) ∧
    ((∀ k, k < w.step → ¬ storesWram s.cfg (a + BitVec.ofNat 32 k) j) →
      (busWrite w a d s).mem.wram.read j = s.mem.wram.read j) := by
  have length := bytesOf_length w d
  have small : (bytesOf w d).length ≤ 2 ^ 24 := by rw [length]; cases w <;> decide
  obtain ⟨stored, frame⟩ := writeBytes_wram (vs := bytesOf w d) (by rwa [length]) ok small j
  rw [busWrite_outside h.first]
  refine ⟨fun k hk hs => ?_, fun hs => frame fun k hk => hs k (by rwa [length] at hk)⟩
  rw [stored k (by rwa [length]) hs, bytesOf_getElem]

theorem busWrite_vram {s : State} {w : Width} {a : Addr} (h : outsideWindow s.cfg a w.step)
    (ok : memOk s.cfg s.mem = true) (d : Long) (j : Nat) :
    (∀ k, k < w.step → storesVram s.cfg (a + BitVec.ofNat 32 k) j →
      (∀ l, k < l → l < w.step → ¬ storesVram s.cfg (a + BitVec.ofNat 32 l) j) →
      (busWrite w a d s).mem.vram.read j = d.extractLsb' (8 * (w.step - 1 - k)) 8) ∧
    ((∀ k, k < w.step → ¬ storesVram s.cfg (a + BitVec.ofNat 32 k) j) →
      (busWrite w a d s).mem.vram.read j = s.mem.vram.read j) := by
  have length := bytesOf_length w d
  have outside : outsideWindow s.cfg a (bytesOf w d).length := by rwa [length]
  rw [busWrite_outside h.first]
  refine ⟨fun k hk hs last => ?_, fun hs => writeBytes_vram_frame outside ok fun k hk => hs k (by rwa [length] at hk)⟩
  rw [writeBytes_vram outside ok (by rwa [length]) hs fun l hl hl' => last l hl (by rwa [length] at hl'),
    bytesOf_getElem]

/-! ## What a command leads to (R90) -/

/-- Once a run is back at a depth, more fuel changes nothing. -/
theorem settle_more {depth m n : Nat} {s : State} (h : (settle depth m s).stack.length ≤ depth) (hmn : m ≤ n) :
    settle depth n s = settle depth m s := by
  obtain ⟨k, rfl⟩ := Nat.exists_eq_add_of_le hmn
  rw [settle_add, settle_done h]

/-- An operation of a provisioned block, with everything it triggers, ends in `u` (R90). -/
def Completes (f : State → State) (s u : State) : Prop :=
  s.provisioned = true ∧ ∃ n, settle s.stack.length n (f s) = u ∧ u.stack = s.stack

/-- A command leads to the states in which its operation completes, over one step or several. -/
theorem leadsTo_iff {i : Instr} {f : State → State} {s : State} (he : exec i s = command f s) (u : State) :
    leadsTo i s u ↔ Completes f s u := by
  constructor
  · rintro ⟨t, k, ht, hu, stack⟩
    obtain ⟨hp, rfl⟩ := command_cases (he.symm.trans ht)
    exact ⟨hp, Config.burst + k, by rw [settle_add, hu], stack⟩
  · rintro ⟨hp, n, hu, stack⟩
    have done : (settle s.stack.length n (f s)).stack.length ≤ s.stack.length := by rw [hu, stack]
    refine ⟨_, n, he.trans (command_provisioned hp f), ?_, stack⟩
    rw [← settle_add, settle_more done (Nat.le_add_left n Config.burst), hu]

/-- A run that comes back to a depth, as a run of counted micro-steps. -/
theorem runs_of_settle {depth n : Nat} {s : State} (h : (settle depth n s).stack.length ≤ depth) :
    ∃ m, Runs depth m s (settle depth n s) := by
  induction n generalizing s with
  | zero => exact ⟨0, rfl⟩
  | succ n ih =>
    by_cases hs : s.stack.length ≤ depth
    · exact ⟨0, (settle_done hs _).symm⟩
    · have deeper := Nat.lt_of_not_le hs
      rw [settle_succ deeper] at h ⊢
      obtain ⟨m, hm⟩ := ih h
      exact ⟨m + 1, deeper, hm⟩

/-- What an operation triggers runs to its end on top of an activation that waits, and leaves it waiting (R52). -/
theorem runs_above {f : State → State} (hf : OnTop f) {s t : State} {n : Nat}
    (h : settle s.stack.length n (f s) = t) (ht : t.stack = s.stack) (x : Activation) :
    ∃ m, Runs s.stack.length m (f (s.withStack (x :: s.stack))) (t.withStack (x :: s.stack)) := by
  have run (base : List Activation) := settle_append n (f (s.withStack [])) (f (s.withStack [])).stack base
  generalize hr : settle 0 n ((f (s.withStack [])).withStack (f (s.withStack [])).stack) = r at run
  have outer := run s.stack
  rw [← hf s s.stack, State.withStack_self, h] at outer
  have empty : r.stack = [] := by
    have stack : t.stack = r.stack ++ s.stack := congrArg State.stack outer
    rw [ht] at stack
    exact List.self_eq_append_left.mp stack
  have inner := run (x :: s.stack)
  rw [← hf s (x :: s.stack)] at inner
  have result : t.withStack (x :: s.stack) = settle (x :: s.stack).length n (f (s.withStack (x :: s.stack))) := by
    rw [inner, outer, empty]; rfl
  rw [result]
  obtain ⟨m, hm⟩ := runs_of_settle (depth := (x :: s.stack).length) (n := n) (s := f (s.withStack (x :: s.stack)))
    (by rw [← result]; exact Nat.le_refl _)
  exact ⟨m, hm.mono (Nat.le_succ _)⟩

/-- Away from `DMA_CTRL` a byte write arms nothing: `BLIT_FUNC` is no 8-bit register (R244). -/
theorem byteWrite_stack_eq {a : Addr} {s : State} (h : selectReg s.cfg a .byte ≠ some .dmaCtrl) (v : Byte) :
    (byteWrite a v s).stack = s.stack :=
  byteWrite_preserves (f := State.stack) (fun _ _ frame => frame.stack) fun r hr =>
    regWrite_stack_eq (fun e => h (e ▸ hr)) (fun e => by have := selectReg_width hr; rw [e] at this; cases this) _ s

theorem writeBytes_single (a : Addr) (v : Byte) (s : State) : writeBytes a [v] s = byteWrite a v s := by
  simp [writeBytes]

/-- A composed write is its first byte with everything it triggers, and then the rest (R173, R175). -/
theorem Completes.writeBytes_cons {a : Addr} {v : Byte} {vs : List Byte} {s t u : State}
    (first : Completes (writeBytes a [v]) s t) (rest : Completes (writeBytes (a + 1) vs) t u) :
    Completes (writeBytes a (v :: vs)) s u := by
  obtain ⟨hp, n, ht, stack⟩ := first
  obtain ⟨-, m, hu, stack'⟩ := rest
  rw [writeBytes_single] at ht
  rw [stack] at hu stack'
  by_cases waits : (hitsDmaCtrl s.cfg a && !vs.isEmpty) = true
  · obtain ⟨k, run⟩ := runs_above (byteWrite_onTop a v) ht stack (.bytes (a + 1) vs)
    have go : Runs s.stack.length 1 (t.withStack (.bytes (a + 1) vs :: s.stack)) (writeBytes (a + 1) vs t) :=
      Runs.tick (by simp)
        (by simp only [tick, State.withStack_stack, State.withStack_withStack, State.withStack_eq stack])
    refine ⟨hp, k + 1 + m, ?_, stack'⟩
    rw [writeBytes, if_pos waits]
    exact ((run.trans go).fuel m).trans hu
  · cases vs with
    | nil =>
      have same : t = u := (settle_done (congrArg List.length stack).le m).symm.trans hu
      exact ⟨hp, n, by rw [writeBytes_single, ht, same], stack'⟩
    | cons v' vs =>
      have quiet : selectReg s.cfg a .byte ≠ some .dmaCtrl := by simpa [hitsDmaCtrl] using waits
      have done : settle s.stack.length n (byteWrite a v s) = byteWrite a v s :=
        settle_done (by rw [byteWrite_stack_eq quiet]) n
      exact ⟨hp, m, by rw [writeBytes, if_neg waits, ← hu, ← ht, done], stack'⟩

theorem exec_wr8 (a : Addr) (d : Long) (s : State) :
    exec (.wr8 a d) s = command (writeBytes a [d.setWidth 8]) s :=
  command_congr (by rw [writeBytes_single]; exact busWrite_byte a d s)

theorem leadsTo_wr8 {a : Addr} {d : Long} {s t : State} :
    leadsTo (.wr8 a d) s t ↔ Completes (writeBytes a [d.setWidth 8]) s t := leadsTo_iff (exec_wr8 a d s) t

/-- A byte away from `DMA_CTRL` is its own effect, so a composed write that starts with it goes on from there. -/
theorem command_writeBytes_quiet {a : Addr} {d : Long} {s t : State} (quiet : selectReg s.cfg a .byte ≠ some .dmaCtrl)
    (h : exec (.wr8 a d) s = .next t) (vs : List Byte) :
    t.cfg = s.cfg ∧ command (writeBytes a (d.setWidth 8 :: vs)) s = command (writeBytes (a + 1) vs) t := by
  obtain ⟨hp, rfl⟩ := command_cases ((exec_wr8 a d s).symm.trans h)
  have stack := byteWrite_stack_eq quiet (d.setWidth 8)
  have keeps := byteWrite_keeps a (d.setWidth 8) s
  have go : writeBytes a (d.setWidth 8 :: vs) s = writeBytes (a + 1) vs (byteWrite a (d.setWidth 8) s) := by
    simp [writeBytes, hitsDmaCtrl, quiet]
  rw [writeBytes_single, settle_done (by rw [stack])]
  exact ⟨keeps.cfg, by rw [command_provisioned hp, command_provisioned (keeps.provisioned.trans hp), go, stack]⟩

theorem bytesOf_word_shifts (d : Long) : bytesOf .word d = [(d >>> 8).setWidth 8, d.setWidth 8] := by
  rw [byte_of_shift, ← BitVec.ushiftRight_zero (x := d), byte_of_shift]
  rfl

theorem bytesOf_long_shifts (d : Long) : bytesOf .long d =
    [(d >>> 24).setWidth 8, (d >>> 16).setWidth 8, (d >>> 8).setWidth 8, d.setWidth 8] := by
  rw [byte_of_shift, byte_of_shift, byte_of_shift]
  rfl

/-- A write outside the window: its frame, the calls it makes and the bytes it stores. -/
theorem busWrite_storesOnlyItsBytes {s : State} {w : Width} {a : Addr}
    (h : outsideWindow s.cfg a w.step) (d : Long) :
    ∃ new, busWrite w a d s = (s.withMem { s.mem with
        wram := (busWrite w a d s).mem.wram, vram := (busWrite w a d s).mem.vram }).withPort
        { s.port with events := new ++ s.port.events } ∧
      (∀ e ∈ new, isStoreCall e) ∧ ((∀ k, k < w.step → bankOf s.cfg (a + BitVec.ofNat 32 k) ≠ 2) → new = []) := by
  obtain ⟨wram, vram, new, after, calls⟩ := busWrite_storeFrame h d
  refine ⟨new, by rw [after]; rfl, calls, fun hb => ?_⟩
  have port : (busWrite w a d s).port = s.port := by
    have length := bytesOf_length w d
    rw [busWrite_outside h.first]
    exact writeBytes_port (by rwa [length]) fun k hk => hb k (by rwa [length] at hk)
  rw [after] at port
  exact List.append_left_eq_self.mp (congrArg Ports.events port)

/-- Settles O33: outside the window a write is its bytes; and whatever it reaches, `writeBytes` does one byte with
everything it triggers before the next, the ones after an arming byte waiting on the stack meanwhile. -/
theorem writesStoreOnlyTheirOwnBytes : Obligations.WritesStoreOnlyTheirOwnBytes := by
  have word {s : State} {a : Addr} (d : Long) (hn : selectReg s.cfg a .word = none) :
      exec (.wr16 a d) s = command (writeBytes a [(d >>> 8).setWidth 8, d.setWidth 8]) s :=
    command_congr (by rw [busWrite_word, hn, ← bytesOf_word_shifts])
  have long {s : State} {a : Addr} (d : Long) (hn : selectReg s.cfg a .long = none) : exec (.wr32 a d) s = command
      (writeBytes a [(d >>> 24).setWidth 8, (d >>> 16).setWidth 8, (d >>> 8).setWidth 8, d.setWidth 8]) s :=
    command_congr (by rw [busWrite_long, hn, ← bytesOf_long_shifts])
  have next2 (a : Addr) : a + 1 + 1 = a + 2 := BitVec.add_assoc a 1 1
  have next3 (a : Addr) : a + 2 + 1 = a + 3 := BitVec.add_assoc a 2 1
  refine ⟨fun s a d w i hp inv hi h => ?stores, fun s t a d hn => ⟨fun u first second => ?word,
    fun quiet first => ?wordQuiet⟩,
    fun s t u v a d hn => ⟨fun x first second third fourth => ?long, fun quiet first second third => ?longQuiet⟩⟩
  case stores =>
    have exec_i : exec i s = command (busWrite w a d) s := by
      simp only [List.mem_cons, List.not_mem_nil, or_false, Prod.mk.injEq] at hi
      obtain ⟨rfl, rfl⟩ | ⟨rfl, rfl⟩ | ⟨rfl, rfl⟩ := hi <;> rfl
    obtain ⟨-, ok⟩ := inv_iff.mp inv
    obtain ⟨new, after, calls, none⟩ := busWrite_storesOnlyItsBytes h d
    exact ⟨_, new, exec_i.trans (command_busWrite_outside hp h d), after, calls, none,
      fun k j => (busWrite_wram h ok d j).1 k, fun j => (busWrite_wram h ok d j).2,
      fun k j => (busWrite_vram h ok d j).1 k, fun j => (busWrite_vram h ok d j).2⟩
  case word =>
    rw [leadsTo_wr8] at first second
    exact (leadsTo_iff (word d hn) u).mpr (first.writeBytes_cons second)
  case wordQuiet => rw [word d hn, (command_writeBytes_quiet quiet first _).2, exec_wr8]
  case long =>
    rw [leadsTo_wr8] at first second third fourth
    rw [← next2] at third
    rw [← next3, ← next2] at fourth
    have last := third.writeBytes_cons fourth
    exact (leadsTo_iff (long d hn) x).mpr (first.writeBytes_cons (second.writeBytes_cons last))
  case longQuiet =>
    have quiet0 := quiet 0 (by omega)
    rw [add_ofNat_zero] at quiet0
    obtain ⟨cfg, go⟩ := command_writeBytes_quiet quiet0 first
      [(d >>> 16).setWidth 8, (d >>> 8).setWidth 8, d.setWidth 8]
    obtain ⟨cfg', go'⟩ := command_writeBytes_quiet (by rw [cfg]; exact quiet 1 (by omega)) second
      [(d >>> 8).setWidth 8, d.setWidth 8]
    obtain ⟨-, go''⟩ := command_writeBytes_quiet (by rw [cfg', cfg]; exact quiet 2 (by omega)) third [d.setWidth 8]
    rw [long d hn, go, go', next2, go'', next3, exec_wr8]

/-! ## Reading back what was written (R98) -/

/-- A byte of RAM is read without side effect. -/
theorem ramByte.plain {c : Cfg} {a : Addr} (h : ramByte c a) : plainAddr c a := by
  obtain ⟨outside, ⟨bank, -⟩ | ⟨bank, -⟩⟩ := h <;> exact ⟨outside, by rw [bank]; decide⟩

/-- A write whose bytes all lie in RAM is read back byte by byte. -/
theorem plainByte_busWrite {s : State} (inv : s.inv = true) {w : Width} {a : Addr}
    (h : ∀ i, i < w.step → ramByte s.cfg (a + BitVec.ofNat 32 i)) (d : Long) {k : Nat} (hk : k < w.step) :
    plainByte (busWrite w a d s) (a + BitVec.ofNat 32 k) = d.extractLsb' (8 * (w.step - 1 - k)) 8 := by
  obtain ⟨legal, ok⟩ := inv_iff.mp inv
  have outside : outsideWindow s.cfg a w.step := fun i hi => (h i hi).1
  have cfg : (busWrite w a d s).cfg = s.cfg := (busWrite_keeps w a d s).cfg
  have step_le : w.step ≤ 4 := by cases w <;> decide
  obtain ⟨outside_k, ⟨bank, below⟩ | ⟨bank, below⟩⟩ := h k hk
  · have index : offOf (a + BitVec.ofNat 32 k) &&& (s.cfg.wramSize - 1) = offOf (a + BitVec.ofNat 32 k) :=
      isPow2_and (cfgWf_wramSize legal) below
    have stored := (busWrite_wram outside ok d _).1 k hk ⟨outside_k, bank, rfl, below⟩
    simp only [plainByte, wramRead, cfg, bank, index, stored]
    rfl
  · have index : offOf (a + BitVec.ofNat 32 k) &&& s.cfg.vramWinMask = offOf (a + BitVec.ofNat 32 k) :=
      vramWinMask_and legal below
    have last : ∀ l, k < l → l < w.step →
        ¬ storesVram s.cfg (a + BitVec.ofNat 32 l) (offOf (a + BitVec.ofNat 32 k)) := by
      rintro l hl hl' ⟨-, bank_l, same, -⟩
      obtain ⟨-, ⟨bank', -⟩ | ⟨-, below_l⟩⟩ := h l hl'
      · rw [bank'] at bank_l; cases bank_l
      · rw [vramWinMask_and legal below_l] at same
        have := offOf_add_inj (a := a) (i := l) (j := k) (by omega) (by omega) same
        omega
    have stored := (busWrite_vram outside ok d _).1 k hk ⟨outside_k, bank, index, below⟩ last
    simp only [plainByte, vramRead, vramIndex, cfg, bank, index, below, stored]
    rfl

/-- A read of RAM answers what a write of the same width put there, cut to the width. -/
theorem busRead_busWrite {s : State} (inv : s.inv = true) {w : Width} {a : Addr}
    (h : ∀ i, i < w.step → ramByte s.cfg (a + BitVec.ofNat 32 i)) (d : Long) :
    busRead w a (busWrite w a d s) = (truncTo w d, busWrite w a d s) := by
  have cfg : (busWrite w a d s).cfg = s.cfg := (busWrite_keeps w a d s).cfg
  have bytes : plainBytes (busWrite w a d s) a w.step = bytesOf w d := by
    apply List.ext_getElem (by simp [plainBytes, bytesOf_length])
    intro k hk hk'
    rw [bytesOf_length] at hk'
    rw [bytesOf_getElem]
    simp only [plainBytes, List.getElem_map, List.getElem_range, plainByte_busWrite inv h d hk']
  rw [busRead_plain fun i hi => by rw [cfg]; exact (h i hi).plain, bytes, longOfBytes_bytesOf_cut]

/-- Settles O34. -/
theorem ramReadsBackWhatWasWritten : Obligations.RamReadsBackWhatWasWritten := by
  intro s a d hp inv
  have roundTrip (w : Width) (h : ∀ i, i < w.step → ramByte s.cfg (a + BitVec.ofNat 32 i)) :
      ∃ t, command (busWrite w a d) s = .next t ∧
        command (readCommand (busRead w a)) t = .next (answer (truncTo w d) t) := by
    refine ⟨_, command_busWrite_outside hp (fun i hi => (h i hi).1) d, ?_⟩
    rw [command_busRead ((busWrite_keeps w a d s).provisioned.trans hp), busRead_busWrite inv h]
  have low8 : truncTo .byte d = d &&& 0xFF := by
    apply BitVec.eq_of_toNat_eq
    simp [truncTo, Nat.and_two_pow_sub_one_eq_mod d.toNat 8]
    omega
  have low16 : truncTo .word d = d &&& 0xFFFF := by
    apply BitVec.eq_of_toNat_eq
    simp [truncTo, Nat.and_two_pow_sub_one_eq_mod d.toNat 16]
    omega
  refine ⟨fun h => ?_, fun h => ?_, fun h => roundTrip .long h⟩
  · rw [← low8]
    refine roundTrip .byte fun i (hi : i < 1) => ?_
    rw [Nat.lt_one_iff.mp hi, add_ofNat_zero]
    exact h
  · rw [← low16]
    exact roundTrip .word h

/-! ## Wide accesses to a device (R77) -/

/-- A byte at place `o` of the device in `slot`. -/
def DeviceByte (c : Cfg) (slot : Fin 16) (o : Nat) (a : Addr) : Prop :=
  inWindow c a = false ∧ bankOf c a = 2 ∧ devHit c (offOf a) = some (slot.val, o)

theorem byteRead_device {s : State} {slot : Fin 16} {o : Nat} {a : Addr} (h : DeviceByte s.cfg slot o a) :
    byteRead a s = devRead slot o s := by
  obtain ⟨outside, bank, hit⟩ := h
  rw [byteRead_outside outside, bank, regionOf]
  simp [regionRead, devWindowRead, hit]

theorem byteWrite_device {s : State} {slot : Fin 16} {o : Nat} {a : Addr} (h : DeviceByte s.cfg slot o a) (v : Byte) :
    byteWrite a v s = devWrite slot o v s := by
  obtain ⟨outside, bank, hit⟩ := h
  rw [byteWrite_outside outside, bank, regionOf]
  simp [regionWrite, devWindowWrite, hit]

/-- The record of calls after reads of `n` places from `r` on, newest first. -/
def deviceReads (slot r : Nat) : Nat → List PortEvent → List PortEvent
  | 0, events => events
  | n + 1, events => deviceReads slot (r + 1) n (.devRead slot r :: events)

/-- The record of calls after writes of bytes to the places from `r` on, newest first. -/
def deviceWrites (slot r : Nat) : List Byte → List PortEvent → List PortEvent
  | [], events => events
  | v :: vs, events => deviceWrites slot (r + 1) vs (.devWrite slot r v :: events)

/-- The `n` bytes from `a` on are places of one device, from `r` on. -/
def DeviceBytes (c : Cfg) (slot : Fin 16) (r : Nat) (a : Addr) (n : Nat) : Prop :=
  ∀ i, i < n → DeviceByte c slot (r + i) (a + BitVec.ofNat 32 i)

theorem DeviceBytes.head {c : Cfg} {slot : Fin 16} {r n : Nat} {a : Addr} (h : DeviceBytes c slot r a (n + 1)) :
    DeviceByte c slot r a := by
  simpa using h 0 (Nat.succ_pos n)

theorem DeviceBytes.tail {c : Cfg} {slot : Fin 16} {r n : Nat} {a : Addr} (h : DeviceBytes c slot r a (n + 1)) :
    DeviceBytes c slot (r + 1) (a + 1) n := by
  intro i hi
  have next := h (i + 1) (Nat.succ_lt_succ hi)
  rwa [add_ofNat_succ, Nat.add_comm i 1, ← Nat.add_assoc] at next

theorem writeBytes_device {slot : Fin 16} {vs : List Byte} {r : Nat} {a : Addr} {s : State}
    (h : DeviceBytes s.cfg slot r a vs.length) :
    writeBytes a vs s = s.withPort { s.port with events := deviceWrites slot r vs s.port.events } := by
  induction vs generalizing a r s with
  | nil => rfl
  | cons v vs ih =>
    rw [writeBytes_cons h.head.1, byteWrite_device h.head]
    exact ih (s := devWrite slot r v s) h.tail

theorem readBytes_device_listed {slot : Fin 16} {xs rest : List Nat} {r : Nat} {a : Addr} {s : State} (acc : Long)
    (h : DeviceBytes s.cfg slot r a xs.length) (answers : s.port.devAnswers = xs ++ rest) :
    readBytes xs.length a acc s = ((xs.map (BitVec.ofNat 8)).foldl appendByte acc, s.withPort { s.port with
      devAnswers := rest, events := deviceReads slot r xs.length s.port.events }) := by
  induction xs generalizing a r s acc with
  | nil =>
    rw [List.nil_append] at answers
    rw [← answers]
    rfl
  | cons x xs ih =>
    rw [List.length_cons, readBytes, byteRead_device h.head, devRead_listed answers]
    exact ih _ h.tail rfl

theorem readBytes_device_free {slot : Fin 16} {n r : Nat} {a : Addr} {s : State} (acc : Long)
    (h : DeviceBytes s.cfg slot r a n) (answers : s.port.devAnswers = []) :
    ∃ v, readBytes n a acc s = (v, s.withPort { s.port with
      draws := s.port.draws + n, events := deviceReads slot r n s.port.events }) := by
  induction n generalizing a r s acc with
  | zero => exact ⟨acc, rfl⟩
  | succ n ih =>
    obtain ⟨v, hv⟩ := ih (s := (devRead slot r s).2) (appendByte acc (devRead slot r s).1)
      (by rw [(devRead_readFrame _ _ s).cfg]; exact h.tail) (by rw [devRead_free answers]; exact answers)
    have count : s.port.draws + (n + 1) = s.port.draws + 1 + n := by omega
    refine ⟨v, ?_⟩
    rw [readBytes, byteRead_device h.head, hv, devRead_free answers, count]
    rfl

theorem appendByte_ofNat (u x : Nat) :
    appendByte (BitVec.ofNat 32 u) (BitVec.ofNat 8 x) = BitVec.ofNat 32 (u * 256 + x % 256) := by
  have disjoint : BitVec.ofNat 32 u <<< 8 &&& (BitVec.ofNat 8 x).setWidth 32 = 0 := by
    apply BitVec.eq_of_getLsbD_eq
    intro i hi
    simp only [BitVec.getLsbD_and, BitVec.getLsbD_shiftLeft, BitVec.getLsbD_setWidth]
    by_cases low : i < 8
    · simp [low]
    · rw [BitVec.getLsbD_of_ge (BitVec.ofNat 8 x) i (by omega)]; simp
  rw [appendByte, ← BitVec.add_eq_or_of_and_eq_zero _ _ disjoint, devAnswer_cut, BitVec.shiftLeft_eq_mul_twoPow,
    BitVec.ofNat_add, BitVec.ofNat_mul]
  rfl

/-- Settles O35: every byte is a call of the same device, the next place with each byte. -/
theorem wideDeviceAccessesAreByteCallsInOrder : Obligations.WideDeviceAccessesAreByteCallsInOrder := by
  intro s a d slot r n hp present outside h
  have device : DeviceBytes s.cfg slot r a n := by
    intro i hi
    obtain ⟨bank, block, place⟩ := h i hi
    exact ⟨outside i hi, bank, by rw [devHit_present block present, place]⟩
  have width (w : Width) (hn : n = w.step) : outsideWindow s.cfg a w.step ∧ DeviceBytes s.cfg slot r a w.step :=
    ⟨hn ▸ outside, hn ▸ device⟩
  have write (w : Width) (hn : n = w.step) : command (busWrite w a d) s = .next (s.withPort { s.port with
      events := deviceWrites slot r (bytesOf w d) s.port.events }) := by
    obtain ⟨outside, device⟩ := width w hn
    rw [command_busWrite_outside hp outside, busWrite_outside outside.first,
      writeBytes_device (by rwa [bytesOf_length])]
  have listed (w : Width) (hn : n = w.step) (xs rest : List Nat) (hx : xs.length = w.step)
      (answers : s.port.devAnswers = xs ++ rest) : command (readCommand (busRead w a)) s = .next (s.withPort
        { s.port with devAnswers := rest, events := deviceReads slot r xs.length s.port.events,
                      result := longOfBytes (xs.map (BitVec.ofNat 8)) }) := by
    obtain ⟨outside, device⟩ := width w hn
    rw [command_busRead hp, busRead_outside outside.first, ← hx, readBytes_device_listed 0 (by rwa [hx]) answers]
    rfl
  have free (w : Width) (hn : n = w.step) (answers : s.port.devAnswers = []) :
      ∃ v : Long, v.toNat < 2 ^ (8 * w.step) ∧ command (readCommand (busRead w a)) s = .next (s.withPort { s.port with
        draws := s.port.draws + w.step, events := deviceReads slot r w.step s.port.events, result := v }) := by
    obtain ⟨outside, device⟩ := width w hn
    obtain ⟨v, hv⟩ := readBytes_device_free 0 device answers
    have fits := busRead_fits w a s
    rw [busRead_outside outside.first, hv] at fits
    refine ⟨v, fits, ?_⟩
    rw [command_busRead hp, busRead_outside outside.first, hv]
    rfl
  have two (x y : Nat) : longOfBytes ([x, y].map (BitVec.ofNat 8)) = BitVec.ofNat 32 (x % 256 * 256 + y % 256) := by
    have first := appendByte_ofNat 0 x
    simp only [Nat.zero_mul, Nat.zero_add] at first
    exact (congrArg (appendByte · _) first).trans (appendByte_ofNat _ y)
  have four (x y z w : Nat) : longOfBytes ([x, y, z, w].map (BitVec.ofNat 8)) =
      BitVec.ofNat 32 (((x % 256 * 256 + y % 256) * 256 + z % 256) * 256 + w % 256) := by
    have third := (congrArg (appendByte · (BitVec.ofNat 8 z)) (two x y)).trans (appendByte_ofNat _ z)
    exact (congrArg (appendByte · _) third).trans (appendByte_ofNat _ w)
  refine ⟨fun hn => ⟨write .word hn, fun x y rest answers => ?_, fun answers => ?_⟩,
    fun hn => ⟨write .long hn, fun x y z w rest answers => ?_, fun answers => ?_⟩⟩
  · rw [← two]
    exact listed .word hn [x, y] rest rfl answers
  · obtain ⟨v, fits, hv⟩ := free .word hn answers
    have half : (v.setWidth 16).setWidth 32 = v := by
      apply BitVec.eq_of_toNat_eq
      simp only [BitVec.toNat_setWidth, Width.step] at fits ⊢
      omega
    refine ⟨v.setWidth 16, ?_⟩
    rw [half]
    exact hv
  · rw [← four]
    exact listed .long hn [x, y, z, w] rest rfl answers
  · obtain ⟨v, -, hv⟩ := free .long hn answers
    exact ⟨v, hv⟩

end Sys2Proof.Machine
end

section
/-! Scanline events (43_hdma.md section 2): one channel on one line, and the eight channels in order. -/

namespace Sys2Proof.Machine

/-! ## One channel (R293) -/

theorem hdmaServe_inactive {h : HdmaChannel} {n : Nat} (inactive : hdmaActive h n = false) (s : State) :
    hdmaServe h n s = s :=
  if_neg (Bool.eq_false_iff.mp inactive)

theorem hdmaServe_rejected {h : HdmaChannel} {s : State} (none : widthOf s.cfg h.width = none) (n : Nat) :
    hdmaServe h n s = s := by
  unfold hdmaServe
  rw [none]
  split <;> rfl

theorem hdmaServe_active {h : HdmaChannel} {n : Nat} {s : State} {w : Width} (active : hdmaActive h n = true)
    (some : widthOf s.cfg h.width = some w) :
    hdmaServe h n s = busWrite w h.dst (busRead w (h.src + BitVec.ofNat 32 (hdmaIndex h n * w.step)) s).1
      (busRead w (h.src + BitVec.ofNat 32 (hdmaIndex h n * w.step)) s).2 := by
  unfold hdmaServe
  rw [if_pos active, some]

theorem hdmaActive_iff {h : HdmaChannel} {n : Nat} : hdmaActive h n = true ↔
    h.en = true ∧ h.start.toNat ≤ n ∧ n < h.start.toNat + h.count.toNat := by
  simp [hdmaActive, and_assoc]

/-- Settles O36. -/
theorem aChannelTransfersOneUnitOnItsLines : Obligations.AChannelTransfersOneUnitOnItsLines := by
  intro h n s
  refine ⟨fun out => hdmaServe_inactive ?_ s, fun en first last => ⟨fun none => hdmaServe_rejected none n, ?_⟩⟩
  · rw [Bool.eq_false_iff, ne_eq, hdmaActive_iff]
    rintro ⟨en, first, last⟩
    obtain off | before | after := out
    · rw [off] at en; cases en
    · omega
    · omega
  · rintro w hw _ rfl
    exact hdmaServe_active (hdmaActive_iff.mpr ⟨en, first, last⟩) hw

/-- The write of an active channel reaches no register that arms an engine or belongs to a channel. -/
def QuietChannel (c : Cfg) (h : HdmaChannel) (n : Nat) : Prop :=
  ∀ w, hdmaActive h n = true → widthOf c h.width = some w → ∀ r, reaches c h.dst w r →
    r ≠ .dmaCtrl ∧ r ≠ .blitFunc ∧ ∀ c, r ≠ .hdmaCtrl c ∧ r ≠ .hdmaSrc c ∧ r ≠ .hdmaDst c

/-- A channel is idle on a line, or transfers one unit. -/
theorem hdmaServe_cases (h : HdmaChannel) (n : Nat) (s : State) : (∀ k, hdmaServe h n (s.withStack k) = s.withStack k) ∨
    ∃ w, hdmaActive h n = true ∧ widthOf s.cfg h.width = some w := by
  cases active : hdmaActive h n with
  | false => exact .inl fun k => hdmaServe_inactive active _
  | true =>
    cases hw : widthOf s.cfg h.width with
    | none => exact .inl fun k => hdmaServe_rejected (s := s.withStack k) hw n
    | some w => exact .inr ⟨w, rfl, rfl⟩

/-- A quiet channel does the same on every stack, and leaves the stack and the channels alone. -/
theorem hdmaServe_quiet {h : HdmaChannel} {n : Nat} {s : State} (quiet : QuietChannel s.cfg h n) :
    (∀ k, hdmaServe h n (s.withStack k) = (hdmaServe h n s).withStack k) ∧ (hdmaServe h n s).stack = s.stack ∧
      (hdmaServe h n s).hdma = s.hdma := by
  obtain idle | ⟨w, active, hw⟩ := hdmaServe_cases h n s
  · have here : hdmaServe h n s = s := idle s.stack
    exact ⟨fun k => by rw [idle, here], by rw [here], by rw [here]⟩
  · have read := busRead_readFrame w (h.src + BitVec.ofNat 32 (hdmaIndex h n * w.step)) s
    have target : ∀ r, reaches (busRead w (h.src + BitVec.ofNat 32 (hdmaIndex h n * w.step)) s).2.cfg h.dst w r →
        r ≠ .dmaCtrl ∧ r ≠ .blitFunc ∧ ∀ c, r ≠ .hdmaCtrl c ∧ r ≠ .hdmaSrc c ∧ r ≠ .hdmaDst c := by
      rw [read.cfg]
      exact quiet w active hw
    have arms := fun r hr => And.intro (target r hr).1 (target r hr).2.1
    refine ⟨fun k => ?_, ?_, ?_⟩
    · rw [hdmaServe_active (s := s.withStack k) active hw, hdmaServe_active active hw, busRead_withStack]
      exact busWrite_withStack k arms
    · rw [hdmaServe_active active hw, busWrite_stack_eq arms, read.stack]
    · rw [hdmaServe_active active hw, busWrite_hdma_eq target, read.hdma]

/-! ## The eight channels (R292) -/

theorem exec_line {n : BitVec 32} {i : Instr} (hi : i ∈ [.line n, .hdmaLine n]) (s : State) :
    exec i s = command (lineEvent n) s := by
  simp only [List.mem_cons, List.not_mem_nil, or_false] at hi
  obtain rfl | rfl := hi <;> rfl

/-- The event stands at its next channel, which is served with its registers as they are then. -/
theorem tick_line {n k : Nat} (hk : k < 8) (t : State) (base : List Activation) :
    tick (t.withStack (.hdma n k :: base)) = hdmaServe t.hdma[k] n (t.withStack (.hdma n (k + 1) :: base)) := by
  simp only [tick, State.withStack_stack, hdmaTick, dif_pos hk, State.withStack_hdma, State.withStack_withStack]

/-- After the last channel the event leaves the stack. -/
theorem runs_line_done (n : Nat) (t : State) :
    Runs t.stack.length 1 (t.withStack (.hdma n 8 :: t.stack)) t :=
  Runs.tick (by simp) (by simp [tick, hdmaTick])

/-- The channels as they were configured when the event began, served up to channel `k`. -/
def servedUpTo (s : State) (n k : Nat) : State :=
  ((List.finRange 8).take k).foldl (fun t ch => hdmaServe s.hdma[ch] n t) s

theorem servedUpTo_succ (s : State) (n : Nat) {k : Nat} (hk : k < 8) :
    servedUpTo s n (k + 1) = hdmaServe s.hdma[k] n (servedUpTo s n k) := by
  rw [servedUpTo, List.take_succ_eq_append_getElem (by simpa using hk), List.foldl_append]
  simp [servedUpTo]

/-- Quiet channels: the event is the channels as they were configured at its start, one after the other. -/
theorem command_line_quiet {s : State} (hp : s.provisioned = true) {n : BitVec 32}
    (quiet : ∀ ch : Fin 8, QuietChannel s.cfg s.hdma[ch] n.toNat) :
    command (lineEvent n) s = .next (servedUpTo s n.toNat 8) := by
  obtain ⟨m, t, hm, run, rfl, -, -, stack⟩ := Runs.loop (depth := s.stack.length) (c := 1) (n := 8)
    (P := fun k t => t = (servedUpTo s n.toNat k).withStack (.hdma n.toNat k :: s.stack) ∧
      (servedUpTo s n.toNat k).cfg = s.cfg ∧ (servedUpTo s n.toNat k).hdma = s.hdma ∧
      (servedUpTo s n.toNat k).stack = s.stack)
    (fun k t hk ⟨ht, cfg, hdma, stack⟩ => by
      have served := servedUpTo_succ s n.toNat hk
      have channel : QuietChannel (servedUpTo s n.toNat k).cfg s.hdma[k] n.toNat := by
        rw [cfg]; exact quiet ⟨k, hk⟩
      obtain ⟨anyStack, stack', hdma'⟩ := hdmaServe_quiet channel
      refine ⟨1, _, Nat.le_refl 1, Runs.tick (by simp [ht]) rfl, ?_, ?_, ?_, ?_⟩
      · simp only [ht, tick_line hk, hdma, anyStack, served]
      · rw [served, (hdmaServe_progress _ _ _).1.cfg, cfg]
      · rw [served, hdma', hdma]
      · rw [served, stack', stack])
    (s := lineEvent n s) ⟨rfl, rfl, rfl, rfl⟩
  have last := runs_line_done n.toNat (servedUpTo s n.toNat 8)
  rw [stack] at last
  exact command_runs hp (run.trans last) stack (by unfold Config.burst; omega)

/-- Settles O37: without arming the run is eight micro-steps, one for each channel; in every case what a channel's write
arms runs on top of the event, which waits for it with its next channel. -/
theorem aLineServesTheChannelsInOrder : Obligations.ALineServesTheChannelsInOrder := by
  refine ⟨fun s n i hp hi quiet => ?_, fun s n i served hp hi start each => ?_⟩
  · exact (exec_line hi s).trans (command_line_quiet hp fun ch w active hw => quiet ch w active hw)
  · have upTo : ∀ k, k ≤ 8 → (served k).stack = s.stack ∧
        ∃ m, Runs s.stack.length m (lineEvent n s) ((served k).withStack (.hdma n.toNat k :: s.stack)) := by
      intro k
      induction k with
      | zero => exact fun _ => ⟨by rw [start], 0, by rw [start]; rfl⟩
      | succ k ih =>
        intro hk
        obtain ⟨stack, m, run⟩ := ih (by omega)
        obtain ⟨fuel, serve, stack'⟩ := each ⟨k, by omega⟩
        rw [← stack] at serve
        obtain ⟨m', channel⟩ := runs_above (hdmaServe_onTop _ _) serve (by rw [stack]; exact stack')
          (.hdma n.toNat (k + 1))
        rw [stack] at channel
        have go : Runs s.stack.length 1 ((served k).withStack (.hdma n.toNat k :: s.stack)) _ :=
          Runs.tick (by simp) (tick_line (by omega) (served k) s.stack)
        exact ⟨stack', m + 1 + m', (run.trans go).trans channel⟩
    obtain ⟨stack, m, run⟩ := upTo 8 (Nat.le_refl 8)
    have last := runs_line_done n.toNat (served 8)
    rw [stack] at last
    exact (leadsTo_iff (exec_line hi s) (served 8)).mpr
      ⟨hp, m + 1, (run.trans last).settle (by rw [stack]) (Nat.le_refl _), stack⟩

/-! ## A scroll register as target (R207, R209) -/

/-- Where all but one element of a list do nothing, the list does what that one does. -/
theorem foldl_only {α β : Type} {f : α → β → α} {b : β} (others : ∀ c, c ≠ b → ∀ a, f a c = a) {l : List β}
    (nodup : l.Nodup) (mem : b ∈ l) (a : α) : l.foldl f a = f a b := by
  have none {l : List β} (h : b ∉ l) (a : α) : l.foldl f a = a := by
    induction l generalizing a with
    | nil => rfl
    | cons c l ih =>
      obtain ⟨hc, hl⟩ := List.ne_and_not_mem_of_not_mem_cons h
      rw [List.foldl_cons, others c hc.symm, ih hl]
  induction l generalizing a with
  | nil => cases mem
  | cons c l ih =>
    obtain ⟨fresh, nodup⟩ := List.nodup_cons.mp nodup
    rw [List.foldl_cons]
    by_cases hc : c = b
    · rw [hc] at fresh ⊢
      exact none fresh _
    · rw [others c hc, ih nodup ((List.mem_cons.mp mem).resolve_left (Ne.symm hc))]

/-- A word write at the address of a scroll register is the write of that register. -/
theorem nativeReg_regAddr {c : Cfg} (legal : cfgWf c = true) {r : Reg} {w : Width} (hw : regWidth r = w)
    (wide : w ≠ .byte) : nativeReg c (regAddr c r) w = some r := by
  have select := selectReg_regAddr legal r
  rw [hw] at select
  cases w
  case byte => exact absurd rfl wide
  all_goals exact select

theorem busWrite_native {s : State} {a : Addr} {w : Width} {r : Reg} (h : nativeReg s.cfg a w = some r) (v : Long) :
    busWrite w a v s = regWrite r (truncTo w v) s := by
  rw [busWrite, h]

theorem reaches_native {c : Cfg} {a : Addr} {w : Width} {r r' : Reg} (h : nativeReg c a w = some r)
    (hr : reaches c a w r') : r' = r := by
  obtain native | ⟨none, -⟩ := hr
  · exact (Option.some.inj (h.symm.trans native)).symm
  · rw [h] at none; cases none

/-- The low 9 bits of a word read and cut to 16 bits. -/
theorem scroll_of_word (x : Half) : (truncTo .word (x.setWidth 32)).setWidth 9 = x.extractLsb' 0 9 := by
  rw [truncTo_setWidth .word x (Nat.le_refl 16), scroll_of_half]

/-- A lone active word channel moves one plain word into the word register it targets. -/
theorem command_line_word {s : State} (hp : s.provisioned = true) (inv : s.inv = true) {n : BitVec 32} {ch : Fin 8}
    {r : Reg} (active : hdmaActive s.hdma[ch] n.toNat = true) (width : s.hdma[ch].width = 1)
    (alone : ∀ c : Fin 8, c ≠ ch → hdmaActive s.hdma[c] n.toNat = false)
    (target : s.hdma[ch].dst = regAddr s.cfg r) (word : regWidth r = .word)
    (quiet : r ≠ .dmaCtrl ∧ r ≠ .blitFunc ∧ ∀ c, r ≠ .hdmaCtrl c ∧ r ≠ .hdmaSrc c ∧ r ≠ .hdmaDst c) {src : Addr}
    (source : src = s.hdma[ch].src + BitVec.ofNat 32 (2 * hdmaIndex s.hdma[ch] n.toNat))
    (plain : plainAddr s.cfg src) (plain' : plainAddr s.cfg (src + 1)) :
    command (lineEvent n) s =
      .next (regWrite r (truncTo .word ((plainByte s src ++ plainByte s (src + 1)).setWidth 32)) s) := by
  obtain ⟨legal, -⟩ := inv_iff.mp inv
  have code : widthOf s.cfg s.hdma[ch].width = some .word := by rw [width]; rfl
  have native : nativeReg s.cfg s.hdma[ch].dst .word = some r := by
    rw [target]; exact nativeReg_regAddr legal word (by decide)
  have channels (c : Fin 8) : QuietChannel s.cfg s.hdma[c] n.toNat := by
    intro w active' hw r' hr
    by_cases hc : c = ch
    · subst hc
      obtain rfl : Width.word = w := Option.some.inj (code.symm.trans hw)
      rw [reaches_native native hr]
      exact quiet
    · rw [alone c hc] at active'; cases active'
  have bytes : ∀ i, i < Width.word.step → plainAddr s.cfg (src + BitVec.ofNat 32 i) := by
    intro i (hi : i < 2)
    interval_cases i
    · simpa using plain
    · exact plain'
  have index : hdmaIndex s.hdma[ch] n.toNat * Width.word.step = 2 * hdmaIndex s.hdma[ch] n.toNat := Nat.mul_comm _ _
  have only : servedUpTo s n.toNat 8 = hdmaServe s.hdma[ch] n.toNat s :=
    foldl_only (fun c hc t => hdmaServe_inactive (alone c hc) t) (List.nodup_finRange 8) (List.mem_finRange ch) s
  rw [command_line_quiet hp channels, only, hdmaServe_active active code, index, ← source, busRead_plain bytes,
    busWrite_native native, Width.step, plainBytes_two, longOfBytes_two]

/-- Settles O38. -/
theorem aLineMovesAWordIntoAScrollRegister : Obligations.ALineMovesAWordIntoAScrollRegister := by
  rintro s n ch x i hp inv hi active width alone _ src rfl source plain plain'
  refine ⟨fun target => ?_, fun target => ?_⟩
  · rw [exec_line hi, command_line_word hp inv active width alone target rfl (by simp) source plain plain', regWrite,
      setScrollX, scroll_of_word]
  · rw [exec_line hi, command_line_word hp inv active width alone target rfl (by simp) source plain plain', regWrite,
      setScrollY, scroll_of_word]

end Sys2Proof.Machine
end

section
/-! The DMA engine (42_dma.md): the general path as its units one after the other, where no unit's write reaches a
register that disturbs the transfer; what such a transfer leaves alone, and what it stores in working RAM and video RAM;
the fast path; and width code 3. -/

namespace Sys2Proof.Machine

/-! ## Arming (R260, R275) -/

/-- The control word as a command, and the write that carries it, arm the same transfer (R218). -/
theorem exec_dma {const : Bool} {code : BitVec 2} {si di : Bool} {i : Instr}
    (hi : i ∈ [dmaCommand const code si di, .dmaCtrlW (dmacWord const code si di true)]) (s : State) :
    exec i s = command (dmaStart const code si di) s := by
  simp only [List.mem_cons, List.not_mem_nil, or_false] at hi
  obtain rfl | rfl := hi
  · exact exec_dmaCommand const code si di s
  · obtain ⟨start, src, dst, k, w⟩ := dmac_fields const code si di true
    have arm : dmaArm (dmacWord const code si di true) s = dmaStart const code si di s := by
      rw [dmaArm, if_pos start, src, dst, k, w]
    exact command_congr ((regWrite_dmaCtrl _ s).trans arm)

theorem dmaStart_rejected {code : BitVec 2} {s : State} (h : widthOf s.cfg code = none) (const si di : Bool) :
    dmaStart const code si di s = s := by
  rw [dmaStart, h]

theorem dmaStart_fast {const : Bool} {code : BitVec 2} {w : Width} {s : State} (h : widthOf s.cfg code = some w)
    (fast : fastPath const w s = true) (si di : Bool) : dmaStart const code si di s = dmaFastFill si di s := by
  rw [dmaStart, h]
  exact if_pos fast

theorem dmaStart_general {const : Bool} {code : BitVec 2} {w : Width} {s : State} (h : widthOf s.cfg code = some w)
    (general : fastPath const w s = false) (si di : Bool) :
    dmaStart const code si di s =
      push (.dma { srcInc := si, dstInc := di, const := const, width := w } false) s := by
  rw [dmaStart, h]
  exact if_neg (Bool.eq_false_iff.mp general)

theorem widthOf_three_long {c : Cfg} (h : c.width3 = .long) : widthOf c 3 = widthOf c 2 := by
  simp [widthOf, h]

theorem widthOf_three_reject {c : Cfg} (h : c.width3 = .reject) : widthOf c 3 = none := by
  simp [widthOf, h]

theorem blitStart_rejected {f : BlitFields} {s : State} (h : widthOf s.cfg f.width = none) (op : BlitOp) (skip : Bool) :
    blitStart op f skip s = s := by
  rw [blitStart, h]

theorem rleStart_rejected {f : BlitFields} {s : State} (h : widthOf s.cfg f.width = none) (skip : Bool) :
    rleStart f skip s = s := by
  rw [rleStart, h]

/-- Settles O40: code 3 has the width of code 2 or none, and no other part of a control word looks at the code. -/
theorem widthCodeThreeFollowsTheParameter : Obligations.WidthCodeThreeFollowsTheParameter := by
  refine ⟨fun s si di hp => ⟨fun long => ?dmaLong, fun reject const => ?dmaReject⟩,
    fun s f skip op hp hf => ⟨fun long => ?blitLong, fun reject => ?blitReject⟩⟩
  case dmaLong =>
    have same (const : Bool) : dmaStart const 3 si di s = dmaStart const 2 si di s := by
      simp only [dmaStart, widthOf_three_long long]
    exact ⟨command_congr (same false), command_congr (same true)⟩
  case dmaReject => exact command_of_effect hp (dmaStart_rejected (widthOf_three_reject reject) const si di) rfl
  case blitLong =>
    have blit : blitStart op f skip s = blitStart op { f with width := 2 } skip s := by
      simp only [blitStart, hf, widthOf_three_long long]
      rfl
    have rle : rleStart f skip s = rleStart { f with width := 2 } skip s := by
      simp only [rleStart, hf, widthOf_three_long long]
      rfl
    exact ⟨by rw [exec_blitCommand, exec_blitCommand, command_congr blit], command_congr rle⟩
  case blitReject =>
    have none : widthOf s.cfg f.width = none := by rw [hf]; exact widthOf_three_reject reject
    exact ⟨(exec_blitCommand op skip f s).trans (command_of_effect hp (blitStart_rejected none op skip) rfl),
      command_of_effect hp (rleStart_rejected none skip) rfl⟩

/-! ## The fast path (R266) -/

/-- Settles O46. -/
theorem theFastFillStoresTheLowByte : Obligations.TheFastFillStoresTheLowByte := by
  intro s si di i hp inv hi bank outside
  obtain ⟨-, ok⟩ := inv_iff.mp inv
  have fast : fastPath true .long s = true := by simp [fastPath, bank, outside]
  have start : dmaStart true 2 si di s = dmaFastFill si di s := dmaStart_fast rfl fast si di
  have low : s.dma.src.setWidth 8 = s.dma.src.extractLsb' 0 8 := byte_of_shift s.dma.src 0
  refine ⟨dmaFastFill si di s, ?_, fun j => ?_, rfl⟩
  · rw [exec_dma (const := true) (code := 2) hi]
    exact command_of_effect hp start rfl
  · simp only [dmaFastFill, State.withDma_mem, State.withMem_mem, Memory.read_fill (memOk.wram_wf ok), fillCount, low]
    congr 1
    rw [eq_iff_iff]
    omega

/-! ## The general path as a sequence of units (R264) -/

/-- One unit of a transfer: its accesses, then its registers. -/
def dmaUnit (l : DmaLatch) (s : State) : State :=
  dmaUpdate l (busWrite l.width s.dma.dst (dmaDatum l s).1 (dmaDatum l s).2)

/-- The DMA registers after `k` units. -/
def dmaAfter (l : DmaLatch) (r : DmaRegs) (k : Nat) : DmaRegs where
  src := advance l.srcInc r.src (k * l.width.step)
  dst := advance l.dstInc r.dst (k * l.width.step)
  len := r.len - BitVec.ofNat 32 k

theorem advance_zero (inc : Bool) (p : Long) : advance inc p 0 = p := by cases inc <;> simp [advance]

theorem advance_advance (inc : Bool) (p : Long) (m n : Nat) :
    advance inc (advance inc p m) n = advance inc p (m + n) := by
  cases inc
  · rfl
  · exact (add_ofNat_add p m n).symm

theorem dmaAfter_zero (l : DmaLatch) (r : DmaRegs) : dmaAfter l r 0 = r := by
  simp [dmaAfter, advance_zero]

theorem sub_ofNat_succ (x : Long) (k : Nat) : x - BitVec.ofNat 32 k - 1 = x - BitVec.ofNat 32 (k + 1) := by
  rw [BitVec.ofNat_add]
  exact (sub_add_eq_sub_sub x _ 1).symm

theorem sub_toNat_self (x : Long) : x - BitVec.ofNat 32 x.toNat = 0 := by simp

theorem sub_ofNat_ne_zero {x : Long} {k : Nat} (h : k < x.toNat) : x - BitVec.ofNat 32 k ≠ 0 := by
  intro zero
  have same := congrArg BitVec.toNat (sub_eq_zero.mp zero)
  have := x.isLt
  rw [BitVec.toNat_ofNat] at same
  omega

/-- The registers move as `dmaAfter` says (R264). -/
theorem dmaUpdate_dmaAfter {l : DmaLatch} {r : DmaRegs} {k : Nat} {s : State} (h : s.dma = dmaAfter l r k) :
    (dmaUpdate l s).dma = dmaAfter l r (k + 1) := by
  simp only [dmaUpdate, State.withDma_dma, h, dmaAfter, advance_advance, sub_ofNat_succ, Nat.succ_mul]

/-- No unit of the transfer writes to a register that disturbs it (R268, R269). -/
def DmaQuiet (l : DmaLatch) (s : State) : Prop := ∀ k, k < s.dma.len.toNat → ∀ r ∈ dmaDisturbers,
  ¬ reaches s.cfg (advance l.dstInc s.dma.dst (k * l.width.step)) l.width r

/-- Where a transfer begun in `s` stands after `k` units. -/
structure DmaAt (l : DmaLatch) (s : State) (k : Nat) (u : State) : Prop where
  regs : u.dma = dmaAfter l s.dma k
  keeps : Keeps s u
  stack : u.stack = s.stack

theorem dmaUnit_keeps (l : DmaLatch) (u : State) : Keeps u (dmaUnit l u) :=
  (dmaDatum_readFrame l u).keeps.trans ((busWrite_keeps _ _ _ _).trans (withDma_keeps _ _))

theorem DmaAt.quiet {l : DmaLatch} {s u : State} {k : Nat} (h : DmaAt l s k u) (quiet : DmaQuiet l s)
    (hk : k < s.dma.len.toNat) : ∀ r ∈ dmaDisturbers, ¬ reaches u.cfg u.dma.dst l.width r := by
  rw [h.keeps.cfg, h.regs]
  exact quiet k hk

theorem DmaAt.unit {l : DmaLatch} {s u : State} {k : Nat} (h : DmaAt l s k u) (quiet : DmaQuiet l s)
    (hk : k < s.dma.len.toNat) : DmaAt l s (k + 1) (dmaUnit l u) := by
  have read := dmaDatum_readFrame l u
  have target := h.quiet quiet hk
  rw [← read.cfg] at target
  exact ⟨dmaUpdate_dmaAfter ((busWrite_dma_eq target).trans (read.dma.trans h.regs)),
    h.keeps.trans (dmaUnit_keeps l u),
    ((busWrite_stack_eq (not_disturbed (by decide) (by decide) target)).trans read.stack).trans h.stack⟩

/-- A unit takes two micro-steps and leaves the activation at its loop test. -/
theorem DmaAt.runs {l : DmaLatch} {s u : State} {k : Nat} (h : DmaAt l s k u) (quiet : DmaQuiet l s)
    (hk : k < s.dma.len.toNat) (rest : List Activation) :
    Runs rest.length 2 (u.withStack (.dma l false :: rest)) ((dmaUnit l u).withStack (.dma l false :: rest)) := by
  have target := h.quiet quiet hk
  have remains : u.dma.len ≠ 0 := by
    rw [h.regs]
    exact sub_ofNat_ne_zero hk
  have moved : dmaMoved l rest (u.withStack (.dma l false :: rest)) =
      (busWrite l.width u.dma.dst (dmaDatum l u).1 (dmaDatum l u).2).withStack (.dma l true :: rest) := by
    rw [← (dmaDatum_readFrame l u).cfg] at target
    simp only [dmaMoved, dmaDatum_withStack, State.withStack_withStack]
    exact busWrite_withStack _ (not_disturbed (by decide) (by decide) target)
  have run := (dma_unit (s := u.withStack (.dma l false :: rest)) rfl remains target).2
  rw [moved] at run
  exact run

/-- A quiet transfer completes after its units: what holds at its start and is kept by each of them holds at its end. -/
theorem dma_induction {l : DmaLatch} {s : State} (hp : s.provisioned = true) (quiet : DmaQuiet l s)
    {P : Nat → State → Prop} (start : P 0 s)
    (unit : ∀ k u, k < s.dma.len.toNat → DmaAt l s k u → P k u → P (k + 1) (dmaUnit l u)) :
    ∃ t, command (push (.dma l false)) s = .next t ∧ DmaAt l s s.dma.len.toNat t ∧ P s.dma.len.toNat t := by
  obtain ⟨m, _, hm, run, t, rfl, here, done⟩ := Runs.loop (depth := s.stack.length) (c := 2) (n := s.dma.len.toNat)
    (P := fun k v => ∃ u, v = u.withStack (.dma l false :: s.stack) ∧ DmaAt l s k u ∧ P k u)
    (fun k v hk ⟨u, hv, here, hu⟩ => ⟨2, _, Nat.le_refl 2, by rw [hv]; exact here.runs quiet hk s.stack,
      _, rfl, here.unit quiet hk, unit k u hk here hu⟩)
    (s := push (.dma l false) s) ⟨s, rfl, ⟨(dmaAfter_zero l s.dma).symm, Keeps.rfl' s, rfl⟩, start⟩
  have empty : t.dma.len = 0 := by rw [here.regs]; exact sub_toNat_self s.dma.len
  have last := dma_done (l := l) (s := t.withStack (.dma l false :: s.stack)) rfl empty
  rw [State.withStack_withStack, State.withStack_eq here.stack] at last
  refine ⟨t, command_runs hp (run.trans last) here.stack ?_, here, done⟩
  have := s.dma.len.isLt
  unfold Config.burst
  omega

/-- Settles O41. -/
theorem dmaTransfersEndWithLengthZero : Obligations.DmaTransfersEndWithLengthZero := by
  intro s const code w si di i hp code_w general hi quiet
  obtain ⟨t, ht, here, -⟩ := dma_induction (l := { srcInc := si, dstInc := di, const := const, width := w }) hp quiet
    (P := fun _ _ => True) trivial (fun _ _ _ _ _ => trivial)
  refine ⟨t, ?_, ?_, here.stack, here.keeps.result⟩
  · rw [exec_dma hi, command_congr (dmaStart_general code_w general si di), ht]
  · rw [here.regs, dmaAfter, sub_toNat_self]
    rfl

/-! ## What a transfer to targets outside the window leaves alone -/

/-- Targets outside the window reach no register. -/
theorem dmaQuiet_of_outside {l : DmaLatch} {s : State} (h : ∀ k, k < s.dma.len.toNat →
    outsideWindow s.cfg (advance l.dstInc s.dma.dst (k * l.width.step)) l.width.step) : DmaQuiet l s :=
  fun k hk r _ => not_reaches_outside (h k hk) r

/-- What a unit whose target lies outside the window leaves alone beside the DMA registers. -/
structure TransferFrame (s u : State) : Prop where
  display : u.display = s.display
  blit : u.blit = s.blit
  hdma : u.hdma = s.hdma
  io : u.io = { s.io with keyscan := u.io.keyscan }

theorem readFrame.io {s t : State} (h : readFrame s t) : t.io = { s.io with keyscan := t.io.keyscan } := by
  obtain ⟨k, p, rfl, -⟩ := h
  rfl

theorem TransferFrame.unit {l : DmaLatch} {s u : State} (h : TransferFrame s u)
    (target : outsideWindow u.cfg u.dma.dst l.width.step) : TransferFrame s (dmaUnit l u) := by
  have read := dmaDatum_readFrame l u
  rw [← read.cfg] at target
  have store := busWrite_storeFrame target (dmaDatum l u).1
  have io : (dmaUnit l u).io = (dmaDatum l u).2.io := store.io
  exact ⟨(store.display.trans read.display).trans h.display, (store.blit.trans read.blit).trans h.blit,
    (store.hdma.trans read.hdma).trans h.hdma, by rw [io, read.io, h.io]⟩

/-- Settles O42: each unit stores its own bytes only, and its read changes at most the cached scan code. -/
theorem dmaTransfersTouchOnlyTheirTargets : Obligations.DmaTransfersTouchOnlyTheirTargets := by
  rintro s const code w si di hp inv code_w general target rfl outside
  obtain ⟨-, ok⟩ := inv_iff.mp inv
  obtain ⟨t, ht, -, frame, wram, vram⟩ := dma_induction
    (l := { srcInc := si, dstInc := di, const := const, width := w })
    hp (dmaQuiet_of_outside outside)
    (P := fun n u => TransferFrame s u ∧
      (∀ j, (∀ k b, k < n → b < w.step →
        ¬ storesWram s.cfg (advance di s.dma.dst (k * w.step) + BitVec.ofNat 32 b) j) →
          u.mem.wram.read j = s.mem.wram.read j) ∧
      (∀ j, (∀ k b, k < n → b < w.step →
        ¬ storesVram s.cfg (advance di s.dma.dst (k * w.step) + BitVec.ofNat 32 b) j) →
          u.mem.vram.read j = s.mem.vram.read j))
    ⟨⟨rfl, rfl, rfl, rfl⟩, fun _ _ => rfl, fun _ _ => rfl⟩
    (fun n u hn here ⟨frame, wram, vram⟩ => by
      have read := dmaDatum_readFrame { srcInc := si, dstInc := di, const := const, width := w } u
      have cfg := read.cfg.trans here.keeps.cfg
      have dst : u.dma.dst = advance di s.dma.dst (n * w.step) := by rw [here.regs]; rfl
      have away : outsideWindow u.cfg u.dma.dst w.step := by rw [here.keeps.cfg, dst]; exact outside n hn
      have ok' := (here.keeps.trans read.keeps).mem ok
      refine ⟨frame.unit away, fun j hj => ?_, fun j hj => ?_⟩
      · refine ((busWrite_wram (by rw [read.cfg]; exact away) ok' _ j).2 fun b hb => ?_).trans ?_
        · rw [cfg, dst]; exact hj n b (Nat.lt_succ_self n) hb
        · rw [read.mem]; exact wram j fun k b hk => hj k b (Nat.lt_succ_of_lt hk)
      · refine ((busWrite_vram (by rw [read.cfg]; exact away) ok' _ j).2 fun b hb => ?_).trans ?_
        · rw [cfg, dst]; exact hj n b (Nat.lt_succ_self n) hb
        · rw [read.mem]; exact vram j fun k b hk => hj k b (Nat.lt_succ_of_lt hk))
  refine ⟨t, ?_, frame.display, frame.blit, frame.hdma, frame.io, wram, vram⟩
  rw [exec_dmaCommand, command_congr (dmaStart_general code_w general si di), ht]

end Sys2Proof.Machine
end

section
/-! Units stored one after the other (42_dma.md sections 2 and 5): what a sequence of units leaves in a region, as a
function of an index, and the DMA transfers into working RAM and video RAM as such sequences. -/

namespace Sys2Proof.Machine

/-! ## Sequences of units, as functions of an index -/

/-- An index in the `n` places from `dst` on. -/
def InUnit (dst n j : Nat) : Prop := dst ≤ j ∧ j < dst + n

theorem unitStored_inside {n dst x : Nat} (h : x < n) (bs m : Nat → Byte) : unitStored n dst bs m (dst + x) = bs x := by
  rw [unitStored, if_pos ⟨Nat.le_add_right dst x, Nat.add_lt_add_left h dst⟩, Nat.add_sub_cancel_left]

theorem unitStored_outside {n dst j : Nat} (h : ¬ InUnit dst n j) (bs m : Nat → Byte) : unitStored n dst bs m j = m j :=
  if_neg h

/-- Storing what is there already changes nothing. -/
theorem unitStored_self (n dst : Nat) (m : Nat → Byte) : unitStored n dst (fun x => m (dst + x)) m = m := by
  funext j
  unfold unitStored
  split
  next h => exact congrArg m (Nat.add_sub_cancel' h.1)
  next => rfl

/-- Units at places that do not meet, each made from bytes that no earlier unit has written: every unit is made from
what was there at the start, and every other byte stays. -/
theorem unitsInOrder_disjoint {step n : Nat} {dst : Nat → Nat} {bs : Nat → (Nat → Byte) → Nat → Byte}
    {f : Nat → (Nat → Byte) → Nat → Byte} (m : Nat → Byte)
    (unit : ∀ k m', k < n → f k m' = unitStored step (dst k) (bs k m') m')
    (apart : ∀ k l, k < l → l < n → dst k + step ≤ dst l ∨ dst l + step ≤ dst k)
    (reads : ∀ k m', k < n → (∀ j, (∀ l, l < k → ¬ InUnit (dst l) step j) → m' j = m j) →
      ∀ x, x < step → bs k m' x = bs k m x) :
    (∀ k x, k < n → x < step → unitsInOrder f n m (dst k + x) = bs k m x) ∧
      ∀ j, (∀ k, k < n → ¬ InUnit (dst k) step j) → unitsInOrder f n m j = m j := by
  have upTo : ∀ i, i ≤ n → (∀ k x, k < i → x < step → unitsInOrder f i m (dst k + x) = bs k m x) ∧
      ∀ j, (∀ k, k < i → ¬ InUnit (dst k) step j) → unitsInOrder f i m j = m j := by
    intro i
    induction i with
    | zero => exact fun _ => ⟨fun _ _ h => absurd h (Nat.not_lt_zero _), fun _ _ => rfl⟩
    | succ i ih =>
      intro hi
      obtain ⟨done, frame⟩ := ih (by omega)
      simp only [unitsInOrder, unit i _ (by omega : i < n)]
      refine ⟨fun k x hk hx => ?_, fun j hj => ?_⟩
      · obtain rfl | before : k = i ∨ k < i := by omega
        · rw [unitStored_inside hx]
          exact reads k _ (by omega) frame x hx
        · rw [unitStored_outside, done k x before hx]
          have := apart k i before (by omega)
          rintro ⟨low, high⟩
          omega
      · rw [unitStored_outside (hj i (Nat.lt_succ_self i)), frame j fun k hk => hj k (Nat.lt_succ_of_lt hk)]
  exact upTo n (Nat.le_refl n)

/-- Consecutive units do not meet. -/
theorem consecutive_apart (base step k l : Nat) (h : k < l) : base + k * step + step ≤ base + l * step := by
  have : (k + 1) * step ≤ l * step := Nat.mul_le_mul_right step h
  rw [Nat.succ_mul] at this
  omega

theorem unit_within {k n step x : Nat} (hk : k < n) (hx : x < step) : k * step + x < n * step := by
  have : (k + 1) * step ≤ n * step := Nat.mul_le_mul_right step hk
  rw [Nat.succ_mul] at this
  omega

/-- A copy between ranges that do not overlap moves the bytes. -/
theorem unitsInOrder_copy {step n src dst : Nat} {f : Nat → (Nat → Byte) → Nat → Byte} (hs : 0 < step)
    (apart : src + n * step ≤ dst ∨ dst + n * step ≤ src)
    (unit : ∀ k m, k < n → f k m = unitStored step (dst + k * step) (fun x => m (src + k * step + x)) m)
    (m : Nat → Byte) (j : Nat) : unitsInOrder f n m j =
      if dst ≤ j ∧ j < dst + n * step then m (src + (j - dst)) else m j := by
  obtain ⟨copied, frame⟩ := unitsInOrder_disjoint (dst := fun k => dst + k * step) m unit
    (fun k l hk _ => .inl (consecutive_apart dst step k l hk))
    (fun k m' hk same x hx => same _ fun l hl => by
      have source := unit_within hk hx
      have target := consecutive_apart 0 step l n (by omega)
      rintro ⟨low, high⟩
      omega)
  split
  next h =>
    have split : j = dst + (j - dst) / step * step + (j - dst) % step := by
      have := Nat.div_add_mod' (j - dst) step
      omega
    have inside : (j - dst) / step < n := Nat.div_lt_of_lt_mul (by rw [Nat.mul_comm]; omega)
    conv_lhs => rw [split]
    rw [copied _ _ inside (Nat.mod_lt _ hs), Nat.add_assoc src, Nat.div_add_mod']
  next h =>
    refine frame j fun k hk => ?_
    have := consecutive_apart 0 step k n hk
    rintro ⟨low, high⟩
    omega

/-- A fill: with the target advancing every unit keeps its own value, with the target fixed the last one stays. -/
theorem unitsInOrder_fill {step n base : Nat} {di : Bool} {value : Nat → Nat → Byte}
    {f : Nat → (Nat → Byte) → Nat → Byte}
    (unit : ∀ k m, k < n → f k m = unitStored step (base + if di then k * step else 0) (value k) m) (m : Nat → Byte) :
    (∀ k x, k < n → x < step → (di = false → k + 1 = n) →
      unitsInOrder f n m (base + ((if di then k * step else 0) + x)) = value k x) ∧
    ∀ j, (n = 0 ∨ j < base ∨ base + (if di then n * step else step) ≤ j) → unitsInOrder f n m j = m j := by
  cases di with
  | true =>
    obtain ⟨filled, frame⟩ := unitsInOrder_disjoint (dst := fun k => base + k * step) (bs := fun k _ => value k) m unit
      (fun k l hk _ => .inl (consecutive_apart base step k l hk)) (fun _ _ _ _ _ _ => rfl)
    refine ⟨fun k x hk hx _ => by rw [← Nat.add_assoc]; exact filled k x hk hx, fun j hj => frame j fun k hk => ?_⟩
    have := consecutive_apart 0 step k n hk
    simp only [if_true] at hj
    rintro ⟨low, high⟩
    omega
  | false =>
    have units : ∀ i, i ≤ n → ∀ j, ¬ InUnit base step j → unitsInOrder f i m j = m j := by
      intro i
      induction i with
      | zero => exact fun _ _ _ => rfl
      | succ i ih =>
        intro hi j hj
        rw [unitsInOrder, unit i _ (by omega)]
        simp only [Bool.false_eq_true, if_false, Nat.add_zero]
        rw [unitStored_outside hj, ih (by omega) j hj]
    refine ⟨fun k x hk hx last => ?_, fun j hj => ?_⟩
    · obtain rfl := last rfl
      rw [unitsInOrder, unit k _ hk]
      simp only [Bool.false_eq_true, if_false, Nat.zero_add]
      exact unitStored_inside hx _ _
    · obtain rfl | out := hj
      · rfl
      · refine units n (Nat.le_refl n) j ?_
        simp only [Bool.false_eq_true, if_false] at out
        rintro ⟨low, high⟩
        omega

/-! ## A region after units are stored in it -/

/-- Storing bytes in a region is a unit stored, as a function of the index. -/
theorem storeFrom_unitStored {m : Memory} (wf : m.wf = true) (dst : Nat) (bs : List Byte) :
    (storeFrom m dst bs).read = unitStored bs.length dst (fun x => bs.getD x 0) m.read := by
  funext j
  exact storeFrom_read wf dst bs j

theorem unitStored_congr {n dst : Nat} {bs bs' m : Nat → Byte} (h : ∀ x, x < n → bs x = bs' x) :
    unitStored n dst bs m = unitStored n dst bs' m := by
  funext j
  unfold unitStored
  split
  next inside => exact h _ (by omega)
  next => rfl

/-- Byte `x` of a value of a width, most significant first. -/
theorem bytesOf_getD {w : Width} {x : Nat} (hx : x < w.step) (v : Long) :
    (bytesOf w v).getD x 0 = v.extractLsb' (8 * (w.step - 1 - x)) 8 := by
  rw [← bytesOf_length w v] at hx
  rw [List.getD_eq_getElem _ _ hx, bytesOf_getElem]

/-- Storing a value of a width is storing its bytes, most significant first. -/
theorem storeFrom_bytesOf {m : Memory} (wf : m.wf = true) (dst : Nat) (w : Width) (v : Long) :
    (storeFrom m dst (bytesOf w v)).read =
      unitStored w.step dst (fun x => v.extractLsb' (8 * (w.step - 1 - x)) 8) m.read := by
  rw [storeFrom_unitStored wf, bytesOf_length]
  exact unitStored_congr fun x hx => bytesOf_getD hx v

/-- Storing a value composed from bytes is storing those bytes. -/
theorem storeFrom_longOfBytes {m : Memory} (wf : m.wf = true) (dst : Nat) (w : Width) (b : Nat → Byte) :
    (storeFrom m dst (bytesOf w (longOfBytes ((List.range w.step).map b)))).read = unitStored w.step dst b m.read := by
  have bytes := bytesOf_longOfBytes w ((List.range w.step).map b) (by simp)
  rw [storeFrom_unitStored wf, bytesOf_length, bytes]
  refine unitStored_congr fun x hx => ?_
  rw [List.getD_eq_getElem _ _ (by simpa using hx)]
  simp

/-! ## A transfer into working RAM -/

/-- The addresses of the units of a transfer (R264). -/
def dmaTarget (l : DmaLatch) (s : State) (k : Nat) : Addr := advance l.dstInc s.dma.dst (k * l.width.step)
def dmaSource (l : DmaLatch) (s : State) (k : Nat) : Addr := advance l.srcInc s.dma.src (k * l.width.step)

/-- A transfer whose targets lie in working RAM, unit `k` storing the bytes `bs k` made from what working RAM holds
then: the whole next state. -/
theorem dma_wram {l : DmaLatch} {s : State} (hp : s.provisioned = true) (inv : s.inv = true)
    {bs : Nat → (Nat → Byte) → Nat → Byte}
    (target : ∀ k, k < s.dma.len.toNat → inWram s.cfg (dmaTarget l s k) l.width.step)
    (datum : ∀ k u, k < s.dma.len.toNat → DmaAt l s k u →
      u = (s.withMem { s.mem with wram := u.mem.wram }).withDma u.dma →
      ∃ d, dmaDatum l u = (d, u) ∧ ∀ m dst, m.wf = true →
        (storeFrom m dst (bytesOf l.width d)).read = unitStored l.width.step dst (bs k u.mem.wram.read) m.read) :
    ∃ t, command (push (.dma l false)) s = .next t ∧
      (∀ j, t.mem.wram.read j = unitsInOrder (fun k m => unitStored l.width.step (offOf (dmaTarget l s k)) (bs k m) m)
        s.dma.len.toNat s.mem.wram.read j) ∧
      t = (s.withMem { s.mem with wram := t.mem.wram }).withDma (dmaAfter l s.dma s.dma.len.toNat) := by
  obtain ⟨-, ok⟩ := inv_iff.mp inv
  have quiet : DmaQuiet l s := dmaQuiet_of_outside fun k hk => (target k hk).2.1
  obtain ⟨t, ht, here, frame, bytes⟩ := dma_induction hp quiet
    (P := fun n u => u = (s.withMem { s.mem with wram := u.mem.wram }).withDma u.dma ∧
      u.mem.wram.read = unitsInOrder (fun k m => unitStored l.width.step (offOf (dmaTarget l s k)) (bs k m) m)
        n s.mem.wram.read)
    ⟨rfl, rfl⟩
    (fun k u hk here ⟨frame, bytes⟩ => by
      have dst : u.dma.dst = dmaTarget l s k := by rw [here.regs]; rfl
      have wf := memOk.wram_wf (here.keeps.mem ok)
      have inside : inWram u.cfg u.dma.dst l.width.step := by rw [here.keeps.cfg, dst]; exact target k hk
      obtain ⟨d, hd, stores⟩ := datum k u hk here frame
      have unit : dmaUnit l u = dmaUpdate l (u.withMem { u.mem with
          wram := storeFrom u.mem.wram (offOf u.dma.dst) (bytesOf l.width d) }) := by
        rw [dmaUnit, hd, busWrite_inWram inside]
      refine ⟨?_, ?_⟩
      · rw [unit]
        conv_lhs => rw [frame]
        rfl
      · rw [unit]
        show (storeFrom u.mem.wram (offOf u.dma.dst) (bytesOf l.width d)).read = _
        rw [stores _ _ wf, dst, bytes]
        rfl)
  refine ⟨t, ht, fun j => congrFun bytes j, ?_⟩
  rw [← here.regs]
  exact frame

/-- Settles O43: each unit is read from working RAM as the one before left it; between ranges that do not overlap no
unit reads what another wrote. -/
theorem dmaCopiesItsUnits : Obligations.DmaCopiesItsUnits := by
  rintro s code w si di source target i n hp inv code_w hi rfl rfl inside rfl
  obtain ⟨legal, -⟩ := inv_iff.mp inv
  obtain ⟨t, ht, bytes, frame⟩ := dma_wram (l := { srcInc := si, dstInc := di, const := false, width := w }) hp inv
    (bs := fun k m x => m (offOf (dmaSource { srcInc := si, dstInc := di, const := false, width := w } s k) + x))
    (fun k hk => (inside k hk).2)
    (fun k u hk here _ => by
      have src : u.dma.src = dmaSource { srcInc := si, dstInc := di, const := false, width := w } s k := by
        rw [here.regs]; rfl
      have read : inWram u.cfg u.dma.src w.step := by rw [here.keeps.cfg, src]; exact (inside k hk).1
      refine ⟨_, busRead_inWram (by rw [here.keeps.cfg]; exact legal) read, fun m dst wf => ?_⟩
      rw [← src]
      exact storeFrom_longOfBytes wf dst w _)
  refine ⟨t, ?_, bytes, fun hsi hdi from_wram to_wram apart j => ?_, ?_⟩
  · rw [exec_dma hi, command_congr (dmaStart_general code_w rfl si di), ht]
  · subst hsi hdi
    rw [bytes]
    refine unitsInOrder_copy (Width.step_pos w) apart (fun k m hk => ?_) _ j
    have within := unit_within hk (Width.step_pos w)
    have to_k := (to_wram.2.2 (k * w.step) (by omega)).2
    have from_k := (from_wram.2.2 (k * w.step) (by omega)).2
    simp only [dmaTarget, dmaSource, advance, if_true, to_k, from_k]
  · rw [frame, dmaAfter, sub_toNat_self]
    rfl

/-- Where the units of a fill of working RAM lie. -/
theorem fill_place {c : Cfg} {p : Addr} {n k : Nat} {w : Width} {di : Bool}
    (h : inWram c p (if di then n * w.step else w.step)) (hk : k < n) :
    inWram c (advance di p (k * w.step)) w.step ∧
      offOf (advance di p (k * w.step)) = offOf p + if di then k * w.step else 0 := by
  have pos := Width.step_pos w
  cases di with
  | false => exact ⟨h, rfl⟩
  | true =>
    have within := unit_within hk pos
    have last := consecutive_apart 0 w.step k n hk
    simp only [if_true] at h
    exact ⟨h.sub (by omega), (h.2.2 (k * w.step) (by omega)).2⟩

/-- Settles O44: the datum of a unit is the register itself, which the source increment moves. -/
theorem dmaFillsWithItsValue : Obligations.DmaFillsWithItsValue := by
  rintro s w si di _ i hp inv hi rfl inside
  have start : exec i s = command (push (.dma { srcInc := si, dstInc := di, const := true, width := w } false)) s := by
    simp only [List.mem_cons, List.not_mem_nil, or_false, Prod.mk.injEq] at hi
    obtain ⟨rfl, rfl⟩ | ⟨rfl, rfl⟩ := hi
    · exact command_congr (dmaStart_general (const := true) (w := .byte) rfl rfl si di)
    · exact command_congr (dmaStart_general (const := true) (w := .word) rfl rfl si di)
  obtain ⟨t, ht, bytes, frame⟩ := dma_wram (l := { srcInc := si, dstInc := di, const := true, width := w }) hp inv
    (bs := fun k _ x => (advance si s.dma.src (k * w.step)).extractLsb' (8 * (w.step - 1 - x)) 8)
    (fun k hk => (fill_place inside hk).1)
    (fun k u hk here _ => by
      have src : u.dma.src = advance si s.dma.src (k * w.step) := by rw [here.regs]; rfl
      refine ⟨u.dma.src, rfl, fun m dst wf => ?_⟩
      rw [← src]
      exact storeFrom_bytesOf wf dst w _)
  obtain ⟨filled, kept⟩ := unitsInOrder_fill (step := w.step) (n := s.dma.len.toNat) (base := offOf s.dma.dst)
    (di := di) (value := fun k x => (advance si s.dma.src (k * w.step)).extractLsb' (8 * (w.step - 1 - x)) 8)
    (f := fun k m => unitStored w.step (offOf (advance di s.dma.dst (k * w.step)))
      (fun x => (advance si s.dma.src (k * w.step)).extractLsb' (8 * (w.step - 1 - x)) 8) m)
    (fun k m hk => by rw [(fill_place inside hk).2]) s.mem.wram.read
  refine ⟨t, start.trans ht, fun k x hk hx last => (bytes _).trans (filled k x hk hx last),
    fun j hj => (bytes j).trans (kept j ?_), ?_⟩
  · exact hj.imp_left fun empty => by rw [empty]; rfl
  · rw [frame, dmaAfter, sub_toNat_self]
    rfl

/-! ## A fill of video RAM -/

/-- The part of a range of video RAM from its byte `i > 0` on. -/
theorem inVram.sub {c : Cfg} {a : Addr} {n i k : Nat} (h : inVram c a n) (hk : 0 < k) (hi : i + k ≤ n) :
    inVram c (a + BitVec.ofNat 32 i) k := by
  obtain ⟨size, outside, place⟩ := h
  have start := (place i (by omega)).2
  refine ⟨by omega, fun x hx => ?_, fun x hx => ?_⟩
  · rw [← add_ofNat_add]
    exact outside (i + x) (by omega)
  · obtain ⟨bank, off⟩ := place (i + x) (by omega)
    rw [← add_ofNat_add]
    exact ⟨bank, by omega⟩

theorem inVram.head {c : Cfg} {a : Addr} {n : Nat} (h : inVram c a (n + 1)) :
    bankOf c a = 0xE ∧ offOf a < c.vramSize := by
  obtain ⟨size, -, place⟩ := h
  have first := place 0 (Nat.succ_pos n)
  rw [add_ofNat_zero] at first
  exact ⟨first.1, by omega⟩

theorem byteWrite_inVram {a : Addr} {n : Nat} {s : State} (legal : cfgWf s.cfg = true) (h : inVram s.cfg a (n + 1))
    (v : Byte) : byteWrite a v s = s.withMem { s.mem with vram := s.mem.vram.write (offOf a) v } := by
  obtain ⟨bank, below⟩ := h.head
  rw [byteWrite_outside h.2.1.head]
  simp [bank, regionOf, regionWrite, vramWrite, vramIndex, vramWinMask_and legal below, below]

/-- A composed write into video RAM stores its bytes one after the other and changes nothing else. -/
theorem writeBytes_inVram {a : Addr} {vs : List Byte} {s : State} (legal : cfgWf s.cfg = true)
    (h : inVram s.cfg a vs.length) :
    writeBytes a vs s = s.withMem { s.mem with vram := storeFrom s.mem.vram (offOf a) vs } := by
  induction vs generalizing a s with
  | nil => rfl
  | cons v vs ih =>
    rw [writeBytes_cons h.2.1.head, byteWrite_inVram legal h]
    obtain rfl | more : vs = [] ∨ 0 < vs.length := by
      cases vs
      · exact .inl rfl
      · exact .inr (Nat.succ_pos _)
    · rfl
    · have tail : inVram s.cfg (a + 1) vs.length :=
        h.sub (i := 1) more (by rw [List.length_cons]; omega)
      have next : offOf (a + 1) = offOf a + 1 := (h.2.2 1 (Nat.succ_lt_succ more)).2
      rw [ih (by exact legal) (by exact tail), next]
      rfl

theorem busWrite_inVram {w : Width} {a : Addr} {s : State} (legal : cfgWf s.cfg = true) (h : inVram s.cfg a w.step)
    (v : Long) :
    busWrite w a v s = s.withMem { s.mem with vram := storeFrom s.mem.vram (offOf a) (bytesOf w v) } := by
  rw [busWrite_outside h.2.1.first]
  exact writeBytes_inVram legal (by rwa [bytesOf_length])

/-- Where the units of a fill of video RAM lie. -/
theorem fill_place_vram {c : Cfg} {p : Addr} {n k : Nat} {w : Width} {di : Bool}
    (h : inVram c p (if di then n * w.step else w.step)) (hk : k < n) :
    inVram c (advance di p (k * w.step)) w.step ∧
      offOf (advance di p (k * w.step)) = offOf p + if di then k * w.step else 0 := by
  have pos := Width.step_pos w
  cases di with
  | false => exact ⟨h, rfl⟩
  | true =>
    have last := consecutive_apart 0 w.step k n hk
    simp only [if_true] at h
    exact ⟨h.sub pos (by omega), (h.2.2 (k * w.step) (by omega)).2⟩

/-- Settles O45: bank 0xE keeps a long fill off the fast path, and each unit stores the four bytes of the register. -/
theorem aLongFillOutsideWorkingRamWritesWholeLongs : Obligations.ALongFillOutsideWorkingRamWritesWholeLongs := by
  rintro s si di _ hp inv rfl inside bank
  obtain ⟨legal, ok⟩ := inv_iff.mp inv
  have general : fastPath true .long s = false := by simp [fastPath, bank]
  have place (k : Nat) (hk : k < s.dma.len.toNat) := fill_place_vram (w := .long) inside hk
  obtain ⟨t, ht, here, frame, bytes⟩ := dma_induction
    (l := { srcInc := si, dstInc := di, const := true, width := .long }) hp
    (dmaQuiet_of_outside fun k hk => (place k hk).1.2.1)
    (P := fun n u => u = (s.withMem { s.mem with vram := u.mem.vram }).withDma u.dma ∧
      u.mem.vram.read = unitsInOrder (fun k => unitStored 4 (offOf (advance di s.dma.dst (k * 4)))
        fun x => (advance si s.dma.src (k * 4)).extractLsb' (8 * (3 - x)) 8) n s.mem.vram.read)
    ⟨rfl, rfl⟩
    (fun k u hk here ⟨frame, bytes⟩ => by
      have dst : u.dma.dst = advance di s.dma.dst (k * 4) := by rw [here.regs]; rfl
      have src : u.dma.src = advance si s.dma.src (k * 4) := by rw [here.regs]; rfl
      have wf := memOk.vram_wf (here.keeps.mem ok)
      have stored : inVram u.cfg u.dma.dst Width.long.step := by rw [here.keeps.cfg, dst]; exact (place k hk).1
      have unit : dmaUnit { srcInc := si, dstInc := di, const := true, width := .long } u =
          dmaUpdate { srcInc := si, dstInc := di, const := true, width := .long } (u.withMem { u.mem with
            vram := storeFrom u.mem.vram (offOf u.dma.dst) (bytesOf .long u.dma.src) }) :=
        congrArg _ (busWrite_inVram (by rw [here.keeps.cfg]; exact legal) stored u.dma.src)
      refine ⟨?_, ?_⟩
      · rw [unit]
        conv_lhs => rw [frame]
        rfl
      · rw [unit]
        show (storeFrom u.mem.vram (offOf u.dma.dst) (bytesOf .long u.dma.src)).read = _
        rw [storeFrom_bytesOf wf, dst, src, bytes]
        rfl)
  obtain ⟨filled, kept⟩ := unitsInOrder_fill (step := 4) (n := s.dma.len.toNat) (base := offOf s.dma.dst) (di := di)
    (value := fun k x => (advance si s.dma.src (k * 4)).extractLsb' (8 * (3 - x)) 8)
    (f := fun k => unitStored 4 (offOf (advance di s.dma.dst (k * 4)))
      fun x => (advance si s.dma.src (k * 4)).extractLsb' (8 * (3 - x)) 8)
    (fun k m hk => congrArg (unitStored 4 · _ m) (place k hk).2) s.mem.vram.read
  refine ⟨t, ?_, fun k x hk hx last => (congrFun bytes _).trans (filled k x hk hx last),
    fun j hj => (congrFun bytes j).trans (kept j (hj.imp_left fun empty => by rw [empty]; rfl)), ?_⟩
  · exact (command_congr (dmaStart_general (code := 2) (w := .long) rfl general si di)).trans ht
  · rw [frame, here.regs, dmaAfter, sub_toNat_self]
    rfl

end Sys2Proof.Machine
end

section
/-! The blitter (44_blitter.md): words that arm nothing, the stride jump, and Blit, Set and Invert as their units one
after the other, where no unit's write reaches a register that disturbs them. -/

namespace Sys2Proof.Machine

/-! ## Words without an operation (R312) and the stride jump (R313) -/

/-- Settles O48: the reserved commands have no effect, and a reserved `FUNC` names no operation to arm. -/
theorem reservedFunctionsDoNothing : Obligations.ReservedFunctionsDoNothing := by
  intro s f skip hp
  refine ⟨command_of_effect hp rfl rfl, fun _ => command_of_effect hp rfl rfl, fun _ => command_of_effect hp rfl rfl,
    fun v hv => ?write⟩
  case write =>
    have reserved : blitfFunc v ∉ ([1, 2, 3, 4] : List (BitVec 4)) := by
      have above : ∀ func ∈ ([1, 2, 3, 4] : List (BitVec 4)), func.toNat < 5 := by decide
      exact fun named => Nat.not_lt.mpr hv (above _ named)
    exact command_of_effect hp (blitArm_of_no_operation reserved s : regWrite .blitFunc v s = s) rfl

/-- Settles O56: sum and product are taken as integers and cut once. -/
theorem theStrideJumpIsSigned : Obligations.TheStrideJumpIsSigned := by
  intro op l s
  refine ⟨?_, rfl⟩
  simp only [blitJump, State.withBlit_blit, strideJump, BitVec.toInt_add, BitVec.toInt_ofInt, Int.add_bmod_bmod]

/-! ## Arming Blit, Set and Invert (R310) -/

theorem blitArm_blitfWord (op : BlitOp) (f : BlitFields) (skip : Bool) (s : State) :
    blitArm (blitfWord f skip (blitNumber op)) s = blitStart op f skip s := by
  cases op <;> simp [blitArm, blitf_func, blitf_fields, blitf_skip, blitNumber]

theorem blitStart_armed {f : BlitFields} {w : Width} {s : State} (h : widthOf s.cfg f.width = some w) (op : BlitOp)
    (skip : Bool) : blitStart op f skip s = push (.blit op (blitLatch f skip w) .test) s := by
  rw [blitStart, h]

theorem rleStart_armed {f : BlitFields} {w : Width} {s : State} (h : widthOf s.cfg f.width = some w) (skip : Bool) :
    rleStart f skip s = push (.rle (blitLatch f skip w)) s := by
  rw [rleStart, h]

/-- The function word as a command, and the write that carries it, arm the same operation (R240). -/
theorem exec_blit {op : BlitOp} {skip : Bool} {f : BlitFields} {w : Width} {s : State}
    (h : widthOf s.cfg f.width = some w) {i : Instr}
    (hi : i ∈ [blitCommand op skip f, .blitFuncW (blitfWord f skip (blitNumber op))]) :
    exec i s = command (push (.blit op (blitLatch f skip w) .test)) s := by
  have start := blitStart_armed h op skip
  simp only [List.mem_cons, List.not_mem_nil, or_false] at hi
  obtain rfl | rfl := hi
  · rw [exec_blitCommand, command_congr start]
  · exact command_congr ((blitArm_blitfWord op f skip s).trans start)

/-! ## An operation as a sequence of units (R320, R321) -/

/-- The blitter registers after `k` units and `j` jumps. -/
def blitAfter (op : BlitOp) (l : BlitLatch) (r : BlitRegs) (k j : Nat) : BlitRegs where
  a := advance (decide (op = .blit)) r.a (k * (unitWidth op l).step)
  b := r.b + BitVec.ofNat 32 (k * (unitWidth op l).step) +
    BitVec.ofNat 32 j * strideJump l.dstStride l.srcStride (unitWidth op l).step
  len := r.len - BitVec.ofNat 32 k
  key := r.key

/-- The passes complete after `k` units, and the passes that `k` units begin. -/
def passesDone (l : BlitLatch) (k : Nat) : Nat := if l.skip then k / l.srcStride.toNat else 0
def passesBegun (l : BlitLatch) (k : Nat) : Nat :=
  if l.skip then (k + l.srcStride.toNat - 1) / l.srcStride.toNat else 0

/-- Where unit `k` begins: at the outer test, or inside a pass. -/
def blitPlace (l : BlitLatch) (k : Nat) : BlitPlace :=
  if l.skip = true ∧ k % l.srcStride.toNat ≠ 0 then .pass (k % l.srcStride.toNat) else .test

theorem ceilDiv_of_whole {n d : Nat} (hd : 0 < d) (whole : n % d = 0) : (n + d - 1) / d = n / d := by
  have parts := Nat.div_add_mod' n d
  refine Nat.div_eq_of_lt_le (by omega) ?_
  rw [Nat.succ_mul]
  omega

theorem ceilDiv_of_cut {n d : Nat} (hd : 0 < d) (cut : n % d ≠ 0) : (n + d - 1) / d = n / d + 1 := by
  have parts := Nat.div_add_mod' n d
  have below := Nat.mod_lt n hd
  refine Nat.div_eq_of_lt_le ?_ ?_ <;> simp only [Nat.succ_mul] <;> omega

theorem blitAfter_zero (op : BlitOp) (l : BlitLatch) (r : BlitRegs) : blitAfter op l r 0 0 = r := by
  simp [blitAfter, advance_zero]

theorem blitUpdate_blitAfter {op : BlitOp} {l : BlitLatch} {r : BlitRegs} {k j : Nat} {s : State}
    (h : s.blit = blitAfter op l r k j) : (blitUpdate op l s).blit = blitAfter op l r (k + 1) j := by
  simp only [blitUpdate, State.withBlit_blit, h, blitAfter, advance_advance, sub_ofNat_succ, Nat.succ_mul,
    BitVec.ofNat_add]
  congr 1
  ac_rfl

theorem blitJump_blitAfter {op : BlitOp} {l : BlitLatch} {r : BlitRegs} {k j : Nat} {s : State}
    (h : s.blit = blitAfter op l r k j) : (blitJump op l s).blit = blitAfter op l r k (j + 1) := by
  simp only [blitJump, State.withBlit_blit, h, blitAfter]
  congr 1
  rw [BitVec.ofNat_add, BitVec.add_mul, BitVec.add_assoc]
  simp

/-- The target of unit `k`. -/
def blitTarget (op : BlitOp) (l : BlitLatch) (s : State) (k : Nat) : Addr :=
  (blitAfter op l s.blit k (passesDone l k)).b

/-- No unit of the operation writes to a register that disturbs it (R350, R351). -/
def BlitQuiet (op : BlitOp) (l : BlitLatch) (s : State) : Prop := ∀ k, k < s.blit.len.toNat → ∀ r ∈ blitDisturbers,
  ¬ reaches s.cfg (blitTarget op l s k) (unitWidth op l) r

/-- Where an operation begun in `s` stands after `k` units and `j` jumps. -/
structure BlitAt (op : BlitOp) (l : BlitLatch) (s : State) (k j : Nat) (u : State) : Prop where
  regs : u.blit = blitAfter op l s.blit k j
  keeps : Keeps s u
  stack : u.stack = s.stack

theorem BlitAt.quiet {op : BlitOp} {l : BlitLatch} {s u : State} {k : Nat} (h : BlitAt op l s k (passesDone l k) u)
    (quiet : BlitQuiet op l s) (hk : k < s.blit.len.toNat) :
    ∀ r ∈ blitDisturbers, ¬ reaches u.cfg u.blit.b (unitWidth op l) r := by
  rw [h.keeps.cfg, h.regs]
  exact quiet k hk

theorem BlitAt.remains {op : BlitOp} {l : BlitLatch} {s u : State} {k j : Nat} (h : BlitAt op l s k j u)
    (hk : k < s.blit.len.toNat) : u.blit.len ≠ 0 := by
  rw [h.regs]
  exact sub_ofNat_ne_zero hk

theorem BlitAt.jump {op : BlitOp} {l : BlitLatch} {s u : State} {k j : Nat} (h : BlitAt op l s k j u) :
    BlitAt op l s k (j + 1) (blitJump op l u) :=
  ⟨blitJump_blitAfter h.regs, h.keeps.trans (withBlit_keeps u _), h.stack⟩

theorem BlitAt.unit {op : BlitOp} {l : BlitLatch} {s u : State} {k : Nat} (h : BlitAt op l s k (passesDone l k) u)
    (quiet : BlitQuiet op l s) (hk : k < s.blit.len.toNat) :
    BlitAt op l s (k + 1) (passesDone l k) (blitUpdate op l (blitMove op l u)) := by
  obtain ⟨blit, stack⟩ := blitMove_eq (h.quiet quiet hk)
  exact ⟨blitUpdate_blitAfter (blit.trans h.regs),
    h.keeps.trans ((blitMove_progress op l u).1.trans (withBlit_keeps _ _)), stack.trans h.stack⟩

/-- The accesses of a unit that arms nothing do not look at the stack. -/
theorem blitMove_withStack {op : BlitOp} {l : BlitLatch} {s : State}
    (hw : ∀ r ∈ blitDisturbers, ¬ reaches s.cfg s.blit.b (unitWidth op l) r) (k : List Activation) :
    blitMove op l (s.withStack k) = (blitMove op l s).withStack k := by
  have move (w : Width) (a : Addr) (d : Long) (hu : ∀ r ∈ blitDisturbers, ¬ reaches s.cfg s.blit.b w r) :
      busWrite w (busRead w a s).2.blit.b d ((busRead w a s).2.withStack k) =
        (busWrite w (busRead w a s).2.blit.b d (busRead w a s).2).withStack k := by
    have read := busRead_readFrame w a s
    rw [read.blit]
    rw [← read.cfg] at hu
    exact busWrite_withStack k (not_disturbed (by decide) (by decide) hu)
  cases op
  case blit =>
    simp only [blitMove, busRead_withStack, State.withStack_blit]
    split
    · rfl
    · exact move _ _ _ hw
  case set =>
    simp only [blitMove, busRead_withStack, State.withStack_blit]
    split
    · exact busWrite_withStack k (not_disturbed (by decide) (by decide) hw)
    · exact move _ _ _ hw
  case invert =>
    simp only [blitMove, busRead_withStack, State.withStack_blit]
    exact move _ _ _ hw

/-- Unit `k` from the place where it begins to the place where the next one does, with the jump between if it was the
last of its pass: at most four micro-steps. -/
theorem BlitAt.runs {op : BlitOp} {l : BlitLatch} {s u : State} {k : Nat} (h : BlitAt op l s k (passesDone l k) u)
    (quiet : BlitQuiet op l s) (hk : k < s.blit.len.toNat) (stride : l.skip = true → 1 ≤ l.srcStride.toNat)
    (rest : List Activation) : ∃ m r, m ≤ 4 ∧
      BlitAt op l s (k + 1) (passesDone l (k + 1)) ((blitMove op l u).withBlit r) ∧
      Runs rest.length m (u.withStack (.blit op l (blitPlace l k) :: rest))
        (((blitMove op l u).withBlit r).withStack (.blit op l (blitPlace l (k + 1)) :: rest)) := by
  have target := h.quiet quiet hk
  have remains := h.remains hk
  have after := h.unit quiet hk
  cases skip : l.skip with
  | false =>
    have test (x : Nat) : blitPlace l x = .test := by simp [blitPlace, skip]
    have same : passesDone l (k + 1) = passesDone l k := by simp [passesDone, skip]
    have run := blit_unit (s := u.withStack (.blit op l .test :: rest)) rfl remains skip target
    rw [State.withStack_withStack, blitMove_withStack target] at run
    refine ⟨2, _, by decide, by rw [same]; exact after, ?_⟩
    rw [test, test]
    exact run
  | true =>
    have positive := stride skip
    have below : k % l.srcStride.toNat < l.srcStride.toNat := Nat.mod_lt _ positive
    have begin : ∃ m, m ≤ 1 ∧ Runs rest.length m (u.withStack (.blit op l (blitPlace l k) :: rest))
        (u.withStack (.blit op l (.pass (k % l.srcStride.toNat)) :: rest)) := by
      by_cases first : k % l.srcStride.toNat = 0
      · rw [blitPlace, if_neg (by simp [first]), first]
        exact ⟨1, Nat.le_refl 1, blit_pass_start (s := u.withStack (.blit op l .test :: rest)) rfl remains skip⟩
      · rw [blitPlace, if_pos ⟨skip, first⟩]
        exact ⟨0, Nat.zero_le 1, Runs.refl _ _⟩
    obtain ⟨m, hm, begins⟩ := begin
    have run := blit_pass_unit (s := u.withStack (.blit op l (.pass (k % l.srcStride.toNat)) :: rest)) rfl below remains
      skip target
    rw [State.withStack_withStack, blitMove_withStack target] at run
    by_cases last : k % l.srcStride.toNat + 1 = l.srcStride.toNat
    · have wraps : (k + 1) % l.srcStride.toNat = 0 := by rw [← Nat.mod_add_mod, last, Nat.mod_self]
      have jumps : passesDone l (k + 1) = passesDone l k + 1 := by
        simp only [passesDone, skip, if_true]
        rw [Nat.succ_div_of_dvd (Nat.dvd_of_mod_eq_zero wraps)]
      refine ⟨m + 2 + 1, _, by omega, by rw [jumps]; exact after.jump, (begins.trans run).trans ?_⟩
      rw [blitPlace, if_neg (by simp [wraps])]
      exact blit_pass_end (s := (blitUpdate op l (blitMove op l u)).withStack (.blit op l (.pass _) :: rest)) rfl
        fun inside => absurd inside.1 (by omega)
    · have next : (k + 1) % l.srcStride.toNat = k % l.srcStride.toNat + 1 := by
        rw [← Nat.mod_add_mod, Nat.mod_eq_of_lt (by omega)]
      have same : passesDone l (k + 1) = passesDone l k := by
        simp only [passesDone, skip, if_true]
        rw [Nat.succ_div_of_not_dvd fun d => absurd (Nat.mod_eq_zero_of_dvd d) (by omega)]
      refine ⟨m + 2, _, by omega, by rw [same]; exact after, begins.trans ?_⟩
      rw [blitPlace, if_pos ⟨skip, by omega⟩, next]
      exact run

/-- The end of an operation: the jump after a pass that was cut short, and the last test. -/
theorem BlitAt.ends {op : BlitOp} {l : BlitLatch} {s u : State}
    (h : BlitAt op l s s.blit.len.toNat (passesDone l s.blit.len.toNat) u)
    (stride : l.skip = true → 1 ≤ l.srcStride.toNat) (rest : List Activation) : ∃ m r, m ≤ 2 ∧
      BlitAt op l s s.blit.len.toNat (passesBegun l s.blit.len.toNat) (u.withBlit r) ∧
      Runs rest.length m (u.withStack (.blit op l (blitPlace l s.blit.len.toNat) :: rest))
        ((u.withBlit r).withStack rest) := by
  have empty : u.blit.len = 0 := by rw [h.regs]; exact sub_toNat_self s.blit.len
  generalize s.blit.len.toNat = n at h ⊢
  by_cases cut : l.skip = true ∧ n % l.srcStride.toNat ≠ 0
  · obtain ⟨skip, short⟩ := cut
    have positive := stride skip
    have jumps : passesBegun l n = passesDone l n + 1 := by
      simp only [passesBegun, passesDone, skip, if_true]
      exact ceilDiv_of_cut positive short
    refine ⟨1 + 1, _, by decide, by rw [jumps]; exact h.jump, Runs.trans (t := (blitJump op l u).withStack
      (.blit op l .test :: rest)) ?_
      (blit_done (s := (blitJump op l u).withStack (.blit op l .test :: rest)) rfl empty)⟩
    rw [blitPlace, if_pos ⟨skip, short⟩]
    exact blit_pass_end (s := u.withStack (.blit op l (.pass _) :: rest)) rfl fun inside => inside.2 empty
  · have same : passesBegun l n = passesDone l n := by
      simp only [passesBegun, passesDone]
      split
      next skip =>
        exact ceilDiv_of_whole (stride skip) (by simpa [skip] using cut)
      next => rfl
    refine ⟨1, u.blit, by decide, by rw [same]; exact h, ?_⟩
    rw [blitPlace, if_neg cut]
    exact blit_done (s := u.withStack (.blit op l .test :: rest)) rfl empty

/-- A quiet operation completes after its units: what holds at its start, is kept by the accesses of each of them and
does not look at the blitter registers holds at its end. -/
theorem blit_induction {op : BlitOp} {l : BlitLatch} {s : State} (hp : s.provisioned = true) (quiet : BlitQuiet op l s)
    (stride : l.skip = true → 1 ≤ l.srcStride.toNat) {P : Nat → State → Prop} (start : P 0 s)
    (registers : ∀ k u r, P k u → P k (u.withBlit r))
    (unit : ∀ k u, k < s.blit.len.toNat → BlitAt op l s k (passesDone l k) u → P k u → P (k + 1) (blitMove op l u)) :
    ∃ t, command (push (.blit op l .test)) s = .next t ∧
      BlitAt op l s s.blit.len.toNat (passesBegun l s.blit.len.toNat) t ∧ P s.blit.len.toNat t := by
  have first : BlitAt op l s 0 (passesDone l 0) s := by
    rw [show passesDone l 0 = 0 by simp [passesDone]]
    exact ⟨(blitAfter_zero op l s.blit).symm, Keeps.rfl' s, rfl⟩
  obtain ⟨m, _, hm, run, t, rfl, here, done⟩ := Runs.loop (depth := s.stack.length) (c := 4) (n := s.blit.len.toNat)
    (P := fun k v => ∃ u, v = u.withStack (.blit op l (blitPlace l k) :: s.stack) ∧
      BlitAt op l s k (passesDone l k) u ∧ P k u)
    (fun k v hk ⟨u, hv, here, hu⟩ => by
      obtain ⟨m, r, hm, next, run⟩ := here.runs quiet hk stride s.stack
      exact ⟨m, _, hm, hv ▸ run, _, rfl, next, registers _ _ r (unit k u hk here hu)⟩)
    (s := push (.blit op l .test) s) ⟨s, by simp [blitPlace]; rfl, first, start⟩
  obtain ⟨m', r, hm', final, last⟩ := here.ends stride s.stack
  rw [State.withStack_eq final.stack] at last
  refine ⟨t.withBlit r, command_runs hp (run.trans last) final.stack ?_, final, registers _ _ r done⟩
  have := s.blit.len.isLt
  unfold Config.burst
  omega

/-! ## Where an operation ends (R320, R321, R350) -/

theorem unitWidth_blitLatch (op : BlitOp) (f : BlitFields) (skip : Bool) (w : Width) :
    unitWidth op (blitLatch f skip w) = if op = .invert then .byte else w := by
  cases op <;> rfl

/-- The registers at the end of an operation. -/
theorem blitAfter_end (op : BlitOp) (l : BlitLatch) (r : BlitRegs) (j : Nat) :
    blitAfter op l r r.len.toNat j = {
      a := if op = .blit then r.a + BitVec.ofNat 32 (r.len.toNat * (unitWidth op l).step) else r.a,
      b := r.b + BitVec.ofNat 32 (r.len.toNat * (unitWidth op l).step) +
        BitVec.ofNat 32 j * strideJump l.dstStride l.srcStride (unitWidth op l).step,
      len := 0, key := r.key } := by
  simp [blitAfter, advance]

/-- Without stride-skip no jump is made. -/
theorem blitTarget_noSkip {op : BlitOp} {l : BlitLatch} (skip : l.skip = false) (s : State) (k : Nat) :
    blitTarget op l s k = s.blit.b + BitVec.ofNat 32 (k * (unitWidth op l).step) := by
  simp [blitTarget, blitAfter, passesDone, skip]

theorem blitTarget_skip {op : BlitOp} {l : BlitLatch} (skip : l.skip = true) (s : State) (k : Nat) :
    blitTarget op l s k = s.blit.b + BitVec.ofNat 32 (k * (unitWidth op l).step) +
      BitVec.ofNat 32 (k / l.srcStride.toNat) * strideJump l.dstStride l.srcStride (unitWidth op l).step := by
  simp [blitTarget, blitAfter, passesDone, skip]

/-- Settles O49. -/
theorem blitterOperationsEndWithLengthZero : Obligations.BlitterOperationsEndWithLengthZero := by
  rintro s op f l _ i hp width rfl hi quiet
  rw [← unitWidth_blitLatch op f false l] at quiet ⊢
  obtain ⟨t, ht, here, -⟩ := blit_induction (op := op) (l := blitLatch f false l) hp
    (fun k hk => by rw [blitTarget_noSkip rfl]; exact quiet k hk) (fun skip => nomatch skip)
    (P := fun _ _ => True) trivial (fun _ _ _ _ => trivial) (fun _ _ _ _ _ => trivial)
  refine ⟨t, (exec_blit width hi).trans ht, ?_, here.stack, here.keeps.result⟩
  rw [here.regs, blitAfter_end]
  simp [passesBegun, blitLatch]

/-- Settles O50. -/
theorem strideSkipOperationsEndWithLengthZero : Obligations.StrideSkipOperationsEndWithLengthZero := by
  rintro s op f l _ _ _ i hp width rfl rfl stride rfl hi quiet
  rw [← unitWidth_blitLatch op f true l] at quiet ⊢
  obtain ⟨t, ht, here, -⟩ := blit_induction (op := op) (l := blitLatch f true l) hp
    (fun k hk => by rw [blitTarget_skip rfl]; exact quiet k hk) (fun _ => stride)
    (P := fun _ _ => True) trivial (fun _ _ _ _ => trivial) (fun _ _ _ _ _ => trivial)
  refine ⟨t, (exec_blit width hi).trans ht, ?_, here.stack, here.keeps.result⟩
  rw [here.regs, blitAfter_end]
  rfl

end Sys2Proof.Machine
end

section
/-! Blit, Set and Invert over working RAM (44_blitter.md sections 2 to 4): their units as functions of an index, without
stride-skip and on the rows of a rectangle; and the operation that never ends. -/

namespace Sys2Proof.Machine

/-! ## One unit over working RAM (R320, R330, R331, R335) -/

theorem invert_byte (b : Byte) : (~~~ longOfBytes [b]).extractLsb' 0 8 = ~~~ b := by
  rw [longOfBytes_one]
  apply BitVec.eq_of_getLsbD_eq
  intro i hi
  simp [hi, show i < 32 by omega]

/-- The accesses of a unit whose bytes lie in working RAM, but for Set without stride-skip. -/
theorem blitMove_inWram {op : BlitOp} {l : BlitLatch} {u : State} (legal : cfgWf u.cfg = true)
    (wf : u.mem.wram.wf = true) (target : inWram u.cfg u.blit.b (unitWidth op l).step)
    (source : op = .blit → inWram u.cfg u.blit.a (unitWidth op l).step) (set : op = .set → l.skip = true) :
    ∃ m, blitMove op l u = u.withMem { u.mem with wram := m } ∧
      m.read = blitUnit op l.keyEn u.blit.key u.blit.a (unitWidth op l).step (offOf u.blit.a) (offOf u.blit.b)
        u.mem.wram.read := by
  cases op with
  | blit =>
    have read : busRead l.width u.blit.a u = _ := busRead_inWram legal (source rfl)
    simp only [blitMove, read, Bool.and_eq_true, decide_eq_true_eq]
    by_cases keyed : l.keyEn = true ∧ longOfBytes ((List.range l.width.step).map fun x =>
      u.mem.wram.read (offOf u.blit.a + x)) = u.blit.key
    · exact ⟨u.mem.wram, if_pos keyed, (if_pos keyed).symm⟩
    · refine ⟨_, (if_neg keyed).trans (busWrite_inWram target _), ?_⟩
      exact (storeFrom_longOfBytes wf _ _ _).trans (if_neg keyed).symm
  | set =>
    refine ⟨_, ?_, storeFrom_bytesOf wf _ l.width u.blit.a⟩
    rw [blitMove, if_pos (set rfl)]
    exact busWrite_inWram target _
  | invert =>
    have read : busRead .byte u.blit.b u = _ := busRead_inWram legal target
    have complement : unitStored 1 (offOf u.blit.b) (fun x =>
        (~~~ longOfBytes [u.mem.wram.read (offOf u.blit.b)]).extractLsb' (8 * (1 - 1 - x)) 8) u.mem.wram.read =
        unitStored 1 (offOf u.blit.b) (fun x => ~~~ u.mem.wram.read (offOf u.blit.b + x)) u.mem.wram.read :=
      unitStored_congr fun x hx => by
        obtain rfl := Nat.lt_one_iff.mp hx
        exact invert_byte _
    refine ⟨_, ?_, (storeFrom_bytesOf wf (offOf u.blit.b) .byte _).trans complement⟩
    simp only [blitMove, read]
    exact busWrite_inWram target _

/-- Set without stride-skip writes back what it reads. -/
theorem blitMove_set_noSkip {l : BlitLatch} {u : State} (skip : l.skip = false) (legal : cfgWf u.cfg = true)
    (wf : u.mem.wram.wf = true) (target : inWram u.cfg u.blit.b l.width.step) :
    ∃ m, blitMove .set l u = u.withMem { u.mem with wram := m } ∧ m.read = u.mem.wram.read := by
  refine ⟨_, ?_, (storeFrom_longOfBytes wf (offOf u.blit.b) l.width _).trans (unitStored_self _ _ _)⟩
  rw [blitMove, if_neg (by simp [skip]), busRead_inWram legal target]
  exact busWrite_inWram target _

/-! ## An operation over working RAM -/

/-- An operation whose targets lie in working RAM, unit `k` changing it by `f k`: the whole next state. -/
theorem blit_wram {op : BlitOp} {l : BlitLatch} {s : State} (hp : s.provisioned = true)
    (stride : l.skip = true → 1 ≤ l.srcStride.toNat) {f : Nat → (Nat → Byte) → Nat → Byte}
    (target : ∀ k, k < s.blit.len.toNat → inWram s.cfg (blitTarget op l s k) (unitWidth op l).step)
    (move : ∀ k u, k < s.blit.len.toNat → BlitAt op l s k (passesDone l k) u →
      ∃ m, blitMove op l u = u.withMem { u.mem with wram := m } ∧ m.read = f k u.mem.wram.read) :
    ∃ t, command (push (.blit op l .test)) s = .next t ∧
      (∀ j, t.mem.wram.read j = unitsInOrder f s.blit.len.toNat s.mem.wram.read j) ∧
      t = (s.withMem { s.mem with wram := t.mem.wram }).withBlit
        (blitAfter op l s.blit s.blit.len.toNat (passesBegun l s.blit.len.toNat)) := by
  obtain ⟨t, ht, here, frame, bytes⟩ := blit_induction hp
    (fun k hk r _ => not_reaches_outside (target k hk).2.1 r) stride
    (P := fun n u => u = (s.withMem { s.mem with wram := u.mem.wram }).withBlit u.blit ∧
      u.mem.wram.read = unitsInOrder f n s.mem.wram.read)
    ⟨rfl, rfl⟩
    (fun _ u r ⟨frame, bytes⟩ => ⟨(congrArg (State.withBlit · r) frame :), bytes⟩)
    (fun k u hk here ⟨frame, bytes⟩ => by
      obtain ⟨m, moved, read⟩ := move k u hk here
      rw [moved]
      refine ⟨?_, ?_⟩
      · conv_lhs => rw [frame]
        rfl
      · rw [unitsInOrder, ← bytes]
        exact read)
  refine ⟨t, ht, fun j => congrFun bytes j, ?_⟩
  rw [← here.regs]
  exact frame

/-- Only Blit looks at its source, and only Set at the value. -/
theorem blitUnit_congr {op : BlitOp} {keyEn : Bool} {key a a' : Long} {n src src' dst : Nat}
    (blit : op = .blit → src = src') (set : op = .set → a = a') :
    blitUnit op keyEn key a n src dst = blitUnit op keyEn key a' n src' dst := by
  cases op with
  | blit => rw [blit rfl]; rfl
  | set => rw [set rfl]; rfl
  | invert => rfl

/-- The units of an operation over working RAM, but for Set without stride-skip. -/
theorem blit_units {op : BlitOp} {l : BlitLatch} {s : State} (hp : s.provisioned = true) (inv : s.inv = true)
    (stride : l.skip = true → 1 ≤ l.srcStride.toNat) (set : op = .set → l.skip = true)
    (target : ∀ k, k < s.blit.len.toNat → inWram s.cfg (blitTarget op l s k) (unitWidth op l).step)
    (source : ∀ k, k < s.blit.len.toNat → op = .blit →
      inWram s.cfg (s.blit.a + BitVec.ofNat 32 (k * (unitWidth op l).step)) (unitWidth op l).step) :
    ∃ t, command (push (.blit op l .test)) s = .next t ∧
      (∀ j, t.mem.wram.read j = unitsInOrder (fun k =>
        blitUnit op l.keyEn s.blit.key s.blit.a (unitWidth op l).step
          (offOf (s.blit.a + BitVec.ofNat 32 (k * (unitWidth op l).step))) (offOf (blitTarget op l s k)))
        s.blit.len.toNat s.mem.wram.read j) ∧
      t = (s.withMem { s.mem with wram := t.mem.wram }).withBlit
        (blitAfter op l s.blit s.blit.len.toNat (passesBegun l s.blit.len.toNat)) := by
  obtain ⟨legal, ok⟩ := inv_iff.mp inv
  refine blit_wram hp stride target fun k u hk here => ?_
  have b : u.blit.b = blitTarget op l s k := by rw [here.regs]; rfl
  have key : u.blit.key = s.blit.key := by rw [here.regs]; rfl
  have a : u.blit.a = advance (decide (op = .blit)) s.blit.a (k * (unitWidth op l).step) := by rw [here.regs]; rfl
  have a_blit (h : op = .blit) : u.blit.a = s.blit.a + BitVec.ofNat 32 (k * (unitWidth op l).step) := by
    rw [a, decide_eq_true h]; rfl
  have a_set (h : op = .set) : u.blit.a = s.blit.a := by rw [a, h]; rfl
  obtain ⟨m, moved, read⟩ := blitMove_inWram (l := l) (u := u) (by rw [here.keeps.cfg]; exact legal)
    (memOk.wram_wf (here.keeps.mem ok)) (by rw [here.keeps.cfg, b]; exact target k hk)
    (fun h => by rw [here.keeps.cfg, a_blit h]; exact source k hk h) set
  refine ⟨m, moved, read.trans ?_⟩
  rw [b, key]
  exact congrFun (blitUnit_congr (fun h => congrArg offOf (a_blit h)) a_set) _

/-! ## Units that do not meet -/

/-- The bytes that a unit of an operation stores. -/
def blitBytes (op : BlitOp) (keyEn : Bool) (key value : Long) (n src dst : Nat) (m : Nat → Byte) (x : Nat) : Byte :=
  match op with
  | .blit =>
    if keyEn ∧ longOfBytes ((List.range n).map fun y => m (src + y)) = key then m (dst + x) else m (src + x)
  | .set => value.extractLsb' (8 * (n - 1 - x)) 8
  | .invert => ~~~ m (dst + x)

/-- A unit equal to the key stores what is there. -/
theorem blitUnit_eq (op : BlitOp) (keyEn : Bool) (key value : Long) (n src dst : Nat) (m : Nat → Byte) :
    blitUnit op keyEn key value n src dst m = unitStored n dst (blitBytes op keyEn key value n src dst m) m := by
  cases op with
  | blit =>
    by_cases keyed : keyEn ∧ longOfBytes ((List.range n).map fun y => m (src + y)) = key
    · exact (if_pos keyed).trans ((unitStored_self n dst m).symm.trans
        (unitStored_congr fun x _ => (if_pos keyed).symm))
    · exact (if_neg keyed).trans (unitStored_congr fun x _ => (if_neg keyed).symm)
  | set => rfl
  | invert => rfl

theorem unitsInOrder_congr {f g : Nat → (Nat → Byte) → Nat → Byte} {n : Nat} (h : ∀ k, k < n → f k = g k)
    (m : Nat → Byte) : unitsInOrder f n m = unitsInOrder g n m := by
  induction n with
  | zero => rfl
  | succ n ih => rw [unitsInOrder, unitsInOrder, ih fun k hk => h k (by omega), h n (Nat.lt_succ_self n)]

/-- Where no two targets meet and, for Blit, no target meets a source, every unit is made from what was there at the
start. -/
theorem blitUnits_disjoint {op : BlitOp} {keyEn : Bool} {key value : Long} {step n : Nat} {src dst : Nat → Nat}
    (m : Nat → Byte) (apart : ∀ k l, k < l → l < n → dst k + step ≤ dst l)
    (clear : op = .blit → ∀ k l, k < n → l < n → src k + step ≤ dst l ∨ dst l + step ≤ src k) :
    (∀ k x, k < n → x < step →
      unitsInOrder (fun k => blitUnit op keyEn key value step (src k) (dst k)) n m (dst k + x) =
        blitBytes op keyEn key value step (src k) (dst k) m x) ∧
      ∀ j, (∀ k, k < n → ¬ InUnit (dst k) step j) →
        unitsInOrder (fun k => blitUnit op keyEn key value step (src k) (dst k)) n m j = m j := by
  refine unitsInOrder_disjoint m (fun k m' _ => blitUnit_eq op keyEn key value step (src k) (dst k) m')
    (fun k l hkl hl => .inl (apart k l hkl hl)) fun k m' hk same x hx => ?_
  have target (x : Nat) (hx : x < step) : m' (dst k + x) = m (dst k + x) := same _ fun l hl => by
    have := apart l k hl hk
    rintro ⟨low, high⟩
    omega
  cases op with
  | blit =>
    have source (y : Nat) (hy : y < step) : m' (src k + y) = m (src k + y) := same _ fun l hl => by
      have := clear rfl k l hk (by omega)
      rintro ⟨low, high⟩
      omega
    have read : (List.range step).map (fun y => m' (src k + y)) = (List.range step).map fun y => m (src k + y) :=
      List.map_congr_left fun y hy => source y (List.mem_range.mp hy)
    simp only [blitBytes, read, target x hx, source x hx]
  | set => rfl
  | invert => exact congrArg (~~~ ·) (target x hx)

/-- An operation between ranges of working RAM that do not overlap, its units contiguous at the source and at the places
`place` of the target. -/
theorem blitUnits_inWram {op : BlitOp} {c : Cfg} {a b : Addr} {keyEn : Bool} {key value : Long} {step len n : Nat}
    {place : Nat → Nat} (pos : 0 < step) (ascending : ∀ k l, k < l → l < len → place k + step ≤ place l)
    (fits : ∀ k, k < len → place k + step ≤ n) (to_wram : inWram c b n)
    (from_wram : op = .blit → inWram c a (len * step) ∧ (offOf a + len * step ≤ offOf b ∨ offOf b + n ≤ offOf a))
    {f : Nat → (Nat → Byte) → Nat → Byte} (units : ∀ k, f k = blitUnit op keyEn key value step
      (offOf (a + BitVec.ofNat 32 (k * step))) (offOf (b + BitVec.ofNat 32 (place k)))) (m : Nat → Byte) :
    (∀ k x, k < len → x < step → unitsInOrder f len m (offOf b + (place k + x)) =
      blitBytes op keyEn key value step (offOf a + k * step) (offOf b + place k) m x) ∧
    ∀ j, (∀ k x, k < len → x < step → j ≠ offOf b + (place k + x)) → unitsInOrder f len m j = m j := by
  have target (k : Nat) (hk : k < len) : offOf (b + BitVec.ofNat 32 (place k)) = offOf b + place k :=
    (to_wram.2.2 _ (Nat.lt_of_lt_of_le (Nat.lt_add_of_pos_right pos) (fits k hk))).2
  have source (k : Nat) (hk : k < len) (blit : op = .blit) :
      offOf (a + BitVec.ofNat 32 (k * step)) = offOf a + k * step :=
    ((from_wram blit).1.2.2 _ (unit_within hk pos)).2
  rw [unitsInOrder_congr (g := fun k => blitUnit op keyEn key value step (offOf a + k * step) (offOf b + place k))
    fun k hk => by rw [units, target k hk, blitUnit_congr (source k hk) fun _ => rfl]]
  obtain ⟨moved, kept⟩ := blitUnits_disjoint (op := op) (keyEn := keyEn) (key := key) (value := value) (n := len)
    (step := step) (src := fun k => offOf a + k * step) (dst := fun k => offOf b + place k) m
    (fun k l hkl hl => by have := ascending k l hkl hl; omega)
    (fun blit k l hk hl => by
      have apart := (from_wram blit).2
      have := consecutive_apart 0 step k _ hk
      have := fits l hl
      omega)
  refine ⟨fun k x hk hx => by rw [← Nat.add_assoc]; exact moved k x hk hx, fun j out => kept j fun k hk => ?_⟩
  rintro ⟨low, high⟩
  exact out k (j - (offOf b + place k)) hk (by omega) (by omega)

/-! ## Without stride-skip -/

/-- Settles O51: each unit is read from working RAM as the one before left it; between ranges that do not overlap no
unit reads what another wrote. -/
theorem blitCopiesAllButKeyedUnits : Obligations.BlitCopiesAllButKeyedUnits := by
  rintro s f w _ _ _ hp inv width rfl rfl inside rfl
  obtain ⟨t, ht, bytes, frame⟩ := blit_units (op := .blit) (l := blitLatch f false w) hp inv (fun skip => nomatch skip)
    (fun set => nomatch set) (fun k hk => by rw [blitTarget_noSkip rfl]; exact (inside k hk).2)
    (fun k hk _ => (inside k hk).1)
  simp only [blitTarget_noSkip (op := .blit) (l := blitLatch f false w) rfl] at bytes
  refine ⟨t, (exec_blit width (List.mem_cons_self ..)).trans ht, bytes, fun from_wram to_wram apart => ?_, ?_⟩
  · obtain ⟨copied, kept⟩ := blitUnits_inWram (op := .blit) (place := fun k => k * w.step) (Width.step_pos w)
      (fun k l hkl _ => by
        have := consecutive_apart 0 w.step k l hkl
        omega)
      (fun k hk => by
        have := consecutive_apart 0 w.step k _ hk
        omega)
      to_wram (fun _ => ⟨from_wram, apart⟩) (keyEn := f.keyEn) (key := s.blit.key) (value := s.blit.a) (fun _ => rfl)
      s.mem.wram.read
    refine ⟨fun k x hk hx => (bytes _).trans ?_, fun j out => (bytes j).trans (kept j fun k x hk hx => ?_)⟩
    · simp only [← Nat.add_assoc]
      exact (congrArg _ (Nat.add_assoc ..)).trans (copied k x hk hx)
    · have := unit_within hk hx
      omega
  · rw [frame, blitAfter_end]
    simp [passesBegun, blitLatch, unitWidth]

/-- Settles O52: each unit stores the bytes that stand there. -/
theorem setWithoutStrideSkipLeavesMemoryAsItIs : Obligations.SetWithoutStrideSkipLeavesMemoryAsItIs := by
  rintro s f w _ hp inv width rfl inside
  obtain ⟨legal, ok⟩ := inv_iff.mp inv
  have target (k : Nat) (hk : k < s.blit.len.toNat) :
      inWram s.cfg (blitTarget .set (blitLatch f false w) s k) (unitWidth .set (blitLatch f false w)).step := by
    rw [blitTarget_noSkip rfl]
    have := consecutive_apart 0 w.step k _ hk
    exact inside.sub (by simp only [unitWidth, blitLatch]; omega)
  obtain ⟨t, ht, bytes, frame⟩ := blit_wram (op := .set) (l := blitLatch f false w) hp (fun skip => nomatch skip)
    (f := fun _ m => m) target (fun k u hk here => by
      have b : u.blit.b = blitTarget .set (blitLatch f false w) s k := by rw [here.regs]; rfl
      exact blitMove_set_noSkip rfl (by rw [here.keeps.cfg]; exact legal) (memOk.wram_wf (here.keeps.mem ok))
        (by rw [here.keeps.cfg, b]; exact target k hk))
  have still (n : Nat) (m : Nat → Byte) : unitsInOrder (fun _ m => m) n m = m := by
    induction n with
    | zero => rfl
    | succ n ih => exact ih
  refine ⟨t, (exec_blit width (List.mem_cons_self ..)).trans ht, fun j => by rw [bytes, still], ?_⟩
  rw [frame, blitAfter_end]
  simp [passesBegun, blitLatch, unitWidth]

/-- Settles O53: the units are single bytes, and no two meet. -/
theorem invertComplementsItsBytes : Obligations.InvertComplementsItsBytes := by
  intro s f w hp inv width inside
  have place (k : Nat) : blitTarget .invert (blitLatch f false w) s k = s.blit.b + BitVec.ofNat 32 k := by
    rw [blitTarget_noSkip rfl]
    exact congrArg (fun n => s.blit.b + BitVec.ofNat 32 n) (Nat.mul_one k)
  obtain ⟨t, ht, bytes, frame⟩ := blit_units (op := .invert) (l := blitLatch f false w) hp inv
    (fun skip => nomatch skip) (fun set => nomatch set)
    (fun k hk => by rw [place]; exact inside.sub (show k + 1 ≤ _ from hk)) (fun _ _ blit => nomatch blit)
  obtain ⟨complemented, frames⟩ := unitsInOrder_disjoint (step := 1) (n := s.blit.len.toNat)
    (dst := fun k => offOf s.blit.b + k) (bs := fun k m x => ~~~ m (offOf s.blit.b + k + x))
    (f := fun k => blitUnit .invert f.keyEn s.blit.key s.blit.a 1
      (offOf (s.blit.a + BitVec.ofNat 32 (k * 1))) (offOf (blitTarget .invert (blitLatch f false w) s k)))
    s.mem.wram.read (fun k m hk => by rw [place, (inside.2.2 k hk).2]; rfl) (fun k l hk _ => by omega)
    (fun k m hk same x hx => congrArg (~~~ ·) (same _ fun l hl => by rintro ⟨low, high⟩; omega))
  refine ⟨t, (exec_blit width (List.mem_cons_self ..)).trans ht, fun j => (bytes j).trans ?_, ?_⟩
  · split
    next h =>
      have split : j = offOf s.blit.b + (j - offOf s.blit.b) + 0 := by omega
      have one := complemented (j - offOf s.blit.b) 0 (by omega) Nat.one_pos
      rw [← split] at one
      exact one
    next h => exact frames j fun k hk => by rintro ⟨low, high⟩; omega
  · rw [frame, blitAfter_end]
    simp [passesBegun, blitLatch, unitWidth, Width.step]

/-! ## Rows of a rectangle (R321, R331, R336) -/

/-- The unit on which unit `k` lies, with rows of `ss` units and a pitch of `ds` units. -/
def rowPlace (ss ds k : Nat) : Nat := k / ss * ds + k % ss

/-- The target of unit `k` is on its row: the jumps make up the pitch. -/
theorem blitTarget_row {op : BlitOp} {l : BlitLatch} (skip : l.skip = true) (s : State) (k : Nat) :
    blitTarget op l s k = s.blit.b +
      BitVec.ofNat 32 (rowPlace l.srcStride.toNat l.dstStride.toNat k * (unitWidth op l).step) := by
  have split :
      (k : Int) = (k / l.srcStride.toNat : Nat) * (l.srcStride.toNat : Int) + (k % l.srcStride.toNat : Nat) := by
    exact_mod_cast (Nat.div_add_mod' k l.srcStride.toNat).symm
  have ints (n : Nat) : BitVec.ofNat 32 n = BitVec.ofInt 32 n := (BitVec.ofInt_natCast 32 n).symm
  rw [blitTarget_skip skip, BitVec.add_assoc, strideJump, ints, ints, ints, ← BitVec.ofInt_mul, ← BitVec.ofInt_add]
  congr 2
  simp only [rowPlace, Nat.cast_mul, Nat.cast_add]
  linear_combination ((unitWidth op l).step : Int) * split

/-- Where the pitch is at least a row, a later unit lies after an earlier one. -/
theorem rowPlace_lt {ss ds k l : Nat} (hss : 1 ≤ ss) (pitch : ss ≤ ds) (h : k < l) :
    rowPlace ss ds k < rowPlace ss ds l := by
  have inRow := Nat.mod_lt k hss
  obtain same | later : k / ss = l / ss ∨ k / ss + 1 ≤ l / ss := by
    have := Nat.div_le_div_right (c := ss) (Nat.le_of_lt h)
    omega
  · have hk := Nat.div_add_mod' k ss
    have hl := Nat.div_add_mod' l ss
    rw [rowPlace, rowPlace, same]
    rw [same] at hk
    omega
  · have rows := Nat.mul_le_mul_right ds later
    rw [Nat.succ_mul] at rows
    rw [rowPlace, rowPlace]
    omega

/-- Settles O54: every unit on its row; where rows do not overlap no unit meets another. -/
theorem strideSkipWorksOnARectangle : Obligations.StrideSkipWorksOnARectangle := by
  rintro s op f l _ _ _ _ _ _ _ hp inv width rfl rfl rfl stride rfl rfl rfl inside rfl
  rw [← unitWidth_blitLatch op f true l] at *
  obtain ⟨t, ht, bytes, frame⟩ := blit_units (op := op) (l := blitLatch f true l) hp inv (fun _ => stride)
    (fun _ => rfl) (fun k hk => by rw [blitTarget_row rfl]; exact (inside k hk).1) (fun k hk => (inside k hk).2)
  simp only [blitTarget_row (op := op) (l := blitLatch f true l) rfl] at bytes
  refine ⟨t, (exec_blit width (List.mem_cons_self ..)).trans ht, bytes, fun pitch to_wram from_wram => ?_, ?_⟩
  · obtain ⟨moved, kept⟩ := blitUnits_inWram (place := fun k =>
        rowPlace f.srcStride.toNat f.dstStride.toNat k * (unitWidth op (blitLatch f true l)).step)
      (Width.step_pos (unitWidth op (blitLatch f true l)))
      (fun k k' hkl _ => by
        have := consecutive_apart 0 (unitWidth op (blitLatch f true l)).step _ _ (rowPlace_lt stride pitch hkl)
        omega)
      (fun k hk => by
        obtain rfl | before : k = s.blit.len.toNat - 1 ∨ k < s.blit.len.toNat - 1 := by omega
        · exact Nat.le_refl _
        · exact Nat.add_le_add_right (Nat.mul_le_mul_right _ (rowPlace_lt stride pitch before).le) _)
      to_wram from_wram (keyEn := f.keyEn) (key := s.blit.key) (value := s.blit.a) (fun _ => rfl)
      s.mem.wram.read
    refine ⟨fun k x hk hx => (bytes _).trans ((moved k x hk hx).trans ?_), fun j out => (bytes j).trans (kept j out)⟩
    simp only [blitBytes, Nat.add_assoc]
    cases op <;> rfl
  · conv_lhs => rw [frame]
    rw [frame]
    rfl

/-! ## The operation that never ends (R350, R376) -/

/-- A block hangs when every micro-step keeps a condition under which an engine is in progress. -/
theorem hangs_of_invariant {P : State → Prop} (micro : ∀ t, P t → P (tick t))
    (busy : ∀ t, P t → t.provisioned = true ∧ t.stack ≠ []) {s : State} (h : P s) : hangs s := by
  intro k
  induction k generalizing s with
  | zero => exact ⟨s, rfl, (busy s h).2⟩
  | succ k ih =>
    obtain ⟨t, run, inProgress⟩ := ih (settle_induction micro 0 Config.burst h)
    have one : Sys2Proof.core.step s = .next (settle 0 Config.burst s) :=
      step_running (busy s h).1 (busy s h).2
    refine ⟨t, (run_succ Sys2Proof.core k s).trans ?_, inProgress⟩
    rw [one]
    exact run

/-- An operation with stride-skip alone on the stack, between two of its passes. -/
structure BetweenPasses (op : BlitOp) (l : BlitLatch) (s : State) : Prop where
  provisioned : s.provisioned = true
  remains : s.blit.len ≠ 0
  stack : s.stack = [.blit op l .test] ∨ s.stack = [.blit op l (.pass 0)]

/-- With a source stride of 0 a pass has no unit: it begins, and it ends with its jump. -/
theorem BetweenPasses.tick {op : BlitOp} {l : BlitLatch} {s : State} (skip : l.skip = true)
    (stride : l.srcStride.toNat = 0) (h : BetweenPasses op l s) : BetweenPasses op l (tick s) := by
  obtain ⟨hp, remains, hs | hs⟩ := h
  · have begins := (blit_pass_start hs remains skip).2
    rw [show Machine.tick s = _ from begins]
    exact ⟨hp, remains, .inr rfl⟩
  · have ends := (blit_pass_end hs (by simp [stride])).2
    rw [show Machine.tick s = _ from ends]
    exact ⟨hp, remains, .inl rfl⟩

/-- Settles O55. -/
theorem aZeroSourceStrideHangs : Obligations.AZeroSourceStrideHangs := by
  rintro s op f w ⟨hp, hs⟩ width stride remains
  have micro (t : State) := BetweenPasses.tick (op := op) (l := blitLatch f true w) (s := t) rfl
    (congrArg BitVec.toNat stride)
  have armed : BetweenPasses op (blitLatch f true w) (push (.blit op (blitLatch f true w) .test) s) :=
    ⟨hp, remains, .inl (by rw [push_stack, hs])⟩
  refine ⟨_, (exec_blit width (List.mem_cons_self ..)).trans (command_provisioned hp _),
    hangs_of_invariant micro (fun t busy => ⟨busy.provisioned, ?_⟩) (settle_induction micro _ _ armed)⟩
  obtain h | h := busy.stack <;> simp [h]

end Sys2Proof.Machine
end

section
/-! RLE (44_blitter.md section 5): the output of a stream code, the fetch of the next code, and a run over a stream. -/

namespace Sys2Proof.Machine

/-! ## The output of a code (R340, R341) -/

theorem storeFrom_append (m : Memory) (i : Nat) (xs ys : List Byte) :
    storeFrom (storeFrom m i xs) (i + xs.length) ys = storeFrom m i (xs ++ ys) := by
  induction xs generalizing m i with
  | nil => rfl
  | cons x xs ih =>
    have := ih (m.write i x) (i + 1)
    rw [Nat.add_assoc, Nat.add_comm 1] at this
    exact this

/-- A state after `n` stream bytes are consumed and the bytes `out` written through `BLIT_B`, in working RAM. -/
def streamed (s : State) (n : Nat) (out : List Byte) : State :=
  (s.withMem { s.mem with wram := storeFrom s.mem.wram (offOf s.blit.b) out }).withBlit {
    a := s.blit.a + BitVec.ofNat 32 n
    b := s.blit.b + BitVec.ofNat 32 out.length
    len := s.blit.len - BitVec.ofNat 32 n
    key := s.blit.key }

theorem streamed_zero (s : State) : streamed s 0 [] = s := by
  simp only [streamed, storeFrom, List.length_nil, add_ofNat_zero, BitVec.sub_zero]
  rfl

theorem rleConsume_streamed (s : State) (n c : Nat) (out : List Byte) :
    rleConsume c (streamed s n out) = streamed s (n + c) out := by
  simp only [rleConsume, streamed, State.withBlit_blit, State.withBlit_withBlit, BitVec.ofNat_add,
    BitVec.add_assoc]
  rw [sub_add_eq_sub_sub]

/-- The bytes of a code's output, one after the other: two micro-steps each, and one to leave the stack. -/
theorem rleOut_runs {s : State} {n k : Nat} {v : Byte} {out : List Byte} {rest : List Activation}
    (inside : inWram s.cfg s.blit.b (out.length + n)) :
    Runs rest.length (2 * n + 1) ((streamed s k out).withStack (.rleOut n v false :: rest))
      ((streamed s k (out ++ List.replicate n v)).withStack rest) := by
  induction n generalizing out with
  | zero =>
    rw [List.replicate_zero, List.append_nil]
    exact rleOut_done (s := (streamed s k out).withStack (.rleOut 0 v false :: rest)) rfl
  | succ n ih =>
    have target : inWram s.cfg (s.blit.b + BitVec.ofNat 32 out.length) 1 := inside.sub (i := out.length) (by omega)
    have place := (inside.2.2 out.length (by omega)).2
    obtain ⟨u, hu, run⟩ := rleOut_unit (s := (streamed s k out).withStack (.rleOut (n + 1) v false :: rest)) rfl
      fun r _ => not_reaches_outside target.2.1 r
    have stored : u = ((streamed s k out).withMem { s.mem with
        wram := storeFrom s.mem.wram (offOf s.blit.b) (out ++ [v]) }).withStack (.rleOut n v true :: rest) := by
      have byte : bytesOf .byte (v.setWidth 32) = [v] := congrArg (· :: []) (byte_of_long v)
      rw [hu, busWrite_inWram (by exact target), byte]
      simp only [streamed, State.withStack_blit, State.withBlit_blit, State.withStack_mem, State.withBlit_mem,
        State.withMem_mem, place, storeFrom_append]
      rfl
    have advanced : ((u.withBlit { (streamed s k out).blit with b := (streamed s k out).blit.b + 1 }).withStack
        (.rleOut n v false :: rest)) = (streamed s k (out ++ [v])).withStack (.rleOut n v false :: rest) := by
      rw [stored, streamed, streamed, List.length_append, add_ofNat_add]
      rfl
    have next := ih (out := out ++ [v])
      (by rw [List.length_append, List.length_singleton, Nat.add_assoc, Nat.add_comm 1]; exact inside)
    rw [List.append_assoc] at next
    rw [show 2 * (n + 1) + 1 = 2 + (2 * n + 1) by omega]
    exact (run.cast advanced).trans next

/-- A code that does not stop the run consumes its bytes and writes its output. -/
theorem rleEffect_runs {code : RleCode} (h : code ≠ .stop) {s : State} {k : Nat} {out : List Byte}
    {rest : List Activation} (inside : inWram s.cfg s.blit.b (out.length + (codeOutput code).length)) :
    ∃ m, m ≤ 127 ∧ Runs rest.length m (rleEffect code ((streamed s k out).withStack rest))
      ((streamed s (k + (codeBytes code).length) (out ++ codeOutput code)).withStack rest) := by
  have effect (n c : Nat) (v : Byte) (hn : n < 64) (inside : inWram s.cfg s.blit.b (out.length + n)) :
      ∃ m, m ≤ 127 ∧ Runs rest.length m (push (.rleOut n v false) (rleConsume c ((streamed s k out).withStack rest)))
        ((streamed s (k + c) (out ++ List.replicate n v)).withStack rest) := by
    have consumed : push (.rleOut n v false) (rleConsume c ((streamed s k out).withStack rest)) =
        (rleConsume c (streamed s k out)).withStack (.rleOut n v false :: rest) := rfl
    rw [consumed, rleConsume_streamed]
    exact ⟨2 * n + 1, by omega, rleOut_runs inside⟩
  cases code with
  | stop => exact absurd rfl h
  | run n v =>
    rw [codeOutput, List.length_replicate] at inside
    exact effect n.toNat 2 v n.isLt inside
  | lit v => exact effect 1 1 v (by decide) inside

/-! ## A code as a command (log 11) -/

/-- A command that does what a code does. -/
theorem command_rleEffect {code : RleCode} (h : code ≠ .stop) {s : State} (hp : s.provisioned = true)
    (inside : inWram s.cfg s.blit.b (codeOutput code).length) :
    command (rleEffect code) s = .next (streamed s (codeBytes code).length (codeOutput code)) := by
  obtain ⟨m, hm, run⟩ := rleEffect_runs (k := 0) (out := []) (rest := s.stack) h (by simpa using inside)
  rw [streamed_zero, State.withStack_eq rfl, Nat.zero_add, List.nil_append] at run
  exact command_runs hp run rfl (Nat.le_trans hm (by decide))

/-- Settles O57. -/
theorem streamCodesConsumeTheirBytesAndWriteTheirOutput :
    Obligations.StreamCodesConsumeTheirBytesAndWriteTheirOutput := by
  refine ⟨fun s i code hp inv hi inside => ?output, fun s hp => ⟨fun l rest hs => ?stops, fun alone => ?alone⟩⟩
  case output =>
    obtain ⟨-, ok⟩ := inv_iff.mp inv
    obtain ⟨runs, does⟩ : code ≠ .stop ∧ exec i s = command (rleEffect code) s := by
      obtain ⟨n, v, rfl, rfl, -⟩ | ⟨v, rfl, rfl⟩ | ⟨v, rfl, rfl⟩ := hi <;> exact ⟨by simp, rfl⟩
    refine ⟨_, does.trans (command_rleEffect runs hp inside), fun j hj => ?_, fun j hj => ?_, rfl⟩
    · refine (storeFrom_read (memOk.wram_wf ok) _ _ _).trans ?_
      rw [if_pos (by omega), Nat.add_sub_cancel_left]
    · exact (storeFrom_read (memOk.wram_wf ok) _ _ _).trans (if_neg (by omega))
  case stops =>
    have stop : rleEffect .stop s = (s.withBlit { s.blit with a := s.blit.a + 2, len := s.blit.len - 2 }).withStack
        rest := by
      simp only [rleEffect, rleConsume, rleStop, State.withBlit_stack, hs]
      rfl
    refine (command_quiet hp ?_).trans (congrArg _ stop)
    rw [stop, hs]
    exact Nat.le_succ _
  case alone =>
    have noRun : rleStop (rleConsume 2 s) = rleConsume 2 s := by
      unfold rleStop
      split
      next l rest hs => exact absurd hs (alone l rest)
      next => rfl
    exact command_of_effect hp noRun rfl

/-! ## The fetch (R340, R343) -/

/-- The fetch where its bytes are plain: the second is read where the first asks for it. -/
theorem rleFetch_one {s : State} (first : plainAddr s.cfg s.blit.a) (h : rleTwoBytes (plainByte s s.blit.a) = false) :
    rleFetch s = (.lit (plainByte s s.blit.a), s) := by
  simp only [rleFetch, busRead_byte, byteRead_plain first, byte_of_long, h, Bool.false_eq_true, if_false]

theorem rleFetch_two {s : State} (first : plainAddr s.cfg s.blit.a) (second : plainAddr s.cfg (s.blit.a + 1))
    (h : rleTwoBytes (plainByte s s.blit.a) = true) :
    rleFetch s = (rlePair (plainByte s s.blit.a) (plainByte s (s.blit.a + 1)), s) := by
  simp only [rleFetch, busRead_byte, byteRead_plain first, byteRead_plain second, byte_of_long, h, if_true]

/-- The fetch and the decoder read the same code. -/
theorem rleFetch_of_decode {s : State} {i : Instr} {more : List Byte} (first : plainAddr s.cfg s.blit.a)
    (second : plainAddr s.cfg (s.blit.a + 1))
    (h : decode s.cfg .rle (plainBytes s s.blit.a 2) = .ok (i, more)) :
    ∃ code, (∀ v, code = .lit v → rleTwoBytes v = false) ∧ rleFetch s = (code, s) ∧ i = rleInstr code := by
  rw [plainBytes_two] at h
  cases two : rleTwoBytes (plainByte s s.blit.a) with
  | false =>
    rw [decode_rle_one two] at h
    obtain ⟨rfl, -⟩ := Prod.mk.inj (Except.ok.inj h)
    exact ⟨_, fun v same => RleCode.lit.inj same ▸ two, rleFetch_one first two, rfl⟩
  | true =>
    rw [decode_rle_two two] at h
    obtain ⟨rfl, -⟩ := Prod.mk.inj (Except.ok.inj h)
    refine ⟨_, fun v same => ?_, rleFetch_two first second two, rfl⟩
    unfold rlePair at same
    split at same <;> cases same

theorem literal_below (b : Byte) (h : b.getLsbD 7 = false) : b = (0 : BitVec 1) ++ b.setWidth 7 := by
  revert b; decide

theorem literal_above (b : Byte) (h : b.getLsbD 7 = true) (one : rleTwoBytes b = false) :
    b = (2 : BitVec 2) ++ b.setWidth 6 := by
  revert b; decide

/-- Settles O58: a literal's two rows say its top bits, so the row gives back the byte. -/
theorem anRleRunFetchesWholeCodes : Obligations.AnRleRunFetchesWholeCodes := by
  intro s l rest i more hs remains first second decoded
  obtain ⟨code, oneByte, fetch, rfl⟩ := rleFetch_of_decode first second decoded
  have does : tick s = rleEffect code s := by
    have := (rle_code hs remains).2
    rw [fetch] at this
    exact this
  rw [does]
  cases code with
  | stop => exact ⟨fun _ => rfl, nofun, nofun, nofun⟩
  | run n v =>
    refine ⟨nofun, fun n' v' h => ?_, nofun, nofun⟩
    obtain ⟨rfl, rfl⟩ := Instr.rleRun.inj h
    rfl
  | lit b =>
    cases top : b.getLsbD 7 with
    | false =>
      simp only [rleInstr, top, Bool.false_eq_true, if_false]
      refine ⟨nofun, nofun, fun v h => ?_, nofun⟩
      rw [← Instr.rleLit0.inj h, ← literal_below b top]
    | true =>
      simp only [rleInstr, top, if_true]
      refine ⟨nofun, nofun, nofun, fun v h => ?_⟩
      rw [← Instr.rleLit1.inj h, ← literal_above b top (oneByte b rfl)]

end Sys2Proof.Machine
end

section
/-! A run of RLE decompression over a stream of codes in working RAM (44_blitter.md section 5). -/

namespace Sys2Proof.Machine

/-! ## Arming (R310) -/

/-- The function word as a command, and the write that carries it, arm the same run. -/
theorem exec_rle {skip : Bool} {f : BlitFields} {w : Width} {s : State} (h : widthOf s.cfg f.width = some w)
    {i : Instr} (hi : i ∈ [.bltRle f skip, .blitFuncW (blitfWord f skip 4)]) :
    exec i s = command (push (.rle (blitLatch f skip w))) s := by
  have start := rleStart_armed h skip
  have word : blitArm (blitfWord f skip 4) s = rleStart f skip s := by
    simp [blitArm, blitf_func, blitf_fields, blitf_skip]
  simp only [List.mem_cons, List.not_mem_nil, or_false] at hi
  obtain rfl | rfl := hi
  · exact command_congr start
  · exact command_congr (word.trans start)

/-! ## The code that a run fetches -/

/-- The fetch of a code whose bytes are plain. -/
theorem rleFetch_code {code : RleCode} (h : codeRuns code = true ∨ code = .stop) {u : State}
    (bytes : ∀ x, x < (codeBytes code).length → plainAddr u.cfg (u.blit.a + BitVec.ofNat 32 x) ∧
      plainByte u (u.blit.a + BitVec.ofNat 32 x) = (codeBytes code).getD x 0) : rleFetch u = (code, u) := by
  have fetch_two {c v : Byte} (two : codeBytes code = [c, v]) (twoBytes : rleTwoBytes c = true)
      (pair : rlePair c v = code) : rleFetch u = (code, u) := by
    rw [two] at bytes
    obtain ⟨first, c_eq⟩ := bytes 0 Nat.two_pos
    obtain ⟨second, v_eq⟩ := bytes 1 Nat.one_lt_two
    rw [add_ofNat_zero] at first c_eq
    replace c_eq : plainByte u u.blit.a = c := c_eq
    replace v_eq : plainByte u (u.blit.a + 1) = v := v_eq
    rw [rleFetch_two first second (c_eq ▸ twoBytes), c_eq, v_eq, pair]
  cases code with
  | stop => exact fetch_two rfl (by decide) (by decide)
  | run n v =>
    have notEnd : ¬ (n = 0 ∧ v = 0xC0) := by simpa [codeRuns, Decidable.imp_iff_not_or] using h
    exact fetch_two rfl (rleTwoBytes_run n) (rlePair_run notEnd)
  | lit v =>
    obtain ⟨first, v_eq⟩ := bytes 0 Nat.one_pos
    rw [add_ofNat_zero] at first v_eq
    replace v_eq : plainByte u u.blit.a = v := v_eq
    have one : rleTwoBytes v = false := by simpa [codeRuns] using h
    rw [rleFetch_one first (v_eq ▸ one), v_eq]

/-! ## A stream -/

/-- The stream bytes of the first `k` codes, and what these codes write. -/
def usedBytes (all : List RleCode) (k : Nat) : Nat := ((all.take k).flatMap codeBytes).length
def written (all : List RleCode) (k : Nat) : List Byte := (all.take k).flatMap codeOutput

theorem usedBytes_succ {all : List RleCode} {k : Nat} {code : RleCode} (h : all[k]? = some code) :
    usedBytes all (k + 1) = usedBytes all k + (codeBytes code).length := by
  simp [usedBytes, List.take_add_one, h]

theorem written_succ {all : List RleCode} {k : Nat} {code : RleCode} (h : all[k]? = some code) :
    written all (k + 1) = written all k ++ codeOutput code := by
  simp [written, List.take_add_one, h]

theorem length_flatMap_take_le {α β : Type} (g : α → List β) (l : List α) (k : Nat) :
    ((l.take k).flatMap g).length ≤ ((l.take l.length).flatMap g).length := by
  rw [List.take_length]
  conv_rhs => rw [← List.take_append_drop k l, List.flatMap_append, List.length_append]
  exact Nat.le_add_right _ _

/-- A stream of codes at `BLIT_A`, its output at `BLIT_B`, both in working RAM: each code stands there after the ones
before have written, and the budget reaches it. -/
structure Streams (s : State) (all : List RleCode) : Prop where
  legal : cfgWf s.cfg = true
  wf : s.mem.wram.wf = true
  source : inWram s.cfg s.blit.a (usedBytes all all.length)
  target : inWram s.cfg s.blit.b (written all all.length).length
  remains : ∀ k, k < all.length → s.blit.len ≠ BitVec.ofNat 32 (usedBytes all k)
  bytes : ∀ k code x, all[k]? = some code → x < (codeBytes code).length →
    unitStored (written all k).length (offOf s.blit.b) (fun j => (written all k).getD j 0) s.mem.wram.read
      (offOf s.blit.a + usedBytes all k + x) = (codeBytes code).getD x 0

/-- The state after the first `k` codes. -/
def afterCodes (s : State) (all : List RleCode) (k : Nat) : State := streamed s (usedBytes all k) (written all k)

theorem afterCodes_zero (s : State) (all : List RleCode) : afterCodes s all 0 = s := streamed_zero s

/-- At the loop test before code `k` the run fetches that code and does what it does. -/
theorem Streams.code {s : State} {all : List RleCode} (h : Streams s all) {k : Nat} {code : RleCode}
    (hk : all[k]? = some code) (reads : codeRuns code = true ∨ code = .stop) (l : BlitLatch) (rest : List Activation) :
    Runs rest.length 1 ((afterCodes s all k).withStack (.rle l :: rest))
      (rleEffect code ((afterCodes s all k).withStack (.rle l :: rest))) := by
  have fetch : rleFetch (afterCodes s all k) = (code, afterCodes s all k) := rleFetch_code reads fun x hx => by
    have upTo := length_flatMap_take_le codeBytes all (k + 1)
    have within : usedBytes all k + x < usedBytes all all.length :=
      Nat.lt_of_lt_of_le (Nat.add_lt_add_left hx _) (usedBytes_succ hk ▸ upTo)
    have place : (afterCodes s all k).blit.a + BitVec.ofNat 32 x =
        s.blit.a + BitVec.ofNat 32 (usedBytes all k + x) := (add_ofNat_add ..).symm
    rw [place]
    refine ⟨h.source.plain within, (plainByte_inWram (s := afterCodes s all k) h.legal h.source within).trans ?_⟩
    rw [← Nat.add_assoc]
    exact (storeFrom_read h.wf _ _ _).trans (h.bytes k code x hk hx)
  have remains : (afterCodes s all k).blit.len ≠ 0 := fun empty =>
    h.remains k (List.getElem?_eq_some_iff.mp hk).1 (sub_eq_zero.mp empty)
  have run := rle_code (s := (afterCodes s all k).withStack (.rle l :: rest)) rfl remains
  rw [rleFetch_withStack, fetch] at run
  exact run

/-- A code that does not stop the run leads from its loop test to the next one. -/
theorem Streams.runs {s : State} {all : List RleCode} (h : Streams s all) {k : Nat} {code : RleCode}
    (hk : all[k]? = some code) (runs : codeRuns code = true) (l : BlitLatch) (rest : List Activation) :
    ∃ m, m ≤ 128 ∧ Runs rest.length m ((afterCodes s all k).withStack (.rle l :: rest))
      ((afterCodes s all (k + 1)).withStack (.rle l :: rest)) := by
  have upTo : (written all (k + 1)).length ≤ (written all all.length).length :=
    length_flatMap_take_le codeOutput all (k + 1)
  rw [written_succ hk, List.length_append] at upTo
  have inside : inWram s.cfg s.blit.b ((written all k).length + (codeOutput code).length) := by
    have := h.target.sub (i := 0) (k := (written all k).length + (codeOutput code).length) (by omega)
    rwa [add_ofNat_zero] at this
  obtain ⟨m, hm, output⟩ := rleEffect_runs (k := usedBytes all k) (rest := .rle l :: rest)
    (code := code) (by rintro rfl; cases runs) inside
  rw [← usedBytes_succ hk, ← written_succ hk] at output
  exact ⟨1 + m, by omega, (h.code hk (.inl runs) l rest).trans (output.mono (Nat.le_succ _))⟩

/-- An END code consumes its two bytes and takes the run off the stack. -/
theorem Streams.stops {s : State} {all : List RleCode} (h : Streams s all) {k : Nat} (hk : all[k]? = some .stop)
    (l : BlitLatch) (rest : List Activation) :
    Runs rest.length 1 ((afterCodes s all k).withStack (.rle l :: rest))
      ((afterCodes s all (k + 1)).withStack rest) := by
  refine (h.code hk (.inr rfl) l rest).cast ?_
  have consumed : rleEffect .stop ((afterCodes s all k).withStack (.rle l :: rest)) =
      (rleConsume 2 (afterCodes s all k)).withStack rest := rfl
  rw [consumed, afterCodes, rleConsume_streamed, afterCodes, usedBytes_succ hk, written_succ hk]
  rw [codeOutput, List.append_nil]
  rfl

theorem offOf_lt (a : Addr) : offOf a < 2 ^ 24 := Nat.mod_lt _ (by decide)

/-- A stream in working RAM has fewer codes than there are offsets, so a run over it fits a burst. -/
theorem Streams.length_le {s : State} {all : List RleCode} (h : Streams s all) : all.length ≤ 2 ^ 24 := by
  have each : all.length ≤ usedBytes all all.length := by
    rw [usedBytes, List.take_length, List.length_flatMap]
    refine le_of_eq_of_le (List.length_map _).symm (List.length_le_sum_of_one_le _ fun n hn => ?_)
    obtain ⟨code, -, rfl⟩ := List.mem_map.mp hn
    cases code <;> simp [codeBytes]
  have range : usedBytes all all.length ≤ 2 ^ 24 := by
    obtain ⟨-, -, place⟩ := h.source
    obtain none | ⟨n, same⟩ : usedBytes all all.length = 0 ∨ ∃ n, usedBytes all all.length = n + 1 :=
      (Nat.eq_zero_or_eq_succ_pred _).imp_right fun h => ⟨_, h⟩
    · omega
    · have last := (place n (by omega)).2
      have := offOf_lt (s.blit.a + BitVec.ofNat 32 n)
      omega
  exact Nat.le_trans each range

/-- A run over a stream ends after its codes: by its budget, or at an END code. -/
theorem Streams.completes {s : State} {codes all : List RleCode} {ends : Bool} (h : Streams s all)
    (hp : s.provisioned = true) (runs : ∀ code ∈ codes, codeRuns code = true)
    (hall : all = codes ++ if ends then [.stop] else [])
    (budget : ends = false → s.blit.len = BitVec.ofNat 32 (usedBytes all all.length)) (l : BlitLatch) :
    command (push (.rle l)) s = .next (afterCodes s all all.length) := by
  obtain ⟨m, _, hm, run, rfl⟩ := Runs.loop (depth := s.stack.length) (c := 128) (n := codes.length)
    (P := fun k v => v = (afterCodes s all k).withStack (.rle l :: s.stack))
    (fun k v hk hv => by
      have code : all[k]? = some codes[k] := by
        rw [hall, List.getElem?_append_left hk, List.getElem?_eq_getElem hk]
      obtain ⟨m, hm, run⟩ := h.runs code (runs _ (List.getElem_mem hk)) l s.stack
      exact ⟨m, _, hm, hv ▸ run, rfl⟩)
    (s := push (.rle l) s) (by rw [afterCodes_zero]; rfl)
  have last : Runs s.stack.length 1 ((afterCodes s all codes.length).withStack (.rle l :: s.stack))
      ((afterCodes s all all.length).withStack s.stack) := by
    cases ends with
    | true =>
      have stop : all[codes.length]? = some .stop := by simp [hall]
      have whole : all.length = codes.length + 1 := by simp [hall]
      rw [whole]
      exact h.stops stop l s.stack
    | false =>
      have whole : all.length = codes.length := by simp [hall]
      rw [← whole]
      exact rle_done (s := (afterCodes s all all.length).withStack (.rle l :: s.stack)) rfl
        (sub_eq_zero.mpr (budget rfl))
  have few := h.length_le
  have some_all : codes.length ≤ all.length := by rw [hall, List.length_append]; omega
  refine command_runs hp ((run.trans last).cast (State.withStack_eq rfl)) rfl ?_
  unfold Config.burst
  omega

/-- Settles O59. -/
theorem rleDecompressesItsStream : Obligations.RleDecompressesItsStream := by
  rintro s f skip ends w codes all _ _ i hp inv width hi runs hall rfl rfl remains budget source target bytes
  obtain ⟨legal, ok⟩ := inv_iff.mp inv
  have stream : Streams s all := ⟨legal, memOk.wram_wf ok, source, target, remains, bytes⟩
  refine ⟨_, (exec_rle width hi).trans (stream.completes hp runs hall budget _), fun j => ?_, rfl⟩
  exact storeFrom_read stream.wf _ _ _

end Sys2Proof.Machine
end

section
/-! Nesting of engines (10_state.md section 9): a unit that arms an engine puts it on top of its own activation, and
what lies below an activation stays as it is while the activation runs. -/

namespace Sys2Proof.Machine

/-! ## A write that arms an engine (R260, R310) -/

theorem truncTo_truncTo (w : Width) (v : Long) : truncTo w (truncTo w v) = truncTo w v := by
  cases w <;> simp [truncTo]

/-- Only the low byte of a word written to `DMA_CTRL` is looked at. -/
theorem dmaArm_armedBy {s : State} {d : Long} {new : Activation} (h : armedBy .dmaCtrl d s = some new) :
    dmaArm (d.setWidth 8) s = push new s := by
  simp only [armedBy, if_true] at h
  cases start : dmacStart (d.setWidth 8) with
  | false => rw [start] at h; cases h
  | true =>
    rw [start] at h
    cases code : widthOf s.cfg (dmacWidth (d.setWidth 8)) with
    | none => rw [code] at h; cases h
    | some w =>
      rw [code] at h
      cases fast : fastPath (dmacConst (d.setWidth 8)) w s with
      | true => simp [fast] at h
      | false =>
        simp only [fast, Bool.false_eq_true, if_false, Option.some.injEq] at h
        rw [dmaArm, if_pos start, dmaStart_general code fast, h]

theorem blitArm_armedBy {s : State} {d : Long} {new : Activation} (h : armedBy .blitFunc d s = some new) :
    blitArm d s = push new s := by
  simp only [armedBy, if_true, reduceCtorEq, if_false] at h
  cases code : widthOf s.cfg (blitfFields d).width with
  | none => rw [code] at h; cases h
  | some w =>
    rw [code] at h
    have armed {x : Activation} (same : some x = some new) : push x s = push new s :=
      congrArg (push · s) (Option.some.inj same)
    rw [blitArm]
    dsimp only at h
    split_ifs at h ⊢
    · exact (blitStart_armed code _ _).trans (armed h)
    · exact (blitStart_armed code _ _).trans (armed h)
    · exact (blitStart_armed code _ _).trans (armed h)
    · exact (rleStart_armed code _).trans (armed h)

/-- The write of a unit to an arming register, with a word that arms. -/
theorem busWrite_arms {s : State} {r : Reg} {d v : Long} {new : Activation} (legal : cfgWf s.cfg = true)
    (hr : r ∈ [Reg.dmaCtrl, Reg.blitFunc]) (h : armedBy r d s = some new)
    (hv : truncTo (regWidth r) v = truncTo (regWidth r) d) :
    busWrite (regWidth r) (regAddr s.cfg r) v s = push new s := by
  simp only [List.mem_cons, List.not_mem_nil, or_false] at hr
  obtain rfl | rfl := hr
  · have low : v.setWidth 8 = d.setWidth 8 := by
      have := congrArg (BitVec.setWidth 8) hv
      simpa [truncTo, regWidth] using this
    have byte : byteWrite (regAddr s.cfg .dmaCtrl) (v.setWidth 8) s =
        dmaArm (((v.setWidth 8).setWidth 32).setWidth 8) s := by
      have select : selectReg s.cfg (regAddr s.cfg .dmaCtrl) .byte = some .dmaCtrl := selectReg_regAddr legal .dmaCtrl
      have inside := inWindow_regAddr legal .dmaCtrl
      rw [byteWrite_window inside, windowWrite_select inside, select]
      rfl
    rw [show regWidth .dmaCtrl = .byte from rfl, busWrite_byte, byte, byte_of_long, low, dmaArm_armedBy h]
  · rw [busWrite_native (nativeReg_regAddr legal rfl (by decide)), hv]
    exact blitArm_armedBy h

/-! ## The unit of each engine -/

/-- The write that arms an engine from a unit whose activation `x` is back on the stack. -/
theorem unit_arms {s : State} {r : Reg} {d v : Long} {new : Activation} (legal : cfgWf s.cfg = true)
    (hr : r ∈ [Reg.dmaCtrl, Reg.blitFunc]) (h : armedBy r d s = some new)
    (hv : truncTo (regWidth r) v = truncTo (regWidth r) d) (x : Activation) (rest : List Activation) :
    busWrite (regWidth r) (regAddr s.cfg r) v (s.withStack (x :: rest)) = s.withStack (new :: x :: rest) :=
  busWrite_arms (s := s.withStack (x :: rest)) legal hr h hv

theorem dma_arms {s : State} {r : Reg} {d : Long} {new : Activation} (legal : cfgWf s.cfg = true)
    (hr : r ∈ [Reg.dmaCtrl, Reg.blitFunc]) (h : armedBy r d s = some new) {l : DmaLatch} {rest : List Activation}
    (hs : s.stack = .dma l false :: rest) (remains : s.dma.len ≠ 0) (width : l.width = regWidth r)
    (target : s.dma.dst = regAddr s.cfg r)
    (datum : l.const = true ∧ truncTo l.width s.dma.src = d ∨ l.const = false ∧ busRead l.width s.dma.src s = (d, s)) :
    tick s = s.withStack (new :: .dma l true :: rest) := by
  obtain ⟨v, read, same⟩ : ∃ v, dmaDatum l s = (v, s) ∧ truncTo (regWidth r) v = truncTo (regWidth r) d := by
    obtain ⟨const, rfl⟩ | ⟨copy, read⟩ := datum
    · exact ⟨s.dma.src, if_pos const, by rw [width, truncTo_truncTo]⟩
    · exact ⟨d, (if_neg (Bool.eq_false_iff.mp copy)).trans read, rfl⟩
  simp only [tick, hs, dmaTick, Bool.false_eq_true, if_false, remains, read]
  rw [width, target]
  exact unit_arms legal hr h same _ rest

/-- The micro-step of a unit of Blit, Set or Invert, at the outer test or inside a pass. -/
theorem tick_blitMove {s : State} {op : BlitOp} {l : BlitLatch} {i : Nat} {rest : List Activation}
    (hs : s.stack = .blit op l (.pass i) :: rest ∧ i < l.srcStride.toNat ∨
      s.stack = .blit op l .test :: rest ∧ l.skip = false ∧ i = 0) (remains : s.blit.len ≠ 0) :
    tick s = blitMove op l (s.withStack (.blit op l (.moved i) :: rest)) := by
  obtain ⟨hs, inside⟩ | ⟨hs, skip, rfl⟩ := hs
  · simp only [tick, hs, blitTick, if_pos (And.intro inside remains)]
  · simp only [tick, hs, blitTick, remains, skip, Bool.false_eq_true, if_false]

theorem busRead_dmaCtrl {s : State} (legal : cfgWf s.cfg = true) :
    busRead .byte (regAddr s.cfg .dmaCtrl) s = (0, s) := by
  have inside := inWindow_regAddr legal .dmaCtrl
  have select : regAt s.cfg (roffOf s.cfg (regAddr s.cfg .dmaCtrl)) .byte = some .dmaCtrl := by
    rw [← selectReg_inWindow inside]
    exact selectReg_regAddr legal .dmaCtrl
  rw [busRead_byte, byteRead_window inside, windowRead, select]
  rfl

theorem blit_arms {s : State} {r : Reg} {d : Long} {new : Activation} (legal : cfgWf s.cfg = true)
    (hr : r ∈ [Reg.dmaCtrl, Reg.blitFunc]) (h : armedBy r d s = some new) {op : BlitOp} {l : BlitLatch} {i : Nat}
    {rest : List Activation}
    (hs : s.stack = .blit op l (.pass i) :: rest ∧ i < l.srcStride.toNat ∨
      s.stack = .blit op l .test :: rest ∧ l.skip = false ∧ i = 0) (remains : s.blit.len ≠ 0)
    (width : unitWidth op l = regWidth r) (target : s.blit.b = regAddr s.cfg r)
    (datum : op = .blit ∧ busRead l.width s.blit.a s = (d, s) ∧ ¬ (l.keyEn = true ∧ d = s.blit.key) ∨
      op = .set ∧ l.skip = true ∧ truncTo l.width s.blit.a = d ∨ op = .invert ∧ d = 0xFF) :
    tick s = s.withStack (new :: .blit op l (.moved i) :: rest) := by
  rw [tick_blitMove hs remains]
  obtain ⟨rfl, read, noMatch⟩ | ⟨rfl, skip, rfl⟩ | ⟨rfl, rfl⟩ := datum
  · simp only [blitMove, State.withStack_blit, busRead_withStack, read, Bool.and_eq_true, decide_eq_true_eq,
      if_neg noMatch]
    rw [show l.width = regWidth r from width, target]
    exact unit_arms legal hr h rfl _ rest
  · replace width : l.width = regWidth r := width
    simp only [blitMove, skip, if_true, State.withStack_blit]
    rw [width, target]
    exact unit_arms legal hr h (by rw [width, truncTo_truncTo]) _ rest
  · obtain rfl : r = .dmaCtrl := by
      simp only [List.mem_cons, List.not_mem_nil, or_false] at hr
      obtain rfl | rfl := hr
      · rfl
      · cases width
    simp only [blitMove, State.withStack_blit, busRead_withStack, target, busRead_dmaCtrl legal]
    exact unit_arms legal hr h (by decide) _ rest

theorem rleOut_arms {s : State} {d : Long} {new : Activation} (legal : cfgWf s.cfg = true)
    (h : armedBy .dmaCtrl d s = some new) {n : Nat} {v : Byte} {rest : List Activation}
    (hs : s.stack = .rleOut (n + 1) v false :: rest) (value : v.setWidth 32 = d)
    (target : s.blit.b = regAddr s.cfg .dmaCtrl) : tick s = s.withStack (new :: .rleOut n v true :: rest) := by
  simp only [tick, hs, rleOutTick, Bool.false_eq_true, if_false, value, target]
  exact unit_arms legal (List.mem_cons_self ..) h rfl _ rest

theorem hdma_arms {s : State} {r : Reg} {d : Long} {new : Activation} (legal : cfgWf s.cfg = true)
    (hr : r ∈ [Reg.dmaCtrl, Reg.blitFunc]) (h : armedBy r d s = some new) {n : Nat} {c : Fin 8}
    {rest : List Activation} (hs : s.stack = .hdma n c :: rest) (active : hdmaActive s.hdma[c] n = true)
    (width : widthOf s.cfg s.hdma[c].width = some (regWidth r)) (target : s.hdma[c].dst = regAddr s.cfg r)
    (read : busRead (regWidth r)
      (s.hdma[c].src + BitVec.ofNat 32 (hdmaIndex s.hdma[c] n * (regWidth r).step)) s = (d, s)) :
    tick s = s.withStack (new :: .hdma n (c + 1) :: rest) := by
  have step := tick_line c.isLt (n := n) s rest
  rw [← hs, State.withStack_eq rfl] at step
  refine step.trans ((hdmaServe_active (s := s.withStack (.hdma n (c + 1) :: rest)) active width).trans ?_)
  rw [busRead_withStack, read, target]
  exact unit_arms legal hr h rfl _ rest

/-! ## What lies below -/

/-- A run down to a depth leaves what lies below it, and goes no further. -/
theorem settle_below {s : State} {top base : List Activation} (hs : s.stack = top ++ base) (k : Nat) :
    ∃ top', (settle base.length k s).stack = top' ++ base ∧
      ∀ x, top' = [] → settle base.length (k + x) s = settle base.length k s := by
  have run := settle_append k s top base
  rw [← hs, State.withStack_eq rfl] at run
  have stack : (settle base.length k s).stack = (settle 0 k (s.withStack top)).stack ++ base := by rw [run]; rfl
  refine ⟨_, stack, fun x back => ?_⟩
  rw [settle_add, settle_done]
  rw [stack, back]
  exact Nat.le_refl _

/-- Settles O60. -/
theorem nestedCommandsRunOnTopOfTheOuterOne : Obligations.NestedCommandsRunOnTopOfTheOuterOne := by
  refine ⟨fun s r d new legal hr h => ⟨?dma, ?blit, ?rle, ?hdma⟩, fun s top base k hs => settle_below hs k⟩
  case dma => exact fun l rest hs remains width target datum => dma_arms legal hr h hs remains width target datum
  case blit =>
    exact fun op l i rest hs remains width target datum => blit_arms legal hr h hs remains width target datum
  case rle =>
    rintro n v rest hs rfl value target
    exact rleOut_arms legal h hs value target
  case hdma =>
    rintro n c _ _ rest hs active width rfl target rfl read
    exact hdma_arms legal hr h hs active width target read

end Sys2Proof.Machine
end
